-- ==== Sys2Proof/Word.lean ====
section
/-!
DEFINITION. The word types of the SimpleOS CORE (00_scope.md R11, 30_encoding.md R121) and the one
operand type that is more than a bit field (30_encoding.md R126).
-/

namespace Sys2Proof

/-- One byte of memory. -/
abbrev Byte := BitVec 8

/-- The 16-bit immediate field of an instruction word (30_encoding.md R121). -/
abbrev Half := BitVec 16

/-- A register, memory or flag word: every value wraps to 32 bits (00_scope.md R11). -/
abbrev Word := BitVec 32

/-- A 4-bit register field: R0 to R15 (10_state.md R21). -/
abbrev RegIdx := BitVec 4

/-- The second operand of the RX form (30_encoding.md R126): a register other than R15, or the
16-bit immediate that the sentinel value 15 of the src field selects. -/
inductive Src where
  | reg (s : RegIdx)
  | imm (v : Half)
  deriving DecidableEq, Repr, Inhabited

/-- The two access widths (20_memory.md R73). -/
inductive Width where
  | byte
  | word
  deriving DecidableEq, Repr, Inhabited

/-- The number of bytes an access of this width moves (20_memory.md R73). -/
def Width.bytes : Width → Nat
  | .byte => 1
  | .word => 4

end Sys2Proof
end

