-- ==== Sys2Proof/Machine/Assoc.lean ====
section
/-!
DEFINITION. Finite maps from Nat as lists of key and value pairs whose keys rise strictly: the one
form in which State holds memory, the page table, the vector table, the cache, the framebuffer and
the thread map, so that equal maps are equal data.
-/

namespace Sys2Proof.Machine

/-- The value at a key. -/
def Assoc.get {α : Type} : List (Nat × α) → Nat → Option α
  | [], _ => none
  | (k', v) :: rest, k => if k' = k then some v else Assoc.get rest k

/-- Set the value at a key, keeping the keys in rising order. -/
def Assoc.put {α : Type} : List (Nat × α) → Nat → α → List (Nat × α)
  | [], k, v => [(k, v)]
  | (k', v') :: rest, k, v =>
    if k < k' then (k, v) :: (k', v') :: rest
    else if k = k' then (k, v) :: rest
    else (k', v') :: Assoc.put rest k v

/-- Drop the keys that `p` refuses. -/
def Assoc.keep {α : Type} (m : List (Nat × α)) (p : Nat → Bool) : List (Nat × α) :=
  m.filter fun e => p e.1

/-- Remove a key. -/
def Assoc.erase {α : Type} (m : List (Nat × α)) (k : Nat) : List (Nat × α) :=
  Assoc.keep m fun k' => k' != k

/-- Change the value at a key, if it has one. -/
def Assoc.update {α : Type} (m : List (Nat × α)) (k : Nat) (f : α → α) : List (Nat × α) :=
  match Assoc.get m k with
  | none => m
  | some v => Assoc.put m k (f v)

/-- The keys rise strictly. -/
abbrev Assoc.Rising {α : Type} (m : List (Nat × α)) : Prop :=
  m.Pairwise fun a b => a.1 < b.1

end Sys2Proof.Machine
end

