-- ==== Sys2Proof/Config.lean ====
section
/-!
DEFINITION. What an implementation of the SimpleOS CORE fixes (the parameters of 00_scope.md R9),
and the free values the spec leaves open. The parameters are plain data (`Params`) that State holds
and no step writes, so a statement about every state is a statement about every parameter setting;
STACK_TOP and the numerics of a custom FPCFG, which are functions, and every free value are opaque
constants of the namespace Config: nothing can evaluate them (log entries 1, 5). The kernel's
response, which depends on the whole state, is declared in Machine/Host.lean.
-/

namespace Sys2Proof

/-- The 51 operations of the opcode table (30_encoding.md R132). -/
inductive Opcode where
  | halt
  | nop
  | loadi
  | mov
  | load
  | store
  | loadb
  | storeb
  | ldr
  | str
  | ldrb
  | strb
  | add
  | sub
  | adc
  | sbc
  | mul
  | div
  | mod
  | cmp
  | and
  | or
  | xor
  | not
  | shl
  | shr
  | rol
  | ror
  | jmp
  | jz
  | jnz
  | jn
  | jnn
  | jc
  | jnc
  | jo
  | jno
  | call
  | ret
  | push
  | pop
  | int
  | iret
  | syscall
  | yield
  | fpush
  | fpop
  | fadd
  | fsub
  | fmul
  | fdiv
  deriving DecidableEq, Repr, Inhabited

/-- The three tiers of the opcode table (00_scope.md R8); `classed` is the spec's `class`. -/
inductive Basis where
  | named
  | classed
  | decided
  deriving DecidableEq, Repr, Inhabited

/-- OPCODE_MAP (00_scope.md R9): which byte in bits 31:24 spells which operation. Bytes it does not
list spell no instruction (30_encoding.md R133). -/
abbrev OpcodeMap := List (Byte × Opcode)

/-- IMM_ALU_EXT: how the sentinel immediate is extended (30_encoding.md R129). -/
inductive ImmExt where
  | sext
  | zext
  deriving DecidableEq, Repr, Inhabited

/-- DIV_MODE: the reading of DIV and MOD (42_integer_alu.md R205, R206). -/
inductive DivMode where
  | unsigned
  | signedTrunc
  | signedFloor
  deriving DecidableEq, Repr, Inhabited

/-- FPCFG: the numerics of the FP stack (45_fp_stack.md R311): IEEE 754 binary64, or a numerics
record of the implementation's own, whose operations are then opaque (92_eei_decisions.md D29). -/
inductive FpCfg where
  | binary64
  | custom (n : Nat)
  deriving DecidableEq, Repr, Inhabited

/-- A floating-point value (10_state.md R32). `fin neg m e` is m * 2^e, negated when `neg`; a zero
keeps its sign. There is one NaN: no instruction can see a NaN's bits (log entry 9). -/
inductive Fp where
  | nan
  | inf (neg : Bool)
  | fin (neg : Bool) (m : Nat) (e : Int)
  deriving DecidableEq, Repr, Inhabited

/-- The named parameters of the model (00_scope.md R9) that are plain data. STACK_TOP(id) is
`Config.stackTop`; KERNEL is `Config.kernelResponse`. -/
structure Params where
  /-- MEM_INIT_SIZE, in bytes. -/
  memInitSize : Nat
  /-- PAGE_SIZE, in bytes. -/
  pageSize : Nat
  /-- PHYS_POOL_BASE, a physical page number. -/
  physPoolBase : Nat
  /-- CACHE_CAPACITY, in entries. -/
  cacheCapacity : Nat
  /-- QUANTUM, in instructions; no rule relies on it (60_exceptions.md R444). -/
  quantum : Nat
  /-- STACK_SIZE, in bytes; a placement, not a protection (60_exceptions.md R441). -/
  stackSize : Nat
  /-- FB_WIDTH, in pixels. -/
  fbWidth : Nat
  /-- FB_HEIGHT, in pixels. -/
  fbHeight : Nat
  /-- FB_COLOR: the number of bits of a packed colour. -/
  fbColor : Nat
  /-- TIME_UNIT, in microseconds; no rule reads it. -/
  timeUnit : Nat
  /-- OPCODE_MAP. -/
  opcodeMap : OpcodeMap
  /-- ADMIT_DECIDED. -/
  admitDecided : Bool
  /-- IMM_ALU_EXT. -/
  immAluExt : ImmExt
  /-- ADD_SUB_SET_CV. -/
  addSubSetCV : Bool
  /-- DIV_MODE. -/
  divMode : DivMode
  /-- FPCFG. -/
  fpCfg : FpCfg
  /-- PERM_READ, a bit number of the permission bits. -/
  permRead : Nat
  /-- PERM_WRITE, a bit number of the permission bits. -/
  permWrite : Nat
  deriving DecidableEq, Repr, Inhabited

/-- A transaction the CORE sends to an MMIO handler (10_state.md R63): a read, or a write of
`value`, of `width.bytes` bytes at `offset` from the handler's own base. -/
structure DeviceRequest where
  handler : Nat
  offset : Nat
  width : Width
  value : Option Word
  deriving DecidableEq, Repr, Inhabited

/-- STACK_TOP(id): where a created thread's private stack begins (60_exceptions.md R441; I18). -/
opaque Config.stackTop : Nat → Word

/-- FREE VALUE: the answer of an MMIO handler to a read, at the given draw (20_memory.md R92; I13). -/
opaque Config.mmioAnswer : Nat → DeviceRequest → Word

/-- FREE VALUE: which cache entry is evicted, at the given draw (20_memory.md R97; I11). -/
opaque Config.evictChoice : Nat → Nat

/-- FREE VALUE: are the memory writes of a faulting instruction's earlier accesses kept
(60_exceptions.md R402; I15). -/
opaque Config.keepWrites : Nat → Bool

/-- FREE VALUE: are the page allocations of a faulting instruction's earlier accesses kept
(60_exceptions.md R402; I15). -/
opaque Config.keepPages : Nat → Bool

/-- FREE VALUE: for the slice that thread `id` began with `start` instructions run in total, how many
instructions it may run before the one after which it is preempted (60_exceptions.md R444; I16, I26). Being a
number, it ends every slice: the weak fairness of R444 (log entry 15). -/
opaque Config.sliceLimit (id start : Nat) : Nat

/-- FREE VALUE: by how much the wall clock advanced since its last reading (10_state.md R46; I19). -/
opaque Config.clockAdvance : Nat → Nat

/-- FREE VALUE: where a thread woken by unblock_due joins those woken with it
(60_exceptions.md R445; I17). -/
opaque Config.wakePosition : Nat → Nat

/-- FREE VALUE: the pixels a shape-drawing primitive touches (60_exceptions.md R431; I21). -/
opaque Config.shapePixels : Nat → List (Int × Int)

/-- FREE VALUE: `fromInt` of the custom numerics `n` (45_fp_stack.md R311; I7). -/
opaque Config.fpFromInt (n : Nat) : Int → Fp

/-- FREE VALUE: `toInt` of the custom numerics `n` (45_fp_stack.md R311; I7). -/
opaque Config.fpToInt (n : Nat) : Fp → Option Word

/-- FREE VALUE: `add` of the custom numerics `n` (45_fp_stack.md R311; I7). -/
opaque Config.fpAdd (n : Nat) : Fp → Fp → Fp

/-- FREE VALUE: `sub` of the custom numerics `n` (45_fp_stack.md R311; I7). -/
opaque Config.fpSub (n : Nat) : Fp → Fp → Fp

/-- FREE VALUE: `mul` of the custom numerics `n` (45_fp_stack.md R311; I7). -/
opaque Config.fpMul (n : Nat) : Fp → Fp → Fp

/-- FREE VALUE: `div` of the custom numerics `n` (45_fp_stack.md R311; I7). -/
opaque Config.fpDiv (n : Nat) : Fp → Fp → Option Fp

end Sys2Proof
end

