-- ==== Sys2Proof/Syntax.lean ====
section
/-!
DEFINITION. The instructions of the SimpleOS CORE: one constructor per row of spec/opcode_table.json
(30_encoding.md R132), in the table's order. A constructor holds the fields its operand form uses
(30_encoding.md R124) and no others, since unused fields are ignored (R125).
-/

namespace Sys2Proof

/-- One instruction. Operand letters: `d` the dst field, `s` the src field, `imm` the 16-bit
immediate, `b` the second operand of the RX form. -/
inductive Instr where
  /-- HALT: stop the engine (44_system.md R280). -/
  | halt
  /-- NOP: no operation (44_system.md R281). -/
  | nop
  /-- LOADI: load the sign-extended immediate (40_data_movement.md R150). -/
  | loadi (d : RegIdx) (imm : Half)
  /-- MOV: copy a register (40_data_movement.md R151). -/
  | mov (d s : RegIdx)
  /-- LOAD: load a word, absolute address (41_load_store.md R170). -/
  | load (d : RegIdx) (imm : Half)
  /-- STORE: store a word, absolute address (41_load_store.md R171). -/
  | store (d : RegIdx) (imm : Half)
  /-- LOADB: load a byte zero-extended, absolute address (41_load_store.md R172). -/
  | loadb (d : RegIdx) (imm : Half)
  /-- STOREB: store the low byte, absolute address (41_load_store.md R173). -/
  | storeb (d : RegIdx) (imm : Half)
  /-- LDR: load a word, based address (41_load_store.md R174). -/
  | ldr (d s : RegIdx) (imm : Half)
  /-- STR: store a word, based address (41_load_store.md R175). -/
  | str (d s : RegIdx) (imm : Half)
  /-- LDRB: load a byte zero-extended, based address (41_load_store.md R176). -/
  | ldrb (d s : RegIdx) (imm : Half)
  /-- STRB: store the low byte, based address (41_load_store.md R177). -/
  | strb (d s : RegIdx) (imm : Half)
  /-- ADD: add (42_integer_alu.md R200). -/
  | add (d : RegIdx) (b : Src)
  /-- SUB: subtract (42_integer_alu.md R201). -/
  | sub (d : RegIdx) (b : Src)
  /-- ADC: add with carry (42_integer_alu.md R202). -/
  | adc (d : RegIdx) (b : Src)
  /-- SBC: subtract with borrow (42_integer_alu.md R203). -/
  | sbc (d : RegIdx) (b : Src)
  /-- MUL: multiply, low 32 bits (42_integer_alu.md R204). -/
  | mul (d : RegIdx) (b : Src)
  /-- DIV: divide (42_integer_alu.md R205). -/
  | div (d : RegIdx) (b : Src)
  /-- MOD: remainder (42_integer_alu.md R206). -/
  | mod (d : RegIdx) (b : Src)
  /-- CMP: compare: subtract and discard (42_integer_alu.md R207). -/
  | cmp (d : RegIdx) (b : Src)
  /-- AND: bitwise and (42_integer_alu.md R208). -/
  | and (d : RegIdx) (b : Src)
  /-- OR: bitwise or (42_integer_alu.md R209). -/
  | or (d : RegIdx) (b : Src)
  /-- XOR: bitwise exclusive or (42_integer_alu.md R210). -/
  | xor (d : RegIdx) (b : Src)
  /-- NOT: bitwise complement (42_integer_alu.md R211). -/
  | not (d : RegIdx)
  /-- SHL: shift left (42_integer_alu.md R212). -/
  | shl (d : RegIdx) (b : Src)
  /-- SHR: shift right, logical (42_integer_alu.md R213). -/
  | shr (d : RegIdx) (b : Src)
  /-- ROL: rotate left (42_integer_alu.md R214). -/
  | rol (d : RegIdx) (b : Src)
  /-- ROR: rotate right (42_integer_alu.md R215). -/
  | ror (d : RegIdx) (b : Src)
  /-- JMP: jump, absolute (43_control_transfer.md R250). -/
  | jmp (imm : Half)
  /-- JZ: jump if Z (43_control_transfer.md R252). -/
  | jz (imm : Half)
  /-- JNZ: jump if not Z (43_control_transfer.md R253). -/
  | jnz (imm : Half)
  /-- JN: jump if N (43_control_transfer.md R254). -/
  | jn (imm : Half)
  /-- JNN: jump if not N (43_control_transfer.md R255). -/
  | jnn (imm : Half)
  /-- JC: jump if C (43_control_transfer.md R256). -/
  | jc (imm : Half)
  /-- JNC: jump if not C (43_control_transfer.md R257). -/
  | jnc (imm : Half)
  /-- JO: jump if V (43_control_transfer.md R258). -/
  | jo (imm : Half)
  /-- JNO: jump if not V (43_control_transfer.md R259). -/
  | jno (imm : Half)
  /-- CALL: push the return address and jump (43_control_transfer.md R260). -/
  | call (imm : Half)
  /-- RET: pop the pc (43_control_transfer.md R261). -/
  | ret
  /-- PUSH: push a register (41_load_store.md R178). -/
  | push (d : RegIdx)
  /-- POP: pop into a register (41_load_store.md R179). -/
  | pop (d : RegIdx)
  /-- INT: software interrupt (44_system.md R282). -/
  | int (imm : Half)
  /-- IRET: return from interrupt (44_system.md R283). -/
  | iret
  /-- SYSCALL: call the external kernel (44_system.md R290). -/
  | syscall
  /-- YIELD: give up the time slice (44_system.md R293). -/
  | yield
  /-- FPUSH: push a register, as a signed integer, onto the FP stack (45_fp_stack.md R320). -/
  | fpush (d : RegIdx)
  /-- FPOP: pop the FP stack into a register (45_fp_stack.md R321). -/
  | fpop (d : RegIdx)
  /-- FADD: add the top two FP entries (45_fp_stack.md R322). -/
  | fadd
  /-- FSUB: subtract the top from the next (45_fp_stack.md R323). -/
  | fsub
  /-- FMUL: multiply the top two FP entries (45_fp_stack.md R324). -/
  | fmul
  /-- FDIV: divide the next by the top (45_fp_stack.md R325). -/
  | fdiv
  deriving DecidableEq, Repr, Inhabited

end Sys2Proof
end

