-- ==== Sys2Proof/Decode.lean ====
section
/-!
DEFINITION. The instruction codec (30_encoding.md R120 to R136): the fields of a word, the default
OPCODE_MAP, the decoder, total on any word and on any bytes and rejecting by name, and the encoder.
-/

namespace Sys2Proof

/-- The tier of each operation: the `basis` column of 30_encoding.md R132. -/
def Opcode.basis : Opcode → Basis
  | .halt | .loadi | .add | .sub | .div | .call | .ret | .iret | .syscall => .named
  | .load | .store | .adc | .sbc | .mod | .and | .or | .xor | .shl | .shr | .rol | .ror | .jmp | .jz | .jnz | .jn | .jnn | .jc | .jnc | .jo | .jno | .push | .pop | .int | .yield => .classed
  | .nop | .mov | .loadb | .storeb | .ldr | .str | .ldrb | .strb | .mul | .cmp | .not | .fpush | .fpop | .fadd | .fsub | .fmul | .fdiv => .decided

/-- Opcodes 0x00 to 0x0B (30_encoding.md R132). -/
def OpcodeMap.rows0 : OpcodeMap :=
  [(0x00#8, .halt), (0x01#8, .nop), (0x02#8, .loadi), (0x03#8, .mov),
   (0x04#8, .load), (0x05#8, .store), (0x06#8, .loadb), (0x07#8, .storeb),
   (0x08#8, .ldr), (0x09#8, .str), (0x0A#8, .ldrb), (0x0B#8, .strb)]

/-- Opcodes 0x10 to 0x1F (30_encoding.md R132). -/
def OpcodeMap.rows1 : OpcodeMap :=
  [(0x10#8, .add), (0x11#8, .sub), (0x12#8, .adc), (0x13#8, .sbc),
   (0x14#8, .mul), (0x15#8, .div), (0x16#8, .mod), (0x17#8, .cmp),
   (0x18#8, .and), (0x19#8, .or), (0x1A#8, .xor), (0x1B#8, .not),
   (0x1C#8, .shl), (0x1D#8, .shr), (0x1E#8, .rol), (0x1F#8, .ror)]

/-- Opcodes 0x20 to 0x2A (30_encoding.md R132). -/
def OpcodeMap.rows2 : OpcodeMap :=
  [(0x20#8, .jmp), (0x21#8, .jz), (0x22#8, .jnz), (0x23#8, .jn),
   (0x24#8, .jnn), (0x25#8, .jc), (0x26#8, .jnc), (0x27#8, .jo),
   (0x28#8, .jno), (0x29#8, .call), (0x2A#8, .ret)]

/-- Opcodes 0x30 to 0x31 (30_encoding.md R132). -/
def OpcodeMap.rows3 : OpcodeMap :=
  [(0x30#8, .push), (0x31#8, .pop)]

/-- Opcodes 0x40 to 0x43 (30_encoding.md R132). -/
def OpcodeMap.rows4 : OpcodeMap :=
  [(0x40#8, .int), (0x41#8, .iret), (0x42#8, .syscall), (0x43#8, .yield)]

/-- Opcodes 0x50 to 0x55 (30_encoding.md R132). -/
def OpcodeMap.rows5 : OpcodeMap :=
  [(0x50#8, .fpush), (0x51#8, .fpop), (0x52#8, .fadd), (0x53#8, .fsub),
   (0x54#8, .fmul), (0x55#8, .fdiv)]

/-- The default OPCODE_MAP: the numbering of spec/opcode_table.json (30_encoding.md R132). -/
def OpcodeMap.default : OpcodeMap :=
  OpcodeMap.rows0 ++ OpcodeMap.rows1 ++ OpcodeMap.rows2 ++ OpcodeMap.rows3 ++ OpcodeMap.rows4
    ++ OpcodeMap.rows5

/-- The operation the opcode byte `b` spells, if any (30_encoding.md R133). -/
def OpcodeMap.opcodeOf : OpcodeMap → Byte → Option Opcode
  | [], _ => none
  | (b', op) :: rest, b => if b' = b then some op else OpcodeMap.opcodeOf rest b

/-- The opcode byte that spells `op`, if any. -/
def OpcodeMap.byteOf : OpcodeMap → Opcode → Option Byte
  | [], _ => none
  | (b, op') :: rest, op => if op' = op then some b else OpcodeMap.byteOf rest op

/-- No byte spells two operations and no operation is spelled by two bytes. -/
abbrev OpcodeMap.Unambiguous (m : OpcodeMap) : Prop :=
  (m.map Prod.fst).Nodup ∧ (m.map Prod.snd).Nodup

/-! Fields (30_encoding.md R121, R122). -/

/-- Bits 31:24, the opcode. -/
def opField (w : Word) : Byte := w.extractLsb' 24 8

/-- Bits 23:20, dst. -/
def dstField (w : Word) : RegIdx := w.extractLsb' 20 4

/-- Bits 19:16, src. -/
def srcFieldOf (w : Word) : RegIdx := w.extractLsb' 16 4

/-- Bits 15:0, imm16. -/
def immField (w : Word) : Half := w.extractLsb' 0 16

/-- `encode(op, d, s, imm) = op<<24 | d<<20 | s<<16 | imm` (30_encoding.md R122). -/
def packFields (op : Byte) (d s : RegIdx) (imm : Half) : Word :=
  (op.setWidth 32 <<< 24) ||| (d.setWidth 32 <<< 20) ||| (s.setWidth 32 <<< 16) ||| imm.setWidth 32

/-- The RX operand that the src and immediate fields spell: 15 is the sentinel (30_encoding.md R126). -/
def rxSrc (s : RegIdx) (imm : Half) : Src :=
  if s = 15 then .imm imm else .reg s

/-- The src field that spells an RX operand. -/
def srcField : Src → RegIdx
  | .reg s => s
  | .imm _ => 15

/-- The immediate field that spells an RX operand; 0 where the field is not used. -/
def srcImm : Src → Half
  | .reg _ => 0
  | .imm v => v

/-- The instruction an operation and its fields spell: each operand form takes the fields it lists
and ignores the others (30_encoding.md R124, R125). -/
def instrOf (op : Opcode) (d s : RegIdx) (imm : Half) : Instr :=
  match op with
  | .halt => .halt
  | .nop => .nop
  | .loadi => .loadi d imm
  | .mov => .mov d s
  | .load => .load d imm
  | .store => .store d imm
  | .loadb => .loadb d imm
  | .storeb => .storeb d imm
  | .ldr => .ldr d s imm
  | .str => .str d s imm
  | .ldrb => .ldrb d s imm
  | .strb => .strb d s imm
  | .add => .add d (rxSrc s imm)
  | .sub => .sub d (rxSrc s imm)
  | .adc => .adc d (rxSrc s imm)
  | .sbc => .sbc d (rxSrc s imm)
  | .mul => .mul d (rxSrc s imm)
  | .div => .div d (rxSrc s imm)
  | .mod => .mod d (rxSrc s imm)
  | .cmp => .cmp d (rxSrc s imm)
  | .and => .and d (rxSrc s imm)
  | .or => .or d (rxSrc s imm)
  | .xor => .xor d (rxSrc s imm)
  | .not => .not d
  | .shl => .shl d (rxSrc s imm)
  | .shr => .shr d (rxSrc s imm)
  | .rol => .rol d (rxSrc s imm)
  | .ror => .ror d (rxSrc s imm)
  | .jmp => .jmp imm
  | .jz => .jz imm
  | .jnz => .jnz imm
  | .jn => .jn imm
  | .jnn => .jnn imm
  | .jc => .jc imm
  | .jnc => .jnc imm
  | .jo => .jo imm
  | .jno => .jno imm
  | .call => .call imm
  | .ret => .ret
  | .push => .push d
  | .pop => .pop d
  | .int => .int imm
  | .iret => .iret
  | .syscall => .syscall
  | .yield => .yield
  | .fpush => .fpush d
  | .fpop => .fpop d
  | .fadd => .fadd
  | .fsub => .fsub
  | .fmul => .fmul
  | .fdiv => .fdiv

/-- Why a word or a byte sequence spells no instruction. -/
inductive DecodeError where
  /-- The opcode byte is not in OPCODE_MAP (30_encoding.md R133). -/
  | unassignedOpcode (b : Byte)
  /-- A `decided` operation while ADMIT_DECIDED is false (30_encoding.md R135). -/
  | notAdmitted (op : Opcode)
  /-- Fewer than four bytes are left (30_encoding.md R120). -/
  | truncated
  deriving DecidableEq, Repr

/-- The decoder on a word, under an OPCODE_MAP and an ADMIT_DECIDED setting: the decision is made
from the opcode byte alone (30_encoding.md R133, R135, R142). -/
def decodeWord (m : OpcodeMap) (admitDecided : Bool) (w : Word) : Except DecodeError Instr :=
  match m.opcodeOf (opField w) with
  | none => .error (.unassignedOpcode (opField w))
  | some op =>
    if op.basis = .decided ∧ admitDecided = false then .error (.notAdmitted op)
    else .ok (instrOf op (dstField w) (srcFieldOf w) (immField w))

/-- The word whose bytes are b0 (lowest address) to b3: little-endian (20_memory.md R71, R72). -/
def wordOfBytes (b0 b1 b2 b3 : Byte) : Word :=
  b0.setWidth 32 ||| (b1.setWidth 32 <<< 8) ||| (b2.setWidth 32 <<< 16) ||| (b3.setWidth 32 <<< 24)

/-- Byte k of a word, counted from the least significant (20_memory.md R72). -/
def byteOfWord (w : Word) (k : Nat) : Byte := w.extractLsb' (8 * k) 8

/-- The decoder on bytes: the instruction of the first four and the bytes after them
(30_encoding.md R120, 20_memory.md R71). -/
def decode (m : OpcodeMap) (admitDecided : Bool) : List Byte → Except DecodeError (Instr × List Byte)
  | b0 :: b1 :: b2 :: b3 :: rest =>
    match decodeWord m admitDecided (wordOfBytes b0 b1 b2 b3) with
    | .ok i => .ok (i, rest)
    | .error e => .error e
  | _ => .error .truncated

/-- The operation of an instruction. -/
def Instr.opcode : Instr → Opcode
  | .halt => .halt
  | .nop => .nop
  | .loadi _ _ => .loadi
  | .mov _ _ => .mov
  | .load _ _ => .load
  | .store _ _ => .store
  | .loadb _ _ => .loadb
  | .storeb _ _ => .storeb
  | .ldr _ _ _ => .ldr
  | .str _ _ _ => .str
  | .ldrb _ _ _ => .ldrb
  | .strb _ _ _ => .strb
  | .add _ _ => .add
  | .sub _ _ => .sub
  | .adc _ _ => .adc
  | .sbc _ _ => .sbc
  | .mul _ _ => .mul
  | .div _ _ => .div
  | .mod _ _ => .mod
  | .cmp _ _ => .cmp
  | .and _ _ => .and
  | .or _ _ => .or
  | .xor _ _ => .xor
  | .not _ => .not
  | .shl _ _ => .shl
  | .shr _ _ => .shr
  | .rol _ _ => .rol
  | .ror _ _ => .ror
  | .jmp _ => .jmp
  | .jz _ => .jz
  | .jnz _ => .jnz
  | .jn _ => .jn
  | .jnn _ => .jnn
  | .jc _ => .jc
  | .jnc _ => .jnc
  | .jo _ => .jo
  | .jno _ => .jno
  | .call _ => .call
  | .ret => .ret
  | .push _ => .push
  | .pop _ => .pop
  | .int _ => .int
  | .iret => .iret
  | .syscall => .syscall
  | .yield => .yield
  | .fpush _ => .fpush
  | .fpop _ => .fpop
  | .fadd => .fadd
  | .fsub => .fsub
  | .fmul => .fmul
  | .fdiv => .fdiv

/-- The dst, src and immediate fields that spell an instruction; a field its form does not use is 0
(30_encoding.md R124, R125). -/
def Instr.fields : Instr → RegIdx × RegIdx × Half
  | .halt => (0, 0, 0)
  | .nop => (0, 0, 0)
  | .loadi d imm => (d, 0, imm)
  | .mov d s => (d, s, 0)
  | .load d imm => (d, 0, imm)
  | .store d imm => (d, 0, imm)
  | .loadb d imm => (d, 0, imm)
  | .storeb d imm => (d, 0, imm)
  | .ldr d s imm => (d, s, imm)
  | .str d s imm => (d, s, imm)
  | .ldrb d s imm => (d, s, imm)
  | .strb d s imm => (d, s, imm)
  | .add d b => (d, srcField b, srcImm b)
  | .sub d b => (d, srcField b, srcImm b)
  | .adc d b => (d, srcField b, srcImm b)
  | .sbc d b => (d, srcField b, srcImm b)
  | .mul d b => (d, srcField b, srcImm b)
  | .div d b => (d, srcField b, srcImm b)
  | .mod d b => (d, srcField b, srcImm b)
  | .cmp d b => (d, srcField b, srcImm b)
  | .and d b => (d, srcField b, srcImm b)
  | .or d b => (d, srcField b, srcImm b)
  | .xor d b => (d, srcField b, srcImm b)
  | .not d => (d, 0, 0)
  | .shl d b => (d, srcField b, srcImm b)
  | .shr d b => (d, srcField b, srcImm b)
  | .rol d b => (d, srcField b, srcImm b)
  | .ror d b => (d, srcField b, srcImm b)
  | .jmp imm => (0, 0, imm)
  | .jz imm => (0, 0, imm)
  | .jnz imm => (0, 0, imm)
  | .jn imm => (0, 0, imm)
  | .jnn imm => (0, 0, imm)
  | .jc imm => (0, 0, imm)
  | .jnc imm => (0, 0, imm)
  | .jo imm => (0, 0, imm)
  | .jno imm => (0, 0, imm)
  | .call imm => (0, 0, imm)
  | .ret => (0, 0, 0)
  | .push d => (d, 0, 0)
  | .pop d => (d, 0, 0)
  | .int imm => (0, 0, imm)
  | .iret => (0, 0, 0)
  | .syscall => (0, 0, 0)
  | .yield => (0, 0, 0)
  | .fpush d => (d, 0, 0)
  | .fpop d => (d, 0, 0)
  | .fadd => (0, 0, 0)
  | .fsub => (0, 0, 0)
  | .fmul => (0, 0, 0)
  | .fdiv => (0, 0, 0)

/-- The encoder: the word of an instruction, none where OPCODE_MAP does not spell its operation. -/
def encode (m : OpcodeMap) (i : Instr) : Option Word :=
  match m.byteOf i.opcode with
  | none => none
  | some b => some (packFields b i.fields.1 i.fields.2.1 i.fields.2.2)

/-- The four bytes of a word as they lie in memory, lowest address first (20_memory.md R71). -/
def bytesOfWord (w : Word) : List Byte :=
  [byteOfWord w 0, byteOfWord w 1, byteOfWord w 2, byteOfWord w 3]

/-- The encoder on bytes. -/
def encodeBytes (m : OpcodeMap) (i : Instr) : Option (List Byte) :=
  (encode m i).map bytesOfWord

/-- What the decoder reads, under the default parameters, from an instruction whose bits are `w`,
numbered as spec/opcode_table.json numbers them. -/
def decodeTableWord (nbits w : Nat) : Option Instr :=
  match decode OpcodeMap.default true (bytesOfWord (BitVec.ofNat 32 (w % 2 ^ nbits))) with
  | .ok (i, _) => some i
  | .error _ => none

end Sys2Proof
end

