-- ==== Sys2Proof/Machine/Defaults.lean ====
section
/-!
DEFINITION. The parameter values `State.reset` starts from: the defaults of 00_scope.md R9 and, for
the parameters R9 leaves OPEN without a default, values of this model (log entry 2).
-/

namespace Sys2Proof

/-- The default parameters. From R9: PAGE_SIZE 4096, the numbering of opcode_table.json,
ADMIT_DECIDED true, IMM_ALU_EXT sext, ADD_SUB_SET_CV false, DIV_MODE unsigned, FPCFG binary64,
PERM_READ 0, PERM_WRITE 1, TIME_UNIT ms. DESIGN CHOICE, unsafe (log entry 2): MEM_INIT_SIZE,
PHYS_POOL_BASE, CACHE_CAPACITY, QUANTUM, STACK_SIZE, FB_WIDTH, FB_HEIGHT, FB_COLOR. -/
def Params.default : Params where
  memInitSize := 65536
  pageSize := 4096
  physPoolBase := 8
  cacheCapacity := 16
  quantum := 100
  stackSize := 1024
  fbWidth := 320
  fbHeight := 200
  fbColor := 32
  timeUnit := 1000
  opcodeMap := OpcodeMap.default
  admitDecided := true
  immAluExt := .sext
  addSubSetCV := false
  divMode := .unsigned
  fpCfg := .binary64
  permRead := 0
  permWrite := 1

/-- The limits R9 states for the parameters: a positive memory of at most 2^32 bytes, a page size
that is a power of two and a multiple of 4, at least one cache entry and one instruction a slice;
and an OPCODE_MAP that spells no two operations alike. -/
abbrev Params.Valid (p : Params) : Prop :=
  0 < p.memInitSize ∧ p.memInitSize ≤ 2 ^ 32
  ∧ p.pageSize = 2 ^ p.pageSize.log2 ∧ p.pageSize % 4 = 0 ∧ 0 < p.pageSize
  ∧ 1 ≤ p.cacheCapacity ∧ 1 ≤ p.quantum ∧ p.opcodeMap.Unambiguous

end Sys2Proof
end

