-- ==== Sys2Proof/Machine/State.lean ====
section
/-!
DEFINITION. The state of the SimpleOS CORE (10_state.md R20 to R48), the reasons a step can stop,
and the state after reset.
-/

namespace Sys2Proof.Machine

open Sys2Proof

/-- What an access is for (60_exceptions.md R400). -/
inductive AccessKind where
  | fetch
  | load
  | store
  deriving DecidableEq, Repr, Inhabited

/-- A fault the hardware records, with its recorded values (60_exceptions.md R400). Taking one is a
controlled halt, a NEXT state of the machine (R403). -/
inductive FaultRec where
  | outOfRangeAccess (pc addr : Word) (kind : AccessKind)
  | protectionViolation (pc addr : Word) (kind : AccessKind)
  | misalignedAccess (pc addr : Word) (kind : AccessKind)
  | outOfMemory (pc addr : Word) (kind : AccessKind)
  | registerIndexOutOfRange (index : Nat)
  | unimplementedOpcode (pc word : Word)
  | stackOverflow (pc : Word)
  | stackUnderflow (pc : Word)
  | fpError (pc : Word)
  deriving DecidableEq, Repr, Inhabited

/-- The request of a SYSCALL (10_state.md R62, 44_system.md R290). -/
structure SyscallRequest where
  num : Word
  a1 : Word
  a2 : Word
  a3 : Word
  deriving DecidableEq, Repr, Inhabited

/-- Why the engine waits for the driver (10_state.md R34). -/
inductive Suspend where
  | none
  | yield
  | syscall (req : SyscallRequest)
  | quota
  deriving DecidableEq, Repr, Inhabited

/-- Which loop the host has started: none yet (70_reset_and_hazards.md R501), `run` (R502, 30_encoding.md
R141) or the driver loop (R503, 60_exceptions.md R447). The model's own field (log entry 3). -/
inductive Driver where
  | off
  | run
  | sched
  deriving DecidableEq, Repr, Inhabited

/-- A protected region: base, length and permission bits (10_state.md R39). -/
structure Region where
  base : Nat
  length : Nat
  perm : Nat
  deriving DecidableEq, Repr, Inhabited

/-- An MMIO registration: a range and the handler it is dispatched to (10_state.md R41). -/
structure MmioRange where
  base : Nat
  length : Nat
  handler : Nat
  deriving DecidableEq, Repr, Inhabited

/-- A thread's saved context (60_exceptions.md R440). Its stack pointer is the saved R14
(90_conflicts.md C2). -/
structure Context where
  regs : Vector Word 16
  flags : Word
  pc : Word
  fst : List Fp
  deriving DecidableEq, Repr

/-- The state of a thread (10_state.md R44). -/
inductive ThreadState where
  | ready
  | running
  | blocked
  | terminated
  deriving DecidableEq, Repr, Inhabited

/-- A thread record (10_state.md R44); its id is its key in the thread map. -/
structure Thread where
  ctx : Context
  state : ThreadState
  /-- Recorded at creation, without effect (60_exceptions.md R448). -/
  priority : Nat
  /-- Instructions run in the current dispatch. -/
  slice : Nat
  /-- Instructions run in total. -/
  instret : Nat
  /-- The wake deadline, set when the thread blocks. -/
  wake : Option Nat
  deriving DecidableEq, Repr

/-- The whole CORE state (10_state.md R20), and below it the model's own fields. Maps are lists of
key and value with strictly rising keys. -/
structure State where
  /-- R0 to R15 (R21). -/
  regs : Vector Word 16
  /-- The address of the instruction being executed (R26). -/
  pc : Word
  /-- The flag word (R27). -/
  flags : Word
  /-- The occupied FP slots, the top first; fdepth is its length (R31). -/
  fst : List Fp
  /-- The engine has stopped (R33). -/
  halted : Bool
  /-- The fault that stopped it, if one did (R33). -/
  fault : Option FaultRec
  /-- Why the engine waits (R34). -/
  suspend : Suspend
  /-- The interrupt vector table: vector number to handler address (R35). -/
  ivt : List (Nat × Word)
  /-- The backing bytes that are not 0, by physical address (R37); an unlisted byte reads 0 (R48, R100). -/
  mem : List Host.Cell
  /-- The size of the backing store in bytes (R37). -/
  memSize : Nat
  /-- Page translation is on (R38). -/
  pagingEnabled : Bool
  /-- Virtual to physical page number (R38). -/
  pageTable : List (Nat × Nat)
  /-- The physical page the next demand allocation takes (R38). -/
  nextFreePPage : Nat
  /-- The protected regions, in registration order (R39). -/
  regions : List Region
  /-- The diagnostic cache: presented address to last value (R40). -/
  cache : List (Nat × Word)
  cacheHits : Nat
  cacheMisses : Nat
  /-- The MMIO registrations, in registration order (R41). -/
  mmio : List MmioRange
  /-- The pixels that are not 0, by y * FB_WIDTH + x (R42). -/
  framebuffer : List (Nat × Nat)
  /-- Thread id to record (R43). -/
  threads : List (Nat × Thread)
  /-- The ready queue, its head first (R43). -/
  readyQueue : List Nat
  /-- The running thread (R43). -/
  running : Option Nat
  /-- The id the next created thread gets (R43). -/
  nextId : Nat
  /-- Instructions executed under any thread (R45). -/
  totalInstret : Nat
  /-- MODEL: the parameters; no step writes them (log entry 1). -/
  params : Params
  /-- MODEL: the loop the host has started (log entry 3). -/
  driver : Driver
  /-- MODEL: the kernel has answered the request in `suspend`, and its response yielded, blocked or
  terminated the caller (log entry 25). -/
  answered : Bool
  /-- MODEL: the last reading of the wall clock (log entry 4). -/
  now : Nat
  /-- MODEL: how many free values have been drawn (log entry 5). -/
  draws : Nat
  /-- MODEL: the transactions sent to MMIO handlers, newest first (log entry 6). -/
  deviceLog : List DeviceRequest
  /-- MODEL: the id and instret of every terminated thread, newest first (log entry 7). -/
  retired : List (Nat × Nat)
  deriving DecidableEq, Repr

/-- Why a STEP stops. No instruction's meaning answers one of these: a fault of the hardware is a
controlled halt, a next state (60_exceptions.md R403). -/
inductive Fault where
  /-- Raised by `step` while the host has started neither `run` nor the driver loop: after reset the
  engine executes nothing (70_reset_and_hazards.md R501). Safe. -/
  | notStarted
  /-- Raised by `step` under `run` once the engine is halted: it takes no further step
  (10_state.md R33, 93_implementation_defined.md I27 'stuck'). Safe. -/
  | engineHalted
  /-- Raised by `step` under `run` once the kernel's response has yielded, blocked or terminated the
  thread that made the SYSCALL: `run` returns at once and the engine takes no step until the driver
  clears suspend (30_encoding.md R141, 93_implementation_defined.md I28 'stuck'; log entry 25). Safe. -/
  | engineSuspended
  /-- Raised by `step` under the driver loop when no thread is ready and none is blocked: the loop
  stops (60_exceptions.md R447). Safe. -/
  | nothingToRun
  deriving DecidableEq, Repr

/-- Why an instruction has no meaning in the model. -/
inductive Refusal where
  /-- Raised by `exec` for an instruction of the table that is not modelled; no arm does. Safe. -/
  | notModelled (mnemonic : String)
  deriving DecidableEq, Repr

/-- The state after reset under the parameters `p` (10_state.md R48, 70_reset_and_hazards.md R500,
R501). -/
def State.resetWith (p : Params) : State where
  regs := Vector.replicate 16 0
  pc := 0
  flags := 0
  fst := []
  halted := false
  fault := none
  suspend := .none
  ivt := []
  mem := []
  memSize := p.memInitSize
  pagingEnabled := false
  pageTable := []
  nextFreePPage := p.physPoolBase
  regions := []
  cache := []
  cacheHits := 0
  cacheMisses := 0
  mmio := []
  framebuffer := []
  threads := []
  readyQueue := []
  running := none
  nextId := 0
  totalInstret := 0
  params := p
  driver := .off
  answered := false
  now := 0
  draws := 0
  deviceLog := []
  retired := []

/-- The machine right after reset, under the default parameters. -/
def State.reset : State :=
  State.resetWith Params.default

end Sys2Proof.Machine
end

