-- ==== Sys2Proof/Machine/Flags.lean ====
section
/-!
DEFINITION. The flag word and its named bits (10_state.md R27, R28), and every flag computation the
spec gives (00_scope.md R15).
-/

namespace Sys2Proof.Machine

open Sys2Proof

/-- The named bits of the flag word (10_state.md R27). -/
inductive Flag where
  | z
  | n
  | c
  | v
  | ie
  | d
  | a
  deriving DecidableEq, Repr

/-- The bit position of a named flag (10_state.md R27). -/
def flagPos : Flag → Nat
  | .z => 0
  | .n => 1
  | .c => 2
  | .v => 3
  | .ie => 4
  | .d => 5
  | .a => 6

/-- Read a named bit of a flag word. -/
def getFlag (f : Word) (b : Flag) : Bool :=
  f.getLsbD (flagPos b)

/-- Write a named bit of a flag word, leaving every other bit. -/
def setFlag (f : Word) (b : Flag) (v : Bool) : Word :=
  (f &&& ~~~(1#32 <<< flagPos b)) ||| ((BitVec.ofBool v).setWidth 32 <<< flagPos b)

/-- `setZN(r)` (00_scope.md R15): Z is "r is 0", N is bit 31 of r. -/
def setZN (f r : Word) : Word :=
  setFlag (setFlag f .z (r == 0)) .n r.msb

/-- Write C and V. -/
def setCV (f : Word) (c v : Bool) : Word :=
  setFlag (setFlag f .c c) .v v

/-- A result with its carry (or borrow) and overflow. -/
structure ArithResult where
  r : Word
  c : Bool
  v : Bool
  deriving DecidableEq, Repr

/-- `AddC(a, b, cin)` (00_scope.md R15): the unbounded sum, its low 32 bits, the carry out, and
overflow when a and b have one sign and the result the other. -/
def addC (a b : Word) (cin : Bool) : ArithResult :=
  let full := a.toNat + b.toNat + cin.toNat
  let r := BitVec.ofNat 32 full
  { r := r, c := decide (2 ^ 32 ≤ full), v := (~~~(a ^^^ b) &&& (a ^^^ r)).msb }

/-- `SubB(a, b, bin)` (00_scope.md R15): the difference modulo 2^32, the borrow, and overflow when a
and b differ in sign and so do a and the result. -/
def subB (a b : Word) (bin : Bool) : ArithResult :=
  let r := BitVec.ofInt 32 ((a.toNat : Int) - b.toNat - bin.toNat)
  { r := r, c := decide (a.toNat < b.toNat + bin.toNat), v := ((a ^^^ b) &&& (a ^^^ r)).msb }

/-- The flags of an instruction that writes Z and N from `r` and keeps C and V (42_integer_alu.md R218). -/
def flagsZN (f r : Word) : Word :=
  setZN f r

/-- The flags of an instruction that writes Z, N, C and V from an add or subtract (42_integer_alu.md
R202, R203, R207). -/
def flagsZNCV (f : Word) (x : ArithResult) : Word :=
  setCV (setZN f x.r) x.c x.v

/-- The flags of ADD and SUB: C and V only when ADD_SUB_SET_CV (42_integer_alu.md R200, R201). -/
def flagsAddSub (f : Word) (setsCV : Bool) (x : ArithResult) : Word :=
  if setsCV then flagsZNCV f x else flagsZN f x.r

/-- The flags of DIV and MOD: Z and N from the result, V exactly when the divisor is 0, C kept
(42_integer_alu.md R205, R206). -/
def flagsDiv (f r : Word) (byZero : Bool) : Word :=
  setFlag (setZN f r) .v byZero

end Sys2Proof.Machine
end

