-- ==== Sys2Proof/Machine/Ops.lean ====
section
/-!
DEFINITION. The named operations over State: registers, bytes of memory, page translation, the
access pipeline (20_memory.md R75, R76), the integer stack (00_scope.md R14), the end of an
instruction and its counting (30_encoding.md R140, 60_exceptions.md R446), the controlled halt that
every fault takes (60_exceptions.md R403), and trap entry and return (R411, R412).
-/

namespace Sys2Proof.Machine

open Sys2Proof

/-! Registers. -/

/-- `x[i]` (00_scope.md R12, 10_state.md R21). -/
def State.readReg (s : State) (i : RegIdx) : Word :=
  s.regs[i.toNat]'i.isLt

/-- `x[i] <- v` (00_scope.md R12, 10_state.md R21). -/
def State.writeReg (s : State) (i : RegIdx) (v : Word) : State :=
  { s with regs := s.regs.set i.toNat v i.isLt }

/-- R14, the stack pointer by convention (10_state.md R22). -/
def spIndex : RegIdx := 14#4

/-- The flag word replaced as a whole. -/
def State.setFlags (s : State) (f : Word) : State :=
  { s with flags := f }

/-- The number of occupied FP slots (10_state.md R31). -/
def State.fdepth (s : State) : Nat :=
  s.fst.length

/-! Physical bytes. -/

/-- Memory in its one form: addresses rise strictly and no byte equal to 0, which an unlisted
address reads as, is listed. -/
abbrev Memory.Wf (m : List Host.Cell) : Prop :=
  Assoc.Rising m ∧ ∀ c ∈ m, c.2 ≠ 0

/-- The byte at a physical address: 0 where none is listed (10_state.md R48, 20_memory.md R100). -/
def memByte (m : List Host.Cell) (p : Nat) : Byte :=
  (Assoc.get m p).getD 0

/-- Write a byte at a physical address, keeping the one form. -/
def memSetByte (m : List Host.Cell) (p : Nat) (b : Byte) : List Host.Cell :=
  if b = 0 then Assoc.erase m p else Assoc.put m p b

/-- Set `size` bytes from `lo` to 0. -/
def memZero (m : List Host.Cell) (lo size : Nat) : List Host.Cell :=
  Assoc.keep m fun p => !(decide (lo ≤ p) && decide (p < lo + size))

/-- The `w.bytes`-byte value at a physical address, little-endian, zero-extended (20_memory.md R72). -/
def memRead (m : List Host.Cell) (p : Nat) : Width → Word
  | .byte => (memByte m p).setWidth 32
  | .word => wordOfBytes (memByte m p) (memByte m (p + 1)) (memByte m (p + 2)) (memByte m (p + 3))

/-- The low `w.bytes` bytes of `v` written at a physical address, little-endian (20_memory.md R72). -/
def memWrite (m : List Host.Cell) (p : Nat) (w : Width) (v : Word) : List Host.Cell :=
  match w with
  | .byte => memSetByte m p (byteOfWord v 0)
  | .word =>
    memSetByte (memSetByte (memSetByte (memSetByte m p (byteOfWord v 0)) (p + 1) (byteOfWord v 1))
      (p + 2) (byteOfWord v 2)) (p + 3) (byteOfWord v 3)

/-- The byte of the backing store at a physical address. -/
def State.byteAt (s : State) (p : Nat) : Byte :=
  memByte s.mem p

/-! The outcome of an access, and what it costs. -/

/-- The end of an access or of a part of an instruction: a value and the state after it, or a fault
and the state in which it was raised (60_exceptions.md R401). -/
inductive Res (α : Type) where
  | ok (v : α) (s : State)
  | trap (f : FaultRec) (s : State)

/-- Alignment (20_memory.md R74): a word access needs an address that is a multiple of 4. -/
def misaligned (a : Word) : Width → Bool
  | .byte => false
  | .word => a.toNat % 4 != 0

/-- The region covers the byte address (10_state.md R39). -/
def Region.covers (g : Region) (b : Nat) : Bool :=
  decide (g.base ≤ b) && decide (b < g.base + g.length)

/-- The permission bit an access of this kind needs (20_memory.md R80). -/
def State.neededBit (s : State) : AccessKind → Nat
  | .fetch => s.params.permRead
  | .load => s.params.permRead
  | .store => s.params.permWrite

/-- Every region that covers a byte of the access grants it (20_memory.md R75 step 2, R80). -/
def State.permits (s : State) (a : Word) (w : Width) (k : AccessKind) : Bool :=
  (List.range w.bytes).all fun i =>
    s.regions.all fun g => !g.covers (a.toNat + i) || g.perm.testBit (s.neededBit k)

/-- The MMIO range holds the byte address (20_memory.md R91). -/
def MmioRange.holds (h : MmioRange) (b : Nat) : Bool :=
  decide (h.base ≤ b) && decide (b < h.base + h.length)

/-- The registration an access is dispatched to: the earliest one that holds its start address
(20_memory.md R91). -/
def State.mmioAt (s : State) (a : Word) : Option MmioRange :=
  s.mmio.find? fun h => h.holds a.toNat

/-- A demand allocation (20_memory.md R86): the next page is zeroed, mapped and taken. -/
def State.allocPage (s : State) (vpn : Nat) : State :=
  { s with
    mem := memZero s.mem (s.nextFreePPage * s.params.pageSize) s.params.pageSize
    pageTable := Assoc.put s.pageTable vpn s.nextFreePPage
    nextFreePPage := s.nextFreePPage + 1 }

/-- `Translate(a)` (20_memory.md R84 to R87): the physical address and the state after any demand
allocation; none is OutOfMemory. -/
def State.translate (s : State) (a : Word) : Option (Nat × State) :=
  if s.pagingEnabled then
    let vpn := a.toNat / s.params.pageSize
    let off := a.toNat % s.params.pageSize
    match Assoc.get s.pageTable vpn with
    | some ppn => some (ppn * s.params.pageSize + off, s)
    | none =>
      if s.memSize < (s.nextFreePPage + 1) * s.params.pageSize then none
      else some (s.nextFreePPage * s.params.pageSize + off, s.allocPage vpn)
  else some (a.toNat, s)

/-- The cache entries left before an insertion: one of the model's choice is evicted when
CACHE_CAPACITY are held (20_memory.md R94, R97). -/
def State.cacheRoom (s : State) : List (Nat × Word) :=
  if s.params.cacheCapacity ≤ s.cache.length then
    s.cache.eraseIdx (Config.evictChoice s.draws % s.cache.length)
  else s.cache

/-- The cache holds an entry for the presented address (20_memory.md R94). -/
def State.cacheHolds (s : State) (a : Word) : Bool :=
  (Assoc.get s.cache a.toNat).isSome

/-- `CacheRead(a, v)` (20_memory.md R94): a hit or a miss is counted and the entry holds `v`; a miss
may evict, by a draw. -/
def State.cacheRead (s : State) (a : Word) (v : Word) : State :=
  { s with
    cache := Assoc.put (if s.cacheHolds a then s.cache else s.cacheRoom) a.toNat v
    cacheHits := s.cacheHits + (s.cacheHolds a).toNat
    cacheMisses := s.cacheMisses + (!s.cacheHolds a).toNat
    draws := s.draws + (!s.cacheHolds a).toNat }

/-- `CacheInvalidate(a)` (20_memory.md R96). -/
def State.cacheInvalidate (s : State) (a : Word) : State :=
  { s with cache := Assoc.erase s.cache a.toNat }

/-- An answer cut to the width of its access (20_memory.md R92). -/
def cutTo (v : Word) : Width → Word
  | .byte => (byteOfWord v 0).setWidth 32
  | .word => v

/-- The request of an MMIO access at the address `a`, relative to the handler's base
(10_state.md R63, 20_memory.md R91). -/
def MmioRange.request (h : MmioRange) (a : Word) (w : Width) (v : Option Word) : DeviceRequest :=
  { handler := h.handler, offset := a.toNat - h.base, width := w, value := v }

/-- A transaction sent to a handler: recorded, and one draw taken (20_memory.md R92). -/
def State.sendDevice (s : State) (q : DeviceRequest) : State :=
  { s with deviceLog := q :: s.deviceLog, draws := s.draws + 1 }

/-- `MMIORead` (20_memory.md R92): the answer is a free value of the access's width. -/
def State.mmioRead (s : State) (h : MmioRange) (a : Word) (w : Width) : Res Word :=
  .ok (cutTo (Config.mmioAnswer s.draws (h.request a w none)) w) (s.sendDevice (h.request a w none))

/-- `MMIOWrite` (20_memory.md R92): the low bytes of `v` are sent. -/
def State.mmioWrite (s : State) (h : MmioRange) (a : Word) (w : Width) (v : Word) : State :=
  s.sendDevice (h.request a w (some (cutTo v w)))

/-- Steps 4 to 8 of `MemRead` (20_memory.md R75): translation, bounds, the bytes, the cache. -/
def State.readPlain (s : State) (a : Word) (w : Width) (k : AccessKind) : Res Word :=
  match s.translate a with
  | none => .trap (.outOfMemory s.pc a k) s
  | some (p, s1) =>
    if s1.memSize < p + w.bytes then .trap (.outOfRangeAccess s.pc a k) s1
    else .ok (memRead s1.mem p w) (s1.cacheRead a (memRead s1.mem p w))

/-- `MemRead(a, n, kind)` (20_memory.md R75). -/
def State.load (s : State) (a : Word) (w : Width) (k : AccessKind) : Res Word :=
  if misaligned a w then .trap (.misalignedAccess s.pc a k) s
  else if s.permits a w k then
    match s.mmioAt a with
    | some h => s.mmioRead h a w
    | none => s.readPlain a w k
  else .trap (.protectionViolation s.pc a k) s

/-- The bytes of a store in place (20_memory.md R76 steps 6 and 7). -/
def State.writePlain (s : State) (a : Word) (p : Nat) (w : Width) (v : Word) : State :=
  { s with mem := memWrite s.mem p w v }.cacheInvalidate a

/-- `MemWrite(a, n, v)` (20_memory.md R76). -/
def State.store (s : State) (a : Word) (w : Width) (v : Word) : Res Unit :=
  if misaligned a w then .trap (.misalignedAccess s.pc a .store) s
  else if s.permits a w .store then
    match s.mmioAt a with
    | some h => .ok () (s.mmioWrite h a w v)
    | none =>
      match s.translate a with
      | none => .trap (.outOfMemory s.pc a .store) s
      | some (p, s1) =>
        if s1.memSize < p + w.bytes then .trap (.outOfRangeAccess s.pc a .store) s1
        else .ok () (s1.writePlain a p w v)
  else .trap (.protectionViolation s.pc a .store) s

/-! The integer stack (00_scope.md R14). -/

/-- `Push32(v)`: R14 is written only after the store succeeded. -/
def State.push32 (s : State) (v : Word) : Res Unit :=
  match s.store (s.readReg spIndex - 4#32) .word v with
  | .trap f s1 => .trap f s1
  | .ok _ s1 => .ok () (s1.writeReg spIndex (s.readReg spIndex - 4#32))

/-- `Pop32()`: R14 is written only after the load succeeded. -/
def State.pop32 (s : State) : Res Word :=
  match s.load (s.readReg spIndex) .word .load with
  | .trap f s1 => .trap f s1
  | .ok v s1 => .ok v (s1.writeReg spIndex (s.readReg spIndex + 4#32))

/-! The end of an instruction. -/

/-- The running thread's record, if a thread is running. -/
def State.runningThread (s : State) : Option Thread :=
  s.running.bind (Assoc.get s.threads)

/-- The thread map with the running thread's slice and instret one greater (60_exceptions.md R446). -/
def State.countedThreads (s : State) : List (Nat × Thread) :=
  match s.running, s.runningThread with
  | some id, some t => Assoc.put s.threads id { t with slice := t.slice + 1, instret := t.instret + 1 }
  | _, _ => s.threads

/-- `CountInstruction()` (60_exceptions.md R446): one more for the running thread and in total; an
instruction run under no thread is not counted (10_state.md R45; log entry 8). -/
def State.countInstruction (s : State) : State :=
  { s with
    threads := s.countedThreads
    totalInstret := s.totalInstret + s.runningThread.isSome.toNat }

/-- The end of an instruction that completed: pc and count (30_encoding.md R140). -/
def State.complete (s : State) (nextPc : Word) : State :=
  { s with pc := nextPc }.countInstruction

/-- `HaltWith(f)` (60_exceptions.md R402, R403): the engine halts with the fault recorded; registers,
flags, FP stack and pc are those of `pre`, the state before the instruction. -/
def State.haltWith (now pre : State) (f : FaultRec) : State :=
  { now with
    regs := pre.regs
    flags := pre.flags
    fst := pre.fst
    pc := pre.pc
    halted := true
    fault := some f }

/-- An instruction's rule up to its last access, then `k`; a fault on the way is a controlled halt
(30_encoding.md R140). `pre` is the state before the instruction. -/
def Res.orHalt {α : Type} (r : Res α) (pre : State) (k : α → State → Host.Outcome State Fault Refusal) :
    Host.Outcome State Fault Refusal :=
  match r with
  | .ok v s => k v s
  | .trap f s => .next (s.haltWith pre f)

/-- The address of the next instruction (10_state.md R26, 30_encoding.md R140). -/
def State.nextPc (s : State) : Word :=
  s.pc + 4#32

/-! Trap entry and return. -/

/-- The address INT n goes to: its handler when one is installed, else the return address
(44_system.md R282). -/
def State.trapTarget (s : State) (n : Half) : Word :=
  (Assoc.get s.ivt n.toNat).getD s.nextPc

/-- Trap entry through INT (44_system.md R282, 60_exceptions.md R411): the return address and then the
flag word are pushed, IE is cleared, and the pc goes to the handler. -/
def State.trapEnter (s : State) (n : Half) : Host.Outcome State Fault Refusal :=
  (s.push32 s.nextPc).orHalt s fun _ s1 =>
    (s1.push32 s.flags).orHalt s fun _ s2 =>
      .next ((s2.setFlags (setFlag s.flags .ie false)).complete (s.trapTarget n))

/-- Trap return through IRET (44_system.md R283, 60_exceptions.md R412): the flag word and then the
pc are popped, and IE is set. -/
def State.trapReturn (s : State) : Host.Outcome State Fault Refusal :=
  s.pop32.orHalt s fun f s1 =>
    s1.pop32.orHalt s fun t s2 =>
      .next ((s2.setFlags (setFlag f .ie true)).complete t)

end Sys2Proof.Machine
end

