-- ==== Sys2Proof/Machine/Operands.lean ====
section
/-!
DEFINITION. The operand forms (30_encoding.md R124 to R131, 41_load_store.md R169): what each form's
fields stand for.
-/

namespace Sys2Proof.Machine

open Sys2Proof

/-- `sext_32` (00_scope.md R11). -/
def sext32 (v : Half) : Word :=
  v.signExtend 32

/-- `zext_32` (00_scope.md R11). -/
def zext32 (v : Half) : Word :=
  v.setWidth 32

/-- `ImmX(imm)` (30_encoding.md R129). -/
def immX : ImmExt → Half → Word
  | .sext, v => sext32 v
  | .zext, v => zext32 v

/-- The second operand of the RX form (30_encoding.md R126, 42_integer_alu.md R196). -/
def State.operand (s : State) : Src → Word
  | .reg r => s.readReg r
  | .imm v => immX s.params.immAluExt v

/-- The absolute address of the RA and A forms (30_encoding.md R128). -/
def absAddr (imm : Half) : Word :=
  zext32 imm

/-- The based address of the RB form (20_memory.md R79, 41_load_store.md R169). -/
def State.basedAddr (s : State) (b : RegIdx) (imm : Half) : Word :=
  s.readReg b + zext32 imm

/-- A shift or rotate amount: the operand modulo 32 (30_encoding.md R130). -/
def shiftAmount (b : Word) : Nat :=
  b.toNat % 32

end Sys2Proof.Machine
end

