-- ==== Sys2Proof/Machine/ControlTransfer.lean ====
section
/-!
DEFINITION. Control transfer (43_control_transfer.md). Targets are absolute and are not checked when
the transfer executes (R249); no instruction here writes a flag.
-/

namespace Sys2Proof.Machine

open Sys2Proof

/-- A conditional jump (43_control_transfer.md R251). -/
def State.jumpIf (s : State) (taken : Bool) (imm : Half) : Host.Outcome State Fault Refusal :=
  .next (s.complete (if taken then absAddr imm else s.nextPc))

/-- JMP (43_control_transfer.md R250). -/
def execJmp (imm : Half) (s : State) : Host.Outcome State Fault Refusal :=
  .next (s.complete (absAddr imm))

/-- JZ (43_control_transfer.md R252). -/
def execJz (imm : Half) (s : State) : Host.Outcome State Fault Refusal :=
  s.jumpIf (getFlag s.flags .z) imm

/-- JNZ (43_control_transfer.md R253). -/
def execJnz (imm : Half) (s : State) : Host.Outcome State Fault Refusal :=
  s.jumpIf (!getFlag s.flags .z) imm

/-- JN (43_control_transfer.md R254). -/
def execJn (imm : Half) (s : State) : Host.Outcome State Fault Refusal :=
  s.jumpIf (getFlag s.flags .n) imm

/-- JNN (43_control_transfer.md R255). -/
def execJnn (imm : Half) (s : State) : Host.Outcome State Fault Refusal :=
  s.jumpIf (!getFlag s.flags .n) imm

/-- JC (43_control_transfer.md R256). -/
def execJc (imm : Half) (s : State) : Host.Outcome State Fault Refusal :=
  s.jumpIf (getFlag s.flags .c) imm

/-- JNC (43_control_transfer.md R257). -/
def execJnc (imm : Half) (s : State) : Host.Outcome State Fault Refusal :=
  s.jumpIf (!getFlag s.flags .c) imm

/-- JO (43_control_transfer.md R258). -/
def execJo (imm : Half) (s : State) : Host.Outcome State Fault Refusal :=
  s.jumpIf (getFlag s.flags .v) imm

/-- JNO (43_control_transfer.md R259). -/
def execJno (imm : Half) (s : State) : Host.Outcome State Fault Refusal :=
  s.jumpIf (!getFlag s.flags .v) imm

/-- CALL (43_control_transfer.md R260). -/
def execCall (imm : Half) (s : State) : Host.Outcome State Fault Refusal :=
  (s.push32 s.nextPc).orHalt s fun _ s1 => .next (s1.complete (absAddr imm))

/-- RET (43_control_transfer.md R261). -/
def execRet (s : State) : Host.Outcome State Fault Refusal :=
  s.pop32.orHalt s fun t s1 => .next (s1.complete t)

end Sys2Proof.Machine
end

