-- ==== Sys2Proof/Machine/DataMovement.lean ====
section
/-!
DEFINITION. Register data movement (40_data_movement.md): LOADI and MOV. Neither writes a flag.
-/

namespace Sys2Proof.Machine

open Sys2Proof

/-- LOADI (40_data_movement.md R150). -/
def execLoadi (d : RegIdx) (imm : Half) (s : State) : Host.Outcome State Fault Refusal :=
  .next ((s.writeReg d (sext32 imm)).complete s.nextPc)

/-- MOV (40_data_movement.md R151). -/
def execMov (d r : RegIdx) (s : State) : Host.Outcome State Fault Refusal :=
  .next ((s.writeReg d (s.readReg r)).complete s.nextPc)

end Sys2Proof.Machine
end

