-- ==== Sys2Proof/Machine/Float.lean ====
section
/-!
DEFINITION. The numerics of the FP stack (45_fp_stack.md R311): IEEE 754 binary64 with round to
nearest even by exact arithmetic on integers and one rounding, and the dispatch on FPCFG.
-/

namespace Sys2Proof.Machine

open Sys2Proof

/-- The least exponent of a binary64 significand in units of the last place. -/
def fpMinExp : Int := -1074

/-- The greatest exponent of a binary64 significand in units of the last place. -/
def fpMaxExp : Int := 971

/-- A zero with its sign. -/
def fpZero (neg : Bool) : Fp :=
  .fin neg 0 fpMinExp

/-- The nearest integer to n / d, ties to even. -/
def roundHalfEven (n d : Nat) : Nat :=
  let k := n / d
  let twice := 2 * (n % d)
  if d < twice ∨ (twice = d ∧ k % 2 = 1) then k + 1 else k

/-- 2^e for a nonnegative e, and 1 for a negative one. -/
def pow2Up (e : Int) : Nat :=
  2 ^ e.toNat

/-- The exponent of the last place of the binary64 numbers nearest num / den * 2^e, for positive num
and den: the quotient has 53 significant bits there, or is subnormal. -/
def fpUlpExp (num den : Nat) (e : Int) : Int :=
  let q := (num.log2 : Int) - den.log2 + e - 53
  let k := num * pow2Up (e - q) / (den * pow2Up (q - e))
  max (if k < 2 ^ 53 then q else q + 1) fpMinExp

/-- The binary64 number nearest num / den * 2^e, ties to even (45_fp_stack.md R311): infinity where
the rounded significand passes the greatest exponent. -/
def fpRound (neg : Bool) (num den : Nat) (e : Int) : Fp :=
  if num = 0 then fpZero neg
  else
    let q := fpUlpExp num den e
    let m := roundHalfEven (num * pow2Up (e - q)) (den * pow2Up (q - e))
    let m' := if m = 2 ^ 53 then 2 ^ 52 else m
    let q' := if m = 2 ^ 53 then q + 1 else q
    if fpMaxExp < q' then .inf neg else .fin neg m' q'

/-- The value is one binary64 holds, in its one form: a 53-bit significand with its top bit set, or
any smaller one at the least exponent. -/
def fpCanonical : Fp → Bool
  | .nan => true
  | .inf _ => true
  | .fin _ m e =>
    decide (m < 2 ^ 53) && decide (fpMinExp ≤ e) && decide (e ≤ fpMaxExp)
      && (decide (2 ^ 52 ≤ m) || decide (e = fpMinExp))

/-- The signed significand of a finite value. -/
def fpSigned (neg : Bool) (m : Nat) : Int :=
  if neg then -(m : Int) else m

/-- The value with its sign flipped. -/
def fpNeg : Fp → Fp
  | .nan => .nan
  | .inf n => .inf (!n)
  | .fin n m e => .fin (!n) m e

/-- The exact sum of two finite values, rounded; an exact zero is +0 unless both operands are
negative. -/
def fpAddFin (n1 : Bool) (m1 : Nat) (e1 : Int) (n2 : Bool) (m2 : Nat) (e2 : Int) : Fp :=
  let e := min e1 e2
  let sum := fpSigned n1 m1 * pow2Up (e1 - e) + fpSigned n2 m2 * pow2Up (e2 - e)
  if sum = 0 then fpZero (n1 && n2)
  else fpRound (decide (sum < 0)) sum.natAbs 1 e

/-- binary64 addition (45_fp_stack.md R311). -/
def fp64Add : Fp → Fp → Fp
  | .nan, _ => .nan
  | _, .nan => .nan
  | .inf n1, .inf n2 => if n1 = n2 then .inf n1 else .nan
  | .inf n1, .fin _ _ _ => .inf n1
  | .fin _ _ _, .inf n2 => .inf n2
  | .fin n1 m1 e1, .fin n2 m2 e2 => fpAddFin n1 m1 e1 n2 m2 e2

/-- binary64 subtraction: a plus the negation of b (45_fp_stack.md R311). -/
def fp64Sub (a b : Fp) : Fp :=
  fp64Add a (fpNeg b)

/-- binary64 multiplication (45_fp_stack.md R311). -/
def fp64Mul : Fp → Fp → Fp
  | .nan, _ => .nan
  | _, .nan => .nan
  | .inf n1, .inf n2 => .inf (n1 != n2)
  | .inf n1, .fin n2 m2 _ => if m2 = 0 then .nan else .inf (n1 != n2)
  | .fin n1 m1 _, .inf n2 => if m1 = 0 then .nan else .inf (n1 != n2)
  | .fin n1 m1 e1, .fin n2 m2 e2 => fpRound (n1 != n2) (m1 * m2) 1 (e1 + e2)

/-- binary64 division: no answer when the divisor is a zero (45_fp_stack.md R311). -/
def fp64Div : Fp → Fp → Option Fp
  | .nan, .nan => some .nan
  | .nan, .inf _ => some .nan
  | .nan, .fin _ m2 _ => if m2 = 0 then none else some .nan
  | .inf _, .nan => some .nan
  | .fin _ _ _, .nan => some .nan
  | .inf _, .inf _ => some .nan
  | .inf n1, .fin n2 m2 _ => if m2 = 0 then none else some (.inf (n1 != n2))
  | .fin n1 _ _, .inf n2 => some (fpZero (n1 != n2))
  | .fin n1 m1 e1, .fin n2 m2 e2 =>
    if m2 = 0 then none else some (fpRound (n1 != n2) m1 m2 (e1 - e2))

/-- binary64 of an integer of 32 bits: exact (45_fp_stack.md R311). -/
def fp64FromInt (i : Int) : Fp :=
  fpRound (decide (i < 0)) i.natAbs 1 0

/-- The integer of a binary64 value: truncation toward zero taken modulo 2^32, no answer for NaN and
the infinities (45_fp_stack.md R311). -/
def fp64ToInt : Fp → Option Word
  | .nan => none
  | .inf _ => none
  | .fin neg m e => some (BitVec.ofInt 32 (fpSigned neg (m * pow2Up e / pow2Up (-e))))

/-! The operations of FPCFG (45_fp_stack.md R311): binary64, or the opaque ones of a custom record. -/

/-- `fromInt`. -/
def fpFromInt : FpCfg → Int → Fp
  | .binary64, i => fp64FromInt i
  | .custom n, i => Config.fpFromInt n i

/-- `toInt`. -/
def fpToInt : FpCfg → Fp → Option Word
  | .binary64, v => fp64ToInt v
  | .custom n, v => Config.fpToInt n v

/-- `add`. -/
def fpAdd : FpCfg → Fp → Fp → Fp
  | .binary64, a, b => fp64Add a b
  | .custom n, a, b => Config.fpAdd n a b

/-- `sub`. -/
def fpSub : FpCfg → Fp → Fp → Fp
  | .binary64, a, b => fp64Sub a b
  | .custom n, a, b => Config.fpSub n a b

/-- `mul`. -/
def fpMul : FpCfg → Fp → Fp → Fp
  | .binary64, a, b => fp64Mul a b
  | .custom n, a, b => Config.fpMul n a b

/-- `div`. -/
def fpDiv : FpCfg → Fp → Fp → Option Fp
  | .binary64, a, b => fp64Div a b
  | .custom n, a, b => Config.fpDiv n a b

end Sys2Proof.Machine
end

