-- ==== Sys2Proof/Machine/FpStack.lean ====
section
/-!
DEFINITION. The floating-point register stack (45_fp_stack.md). The stack is the list of its
occupied slots, the top first; no instruction here touches a flag or memory.
-/

namespace Sys2Proof.Machine

open Sys2Proof

/-- The FP stack replaced as a whole. -/
def State.setFst (s : State) (st : List Fp) : State :=
  { s with fst := st }

/-- A fault of an FP instruction: a controlled halt with nothing changed (60_exceptions.md R402). -/
def State.fpFault (s : State) (f : FaultRec) : Host.Outcome State Fault Refusal :=
  .next (s.haltWith s f)

/-- FPUSH (45_fp_stack.md R320): StackOverflow when all 8 slots are occupied (R310). -/
def execFpush (d : RegIdx) (s : State) : Host.Outcome State Fault Refusal :=
  if 8 ≤ s.fdepth then s.fpFault (.stackOverflow s.pc)
  else
    .next ((s.setFst (fpFromInt s.params.fpCfg (s.readReg d).toInt :: s.fst)).complete s.nextPc)

/-- FPOP (45_fp_stack.md R321). -/
def execFpop (d : RegIdx) (s : State) : Host.Outcome State Fault Refusal :=
  match s.fst with
  | [] => s.fpFault (.stackUnderflow s.pc)
  | v :: rest =>
    match fpToInt s.params.fpCfg v with
    | none => s.fpFault (.fpError s.pc)
    | some r => .next (((s.setFst rest).writeReg d r).complete s.nextPc)

/-- An operation on the top two entries: `a` is the entry below the top, `b` the top
(45_fp_stack.md R322 to R325); no answer is FPError. -/
def State.fpBinary (s : State) (op : Fp → Fp → Option Fp) : Host.Outcome State Fault Refusal :=
  match s.fst with
  | b :: a :: rest =>
    match op a b with
    | none => s.fpFault (.fpError s.pc)
    | some q => .next ((s.setFst (q :: rest)).complete s.nextPc)
  | _ => s.fpFault (.stackUnderflow s.pc)

/-- FADD (45_fp_stack.md R322). -/
def execFadd (s : State) : Host.Outcome State Fault Refusal :=
  s.fpBinary fun a b => some (fpAdd s.params.fpCfg a b)

/-- FSUB (45_fp_stack.md R323): the entry below the top minus the top. -/
def execFsub (s : State) : Host.Outcome State Fault Refusal :=
  s.fpBinary fun a b => some (fpSub s.params.fpCfg a b)

/-- FMUL (45_fp_stack.md R324). -/
def execFmul (s : State) : Host.Outcome State Fault Refusal :=
  s.fpBinary fun a b => some (fpMul s.params.fpCfg a b)

/-- FDIV (45_fp_stack.md R325): the entry below the top by the top. -/
def execFdiv (s : State) : Host.Outcome State Fault Refusal :=
  s.fpBinary fun a b => fpDiv s.params.fpCfg a b

end Sys2Proof.Machine
end

