-- ==== Sys2Proof/Machine/IntegerAlu.lean ====
section
/-!
DEFINITION. Integer ALU and flags (42_integer_alu.md). Every instruction reads its operands before it
writes, and none faults.
-/

namespace Sys2Proof.Machine

open Sys2Proof

/-- The common end of an ALU instruction (42_integer_alu.md R196, R197): result, flags, pc. -/
def State.aluDone (s : State) (d : RegIdx) (r f : Word) : Host.Outcome State Fault Refusal :=
  .next (((s.writeReg d r).setFlags f).complete s.nextPc)

/-- The quotient by a divisor that is not 0 (42_integer_alu.md R205). -/
def quotient : DivMode → Word → Word → Word
  | .unsigned, a, b => BitVec.ofNat 32 (a.toNat / b.toNat)
  | .signedTrunc, a, b => BitVec.ofInt 32 (Int.tdiv a.toInt b.toInt)
  | .signedFloor, a, b => BitVec.ofInt 32 (Int.fdiv a.toInt b.toInt)

/-- The remainder by a divisor that is not 0 (42_integer_alu.md R206). -/
def remainder : DivMode → Word → Word → Word
  | .unsigned, a, b => BitVec.ofNat 32 (a.toNat % b.toNat)
  | .signedTrunc, a, b => BitVec.ofInt 32 (a.toInt - b.toInt * Int.tdiv a.toInt b.toInt)
  | .signedFloor, a, b => BitVec.ofInt 32 (a.toInt - b.toInt * Int.fdiv a.toInt b.toInt)

/-- The result of DIV: 0 when the divisor is 0 (42_integer_alu.md R205). -/
def divResult (m : DivMode) (a b : Word) : Word :=
  if b = 0 then 0 else quotient m a b

/-- The result of MOD: 0 when the divisor is 0 (42_integer_alu.md R206). -/
def modResult (m : DivMode) (a b : Word) : Word :=
  if b = 0 then 0 else remainder m a b

/-- Rotate left within 32 bits (42_integer_alu.md R214). -/
def rotl (a : Word) (sh : Nat) : Word :=
  if sh = 0 then a else (a <<< sh) ||| (a >>> (32 - sh))

/-- Rotate right within 32 bits (42_integer_alu.md R215). -/
def rotr (a : Word) (sh : Nat) : Word :=
  if sh = 0 then a else (a >>> sh) ||| (a <<< (32 - sh))

/-- ADD (42_integer_alu.md R200). -/
def execAdd (d : RegIdx) (b : Src) (s : State) : Host.Outcome State Fault Refusal :=
  let x := addC (s.readReg d) (s.operand b) false
  s.aluDone d x.r (flagsAddSub s.flags s.params.addSubSetCV x)

/-- SUB (42_integer_alu.md R201). -/
def execSub (d : RegIdx) (b : Src) (s : State) : Host.Outcome State Fault Refusal :=
  let x := subB (s.readReg d) (s.operand b) false
  s.aluDone d x.r (flagsAddSub s.flags s.params.addSubSetCV x)

/-- ADC (42_integer_alu.md R202). -/
def execAdc (d : RegIdx) (b : Src) (s : State) : Host.Outcome State Fault Refusal :=
  let x := addC (s.readReg d) (s.operand b) (getFlag s.flags .c)
  s.aluDone d x.r (flagsZNCV s.flags x)

/-- SBC (42_integer_alu.md R203). -/
def execSbc (d : RegIdx) (b : Src) (s : State) : Host.Outcome State Fault Refusal :=
  let x := subB (s.readReg d) (s.operand b) (getFlag s.flags .c)
  s.aluDone d x.r (flagsZNCV s.flags x)

/-- MUL (42_integer_alu.md R204). -/
def execMul (d : RegIdx) (b : Src) (s : State) : Host.Outcome State Fault Refusal :=
  let r := BitVec.ofNat 32 ((s.readReg d).toNat * (s.operand b).toNat)
  s.aluDone d r (flagsZN s.flags r)

/-- DIV (42_integer_alu.md R205). -/
def execDiv (d : RegIdx) (b : Src) (s : State) : Host.Outcome State Fault Refusal :=
  let r := divResult s.params.divMode (s.readReg d) (s.operand b)
  s.aluDone d r (flagsDiv s.flags r (s.operand b == 0))

/-- MOD (42_integer_alu.md R206). -/
def execMod (d : RegIdx) (b : Src) (s : State) : Host.Outcome State Fault Refusal :=
  let r := modResult s.params.divMode (s.readReg d) (s.operand b)
  s.aluDone d r (flagsDiv s.flags r (s.operand b == 0))

/-- CMP (42_integer_alu.md R207). -/
def execCmp (d : RegIdx) (b : Src) (s : State) : Host.Outcome State Fault Refusal :=
  let x := subB (s.readReg d) (s.operand b) false
  .next ((s.setFlags (flagsZNCV s.flags x)).complete s.nextPc)

/-- AND (42_integer_alu.md R208). -/
def execAnd (d : RegIdx) (b : Src) (s : State) : Host.Outcome State Fault Refusal :=
  let r := s.readReg d &&& s.operand b
  s.aluDone d r (flagsZN s.flags r)

/-- OR (42_integer_alu.md R209). -/
def execOr (d : RegIdx) (b : Src) (s : State) : Host.Outcome State Fault Refusal :=
  let r := s.readReg d ||| s.operand b
  s.aluDone d r (flagsZN s.flags r)

/-- XOR (42_integer_alu.md R210). -/
def execXor (d : RegIdx) (b : Src) (s : State) : Host.Outcome State Fault Refusal :=
  let r := s.readReg d ^^^ s.operand b
  s.aluDone d r (flagsZN s.flags r)

/-- NOT (42_integer_alu.md R211). -/
def execNot (d : RegIdx) (s : State) : Host.Outcome State Fault Refusal :=
  let r := ~~~(s.readReg d)
  s.aluDone d r (flagsZN s.flags r)

/-- SHL (42_integer_alu.md R212). -/
def execShl (d : RegIdx) (b : Src) (s : State) : Host.Outcome State Fault Refusal :=
  let r := s.readReg d <<< shiftAmount (s.operand b)
  s.aluDone d r (flagsZN s.flags r)

/-- SHR (42_integer_alu.md R213). -/
def execShr (d : RegIdx) (b : Src) (s : State) : Host.Outcome State Fault Refusal :=
  let r := s.readReg d >>> shiftAmount (s.operand b)
  s.aluDone d r (flagsZN s.flags r)

/-- ROL (42_integer_alu.md R214). -/
def execRol (d : RegIdx) (b : Src) (s : State) : Host.Outcome State Fault Refusal :=
  let r := rotl (s.readReg d) (shiftAmount (s.operand b))
  s.aluDone d r (flagsZN s.flags r)

/-- ROR (42_integer_alu.md R215). -/
def execRor (d : RegIdx) (b : Src) (s : State) : Host.Outcome State Fault Refusal :=
  let r := rotr (s.readReg d) (shiftAmount (s.operand b))
  s.aluDone d r (flagsZN s.flags r)

end Sys2Proof.Machine
end

