-- ==== Sys2Proof/Machine/LoadStore.lean ====
section
/-!
DEFINITION. Loads, stores and the stack (41_load_store.md). No instruction here writes a flag; one
that faults writes no register.
-/

namespace Sys2Proof.Machine

open Sys2Proof

/-- A load of width `w` at `a` into `d`; a byte is zero-extended (41_load_store.md R170, R172). -/
def State.loadInto (s : State) (d : RegIdx) (a : Word) (w : Width) : Host.Outcome State Fault Refusal :=
  (s.load a w .load).orHalt s fun v s1 => .next ((s1.writeReg d v).complete s.nextPc)

/-- A store of the low `w.bytes` bytes of x[d] at `a` (41_load_store.md R171, R173). -/
def State.storeFrom (s : State) (d : RegIdx) (a : Word) (w : Width) : Host.Outcome State Fault Refusal :=
  (s.store a w (s.readReg d)).orHalt s fun _ s1 => .next (s1.complete s.nextPc)

/-- LOAD (41_load_store.md R170). -/
def execLoad (d : RegIdx) (imm : Half) (s : State) : Host.Outcome State Fault Refusal :=
  s.loadInto d (absAddr imm) .word

/-- STORE (41_load_store.md R171). -/
def execStore (d : RegIdx) (imm : Half) (s : State) : Host.Outcome State Fault Refusal :=
  s.storeFrom d (absAddr imm) .word

/-- LOADB (41_load_store.md R172). -/
def execLoadb (d : RegIdx) (imm : Half) (s : State) : Host.Outcome State Fault Refusal :=
  s.loadInto d (absAddr imm) .byte

/-- STOREB (41_load_store.md R173). -/
def execStoreb (d : RegIdx) (imm : Half) (s : State) : Host.Outcome State Fault Refusal :=
  s.storeFrom d (absAddr imm) .byte

/-- LDR (41_load_store.md R174). -/
def execLdr (d b : RegIdx) (imm : Half) (s : State) : Host.Outcome State Fault Refusal :=
  s.loadInto d (s.basedAddr b imm) .word

/-- STR (41_load_store.md R175). -/
def execStr (d b : RegIdx) (imm : Half) (s : State) : Host.Outcome State Fault Refusal :=
  s.storeFrom d (s.basedAddr b imm) .word

/-- LDRB (41_load_store.md R176). -/
def execLdrb (d b : RegIdx) (imm : Half) (s : State) : Host.Outcome State Fault Refusal :=
  s.loadInto d (s.basedAddr b imm) .byte

/-- STRB (41_load_store.md R177). -/
def execStrb (d b : RegIdx) (imm : Half) (s : State) : Host.Outcome State Fault Refusal :=
  s.storeFrom d (s.basedAddr b imm) .byte

/-- PUSH (41_load_store.md R178): the value is read before R14 moves. -/
def execPush (d : RegIdx) (s : State) : Host.Outcome State Fault Refusal :=
  (s.push32 (s.readReg d)).orHalt s fun _ s1 => .next (s1.complete s.nextPc)

/-- POP (41_load_store.md R179): the destination is written after R14 moved, so POP R14 keeps the
popped value. -/
def execPop (d : RegIdx) (s : State) : Host.Outcome State Fault Refusal :=
  s.pop32.orHalt s fun v s1 => .next ((s1.writeReg d v).complete s.nextPc)

end Sys2Proof.Machine
end

