-- ==== Sys2Proof/Machine/System.lean ====
section
/-!
DEFINITION. System instructions (44_system.md): HALT, NOP, INT, IRET, SYSCALL, YIELD. There is one
privilege mode (60_exceptions.md R420): every one of them always executes.
-/

namespace Sys2Proof.Machine

open Sys2Proof

/-- HALT (44_system.md R280): the engine stops with no fault and the pc at the HALT. -/
def execHalt (s : State) : Host.Outcome State Fault Refusal :=
  .next ({ s with halted := true, fault := none }.complete s.pc)

/-- NOP (44_system.md R281). -/
def execNop (s : State) : Host.Outcome State Fault Refusal :=
  .next (s.complete s.nextPc)

/-- INT (44_system.md R282). -/
def execInt (n : Half) (s : State) : Host.Outcome State Fault Refusal :=
  s.trapEnter n

/-- IRET (44_system.md R283). -/
def execIret (s : State) : Host.Outcome State Fault Refusal :=
  s.trapReturn

/-- The request a SYSCALL sends: R0 to R3, unchecked (10_state.md R62). -/
def State.syscallRequest (s : State) : SyscallRequest :=
  { num := s.readReg 0#4, a1 := s.readReg 1#4, a2 := s.readReg 2#4, a3 := s.readReg 3#4 }

/-- SYSCALL (44_system.md R290): the pc advances before the kernel runs, and the engine waits for a response to
this request. -/
def execSyscall (s : State) : Host.Outcome State Fault Refusal :=
  .next ({ s with suspend := .syscall s.syscallRequest, answered := false }.complete s.nextPc)

/-- YIELD (44_system.md R293). -/
def execYield (s : State) : Host.Outcome State Fault Refusal :=
  .next ({ s with suspend := .yield }.complete s.nextPc)

end Sys2Proof.Machine
end

