-- ==== Sys2Proof/Machine/Dispatch.lean ====
section
/-!
DEFINITION. The dispatch from an instruction to its meaning, one arm per constructor
(30_encoding.md R142).
-/

namespace Sys2Proof.Machine

open Sys2Proof

def exec (i : Instr) (s : State) : Host.Outcome State Fault Refusal :=
  match i with
  | .halt => Sys2Proof.Machine.execHalt s
  | .nop => Sys2Proof.Machine.execNop s
  | .loadi d imm => Sys2Proof.Machine.execLoadi d imm s
  | .mov d r => Sys2Proof.Machine.execMov d r s
  | .load d imm => Sys2Proof.Machine.execLoad d imm s
  | .store d imm => Sys2Proof.Machine.execStore d imm s
  | .loadb d imm => Sys2Proof.Machine.execLoadb d imm s
  | .storeb d imm => Sys2Proof.Machine.execStoreb d imm s
  | .ldr d b imm => Sys2Proof.Machine.execLdr d b imm s
  | .str d b imm => Sys2Proof.Machine.execStr d b imm s
  | .ldrb d b imm => Sys2Proof.Machine.execLdrb d b imm s
  | .strb d b imm => Sys2Proof.Machine.execStrb d b imm s
  | .add d b => Sys2Proof.Machine.execAdd d b s
  | .sub d b => Sys2Proof.Machine.execSub d b s
  | .adc d b => Sys2Proof.Machine.execAdc d b s
  | .sbc d b => Sys2Proof.Machine.execSbc d b s
  | .mul d b => Sys2Proof.Machine.execMul d b s
  | .div d b => Sys2Proof.Machine.execDiv d b s
  | .mod d b => Sys2Proof.Machine.execMod d b s
  | .cmp d b => Sys2Proof.Machine.execCmp d b s
  | .and d b => Sys2Proof.Machine.execAnd d b s
  | .or d b => Sys2Proof.Machine.execOr d b s
  | .xor d b => Sys2Proof.Machine.execXor d b s
  | .not d => Sys2Proof.Machine.execNot d s
  | .shl d b => Sys2Proof.Machine.execShl d b s
  | .shr d b => Sys2Proof.Machine.execShr d b s
  | .rol d b => Sys2Proof.Machine.execRol d b s
  | .ror d b => Sys2Proof.Machine.execRor d b s
  | .jmp imm => Sys2Proof.Machine.execJmp imm s
  | .jz imm => Sys2Proof.Machine.execJz imm s
  | .jnz imm => Sys2Proof.Machine.execJnz imm s
  | .jn imm => Sys2Proof.Machine.execJn imm s
  | .jnn imm => Sys2Proof.Machine.execJnn imm s
  | .jc imm => Sys2Proof.Machine.execJc imm s
  | .jnc imm => Sys2Proof.Machine.execJnc imm s
  | .jo imm => Sys2Proof.Machine.execJo imm s
  | .jno imm => Sys2Proof.Machine.execJno imm s
  | .call imm => Sys2Proof.Machine.execCall imm s
  | .ret => Sys2Proof.Machine.execRet s
  | .push d => Sys2Proof.Machine.execPush d s
  | .pop d => Sys2Proof.Machine.execPop d s
  | .int imm => Sys2Proof.Machine.execInt imm s
  | .iret => Sys2Proof.Machine.execIret s
  | .syscall => Sys2Proof.Machine.execSyscall s
  | .yield => Sys2Proof.Machine.execYield s
  | .fpush d => Sys2Proof.Machine.execFpush d s
  | .fpop d => Sys2Proof.Machine.execFpop d s
  | .fadd => Sys2Proof.Machine.execFadd s
  | .fsub => Sys2Proof.Machine.execFsub s
  | .fmul => Sys2Proof.Machine.execFmul s
  | .fdiv => Sys2Proof.Machine.execFdiv s

end Sys2Proof.Machine
end

