-- ==== Sys2Proof/Machine/Scheduler.lean ====
section
/-!
DEFINITION. The thread scheduler's operations (60_exceptions.md R440 to R451): context save and
restore, creation, dispatch, yield, preemption, blocking, waking, termination, and the reading of
the wall clock (10_state.md R46).
-/

namespace Sys2Proof.Machine

open Sys2Proof

/-- The engine's context, as `snapshot()` copies it (60_exceptions.md R440). -/
def State.context (s : State) : Context :=
  { regs := s.regs, flags := s.flags, pc := s.pc, fst := s.fst }

/-- `restore(t)` (60_exceptions.md R440). -/
def State.restore (s : State) (c : Context) : State :=
  { s with regs := c.regs, flags := c.flags, pc := c.pc, fst := c.fst }

/-- A reading of the wall clock: it advances by a free amount, never back (10_state.md R46, R66). -/
def State.readClock (s : State) : State :=
  { s with now := s.now + Config.clockAdvance s.draws, draws := s.draws + 1 }

/-- The context of a created thread (60_exceptions.md R441). -/
def freshContext (id : Nat) (pc : Word) : Context :=
  { regs := (Vector.replicate 16 0).set spIndex.toNat (Config.stackTop id) spIndex.isLt
    flags := 0
    pc := pc
    fst := [] }

/-- The record of a created thread (60_exceptions.md R441). -/
def freshThread (id : Nat) (pc : Word) (priority : Nat) : Thread :=
  { ctx := freshContext id pc, state := .ready, priority := priority, slice := 0, instret := 0, wake := none }

/-- `create(pc, priority)` (60_exceptions.md R441); the id it returns is `s.nextId`. -/
def State.createThread (s : State) (pc : Word) (priority : Nat) : State :=
  { s with
    nextId := s.nextId + 1
    threads := Assoc.put s.threads s.nextId (freshThread s.nextId pc priority)
    readyQueue := s.readyQueue ++ [s.nextId] }

/-- The thread's record says it is ready. -/
def isReady (threads : List (Nat × Thread)) (id : Nat) : Bool :=
  match Assoc.get threads id with
  | some t => t.state == .ready
  | none => false

/-- Pop the queue until its head is a ready thread (60_exceptions.md R442): that thread and the rest
of the queue. -/
def popReady (threads : List (Nat × Thread)) : List Nat → Option (Nat × List Nat)
  | [] => none
  | id :: rest => if isReady threads id then some (id, rest) else popReady threads rest

/-- Dispatch of a thread (60_exceptions.md R442): running, its slice begun, its context in the
engine, and halted, fault and suspend cleared. -/
def State.dispatch (s : State) (id : Nat) (t : Thread) (rest : List Nat) : State :=
  { s with
    readyQueue := rest
    threads := Assoc.put s.threads id { t with state := .running, slice := 0 }
    running := some id
    halted := false
    fault := none
    suspend := .none
    answered := false }.restore t.ctx

/-- `schedule_next()` (60_exceptions.md R442): the dispatched id, if any, and the state after. DESIGN
CHOICE (log entry 26): called while a thread is running, it dispatches over it, and the old record keeps
the state `running`, as R442's pseudocode has no guard. -/
def State.scheduleNext (s : State) : Option Nat × State :=
  match popReady s.threads s.readyQueue with
  | none => (none, { s with readyQueue := [] })
  | some (id, rest) =>
    match Assoc.get s.threads id with
    | none => (none, { s with readyQueue := rest })
    | some t => (some id, s.dispatch id t rest)

/-- `yield_current()` (60_exceptions.md R443). DESIGN CHOICE (log entry 27): nothing while no thread is
running. -/
def State.yieldCurrent (s : State) : State :=
  match s.running with
  | none => s
  | some id =>
    { s with
      threads := Assoc.update s.threads id fun t => { t with ctx := s.context, state := .ready }
      readyQueue := s.readyQueue ++ [id]
      running := none }

/-- A thread is running and has run an instruction of its slice (60_exceptions.md R444). -/
def State.sliceBegun (s : State) : Bool :=
  s.runningThread.any fun t => decide (1 ≤ t.slice)

/-- A preemption is chosen: at a boundary after at least one instruction of the slice, the engine
waits with suspend = quota (60_exceptions.md R444). -/
def State.preempt (s : State) : State :=
  { s with suspend := if s.sliceBegun && s.suspend == .none then .quota else s.suspend }

/-- `block(duration)` (60_exceptions.md R445). DESIGN CHOICE (log entry 27): nothing while no thread is
running, and the clock is not read. -/
def State.block (s : State) (duration : Nat) : State :=
  match s.running with
  | none => s
  | some id =>
    { s.readClock with
      threads := Assoc.update s.threads id fun t =>
        { t with ctx := s.context, state := .blocked, wake := some (s.readClock.now + duration) }
      running := none }

/-- The thread is blocked and its wake deadline has come (60_exceptions.md R445). -/
def Thread.due (t : Thread) (now : Nat) : Bool :=
  t.state == .blocked && t.wake.any fun w => decide (w ≤ now)

/-- The ids of the due threads. -/
def dueIds (threads : List (Nat × Thread)) (now : Nat) : List Nat :=
  (threads.filter fun e => e.2.due now).map Prod.fst

/-- An order of the ids, chosen freely from draw `k` on (60_exceptions.md R445; I17). -/
def freeOrder : List Nat → Nat → List Nat
  | [], _ => []
  | id :: rest, k =>
    (freeOrder rest (k + 1)).insertIdx (Config.wakePosition k % (rest.length + 1)) id

/-- `unblock_due()` (60_exceptions.md R445). -/
def State.unblockDue (s : State) : State :=
  let s1 := s.readClock
  { s1 with
    threads := s1.threads.map fun e => if e.2.due s1.now then (e.1, { e.2 with state := .ready }) else e
    readyQueue := s1.readyQueue ++ freeOrder (dueIds s1.threads s1.now) s1.draws
    draws := s1.draws + (dueIds s1.threads s1.now).length }

/-- `terminate(id)` (60_exceptions.md R445): the record is dropped; its count is kept in `retired`
(log entry 7). DESIGN CHOICE (log entry 28): for an id that is not in the table no record and no count
changes. -/
def State.terminate (s : State) (id : Nat) : State :=
  { s with
    threads := Assoc.erase s.threads id
    retired := ((Assoc.get s.threads id).map fun t => (id, t.instret)).toList ++ s.retired
    running := if s.running = some id then none else s.running }

/-- Some thread is blocked (60_exceptions.md R447). -/
def State.someBlocked (s : State) : Bool :=
  s.threads.any fun e => e.2.state == .blocked

end Sys2Proof.Machine
end

