-- ==== Sys2Proof/Machine/Host.lean ====
section
/-!
DEFINITION. The host interface (10_state.md R60 to R67): the host's actions as a closed type and what
each does, the register accessors, the framebuffer, the diagnostic dump, and the kernel's response
to a SYSCALL (44_system.md R291).
-/

namespace Sys2Proof.Machine

open Sys2Proof

/-- What the host may do between instructions (10_state.md R61, R65, 70_reset_and_hazards.md R502, R503,
60_exceptions.md R431). The register accessors, which can fail, are `State.hostReadReg` and
`State.hostWriteReg`. -/
inductive HostOp where
  /-- Write bytes straight into the backing store (10_state.md R61). -/
  | writeBytes (addr : Nat) (bytes : List Byte)
  /-- Grow the backing store (20_memory.md R100). -/
  | expand (required : Nat)
  /-- Append a protected region (20_memory.md R83). -/
  | registerRegion (g : Region)
  /-- Remove the earliest matching region (20_memory.md R83, 92_eei_decisions.md D20). DESIGN CHOICE (log
  entry 32): nothing where none matches. -/
  | unregisterRegion (g : Region)
  /-- Append an MMIO registration (10_state.md R65). -/
  | registerMmio (h : MmioRange)
  /-- Remove a registration (10_state.md R65). DESIGN CHOICE (log entry 29): the earliest one equal in base,
  length and handler, and nothing where there is none. -/
  | unregisterMmio (h : MmioRange)
  /-- Enable or disable paging; the page table stays (20_memory.md R89). -/
  | setPaging (on : Bool)
  /-- Install a handler (10_state.md R35, R65). -/
  | installVector (n : Half) (a : Word)
  /-- Remove a handler (10_state.md R65). -/
  | removeVector (n : Half)
  /-- Set the pc (70_reset_and_hazards.md R502). -/
  | setPc (a : Word)
  /-- `create` (60_exceptions.md R441). -/
  | createThread (pc : Word) (priority : Nat)
  /-- `schedule_next` (60_exceptions.md R442). -/
  | scheduleNext
  /-- `yield_current` (60_exceptions.md R443). -/
  | yieldCurrent
  /-- A preemption of the running thread (60_exceptions.md R444). -/
  | preempt
  /-- `block` (60_exceptions.md R445). -/
  | block (duration : Nat)
  /-- `unblock_due` (60_exceptions.md R445). -/
  | unblockDue
  /-- `terminate` (60_exceptions.md R445). -/
  | terminate (id : Nat)
  /-- `set_pixel` (60_exceptions.md R431). -/
  | setPixel (x y : Int) (c : Nat)
  /-- A line, circle or rectangle: its pixels are free (60_exceptions.md R431; I21). -/
  | drawShape (c : Nat)
  /-- Call `run` (70_reset_and_hazards.md R502). -/
  | startRun
  /-- Start the driver loop (70_reset_and_hazards.md R503). -/
  | startSched
  deriving DecidableEq, Repr, Inhabited

/-- Write consecutive bytes. -/
def memWriteBytes : List Host.Cell → Nat → List Byte → List Host.Cell
  | m, _, [] => m
  | m, p, b :: rest => memWriteBytes (memSetByte m p b) (p + 1) rest

/-- Host memory writes, without protection, translation or cache effects (10_state.md R61); bytes
outside the backing store do not exist, so a write that reaches them does nothing (log entry 10). -/
def State.hostWrite (s : State) (addr : Nat) (bytes : List Byte) : State :=
  if addr + bytes.length ≤ s.memSize then { s with mem := memWriteBytes s.mem addr bytes } else s

/-- `size` doubled until it reaches `required`, at most `fuel` times (20_memory.md R100). -/
def doubled : Nat → Nat → Nat → Nat
  | 0, size, _ => size
  | fuel + 1, size, required => if size < required then doubled fuel (2 * size) required else size

/-- The size `expand(required)` grows a store of `size` bytes to: doubling, or to-fit where doubling
passes 2^32; a request beyond 2^32 is not granted (20_memory.md R100; log entry 11). -/
def expandedSize (size required : Nat) : Nat :=
  if required ≤ size ∨ 2 ^ 32 < required then size
  else if required ≤ doubled 33 size required ∧ doubled 33 size required ≤ 2 ^ 32 then
    doubled 33 size required
  else required

/-- `expand(required_size)` (20_memory.md R100): existing bytes stay and new ones read 0. -/
def State.expand (s : State) (required : Nat) : State :=
  { s with memSize := expandedSize s.memSize required }

/-! The framebuffer (60_exceptions.md R431). -/

/-- The pixel lies in the buffer. -/
def State.inBuffer (s : State) (x y : Int) : Bool :=
  decide (0 ≤ x) && decide (x < s.params.fbWidth) && decide (0 ≤ y) && decide (y < s.params.fbHeight)

/-- The key of a pixel in the buffer. -/
def State.pixelKey (s : State) (x y : Int) : Nat :=
  y.toNat * s.params.fbWidth + x.toNat

/-- `set_pixel(x, y, c)`: nothing outside the buffer; a colour is packed in FB_COLOR bits (log entry 2). -/
def State.setPixel (s : State) (x y : Int) (c : Nat) : State :=
  if s.inBuffer x y then
    { s with
      framebuffer :=
        if c % 2 ^ s.params.fbColor = 0 then Assoc.erase s.framebuffer (s.pixelKey x y)
        else Assoc.put s.framebuffer (s.pixelKey x y) (c % 2 ^ s.params.fbColor) }
  else s

/-- `get_pixel(x, y)`: 0 outside the buffer. -/
def State.getPixel (s : State) (x y : Int) : Nat :=
  if s.inBuffer x y then (Assoc.get s.framebuffer (s.pixelKey x y)).getD 0 else 0

/-- A shape-drawing primitive: a free set of pixels, those outside the buffer ignored (I21). -/
def State.drawShape (s : State) (c : Nat) : State :=
  (Config.shapePixels s.draws).foldl (fun t p => t.setPixel p.1 p.2 c) { s with draws := s.draws + 1 }

/-! The host's actions. -/

/-- A host action (10_state.md R61, R65). -/
def State.host (s : State) : HostOp → State
  | .writeBytes addr bytes => s.hostWrite addr bytes
  | .expand required => s.expand required
  | .registerRegion g => { s with regions := s.regions ++ [g] }
  | .unregisterRegion g => { s with regions := s.regions.erase g }
  | .registerMmio h => { s with mmio := s.mmio ++ [h] }
  | .unregisterMmio h => { s with mmio := s.mmio.erase h }
  | .setPaging on => { s with pagingEnabled := on }
  | .installVector n a => { s with ivt := Assoc.put s.ivt n.toNat a }
  | .removeVector n => { s with ivt := Assoc.erase s.ivt n.toNat }
  | .setPc a => { s with pc := a }
  | .createThread pc priority => s.createThread pc priority
  | .scheduleNext => s.scheduleNext.2
  | .yieldCurrent => s.yieldCurrent
  | .preempt => s.preempt
  | .block duration => s.block duration
  | .unblockDue => s.unblockDue
  | .terminate id => s.terminate id
  | .setPixel x y c => s.setPixel x y c
  | .drawShape c => s.drawShape c
  | .startRun => { s with driver := .run }
  | .startSched => { s with driver := .sched }

/-- `read_reg(i)` (10_state.md R25). DESIGN CHOICE (log entry 30): the fault of a bad index is the answer the
host gets; it does not halt the engine and enters no fault record. -/
def State.hostReadReg (s : State) (i : Nat) : Except FaultRec Word :=
  if i < 16 then .ok (s.readReg (BitVec.ofNat 4 i)) else .error (.registerIndexOutOfRange i)

/-- `write_reg(i, v)`: stores v modulo 2^32 (10_state.md R25). DESIGN CHOICE (log entry 30): as `hostReadReg`,
a bad index answers the host and leaves the engine as it is. -/
def State.hostWriteReg (s : State) (i v : Nat) : Except FaultRec State :=
  if i < 16 then .ok (s.writeReg (BitVec.ofNat 4 i) (BitVec.ofNat 32 v))
  else .error (.registerIndexOutOfRange i)

/-- The diagnostic dump of a halted engine (10_state.md R67, 60_exceptions.md R403). -/
structure Dump where
  regs : Vector Word 16
  flags : Word
  pc : Word
  fault : Option FaultRec
  cacheHits : Nat
  cacheMisses : Nat
  deriving DecidableEq, Repr

/-- What the host may read (10_state.md R67, 60_exceptions.md R460). -/
def State.dump (s : State) : Dump :=
  { regs := s.regs, flags := s.flags, pc := s.pc, fault := s.fault
    cacheHits := s.cacheHits, cacheMisses := s.cacheMisses }

/-- The numeric code of a fault (60_exceptions.md R400). -/
def FaultRec.code : FaultRec → Nat
  | .outOfRangeAccess _ _ _ => 1
  | .protectionViolation _ _ _ => 2
  | .misalignedAccess _ _ _ => 3
  | .outOfMemory _ _ _ => 4
  | .registerIndexOutOfRange _ => 5
  | .unimplementedOpcode _ _ => 6
  | .stackOverflow _ => 7
  | .stackUnderflow _ => 8
  | .fpError _ => 9

/-! The kernel (44_system.md R291). -/

/-- A response of the kernel (44_system.md R291): (a) a value for R0, (b) a new pc, (c, d) host memory
and scheduler operations, (e) halt the engine. -/
structure KernelResponse where
  r0 : Option Word
  pc : Option Word
  acts : List HostOp
  halt : Bool
  deriving DecidableEq, Repr, Inhabited

/-- The host actions a kernel's response may hold (44_system.md R291, 10_state.md R65): all but those
that set the pc (the response has its own field), dispatch or preempt a thread, wake the blocked
ones, or start a loop (log entry 12). -/
def HostOp.kernelMay : HostOp → Bool
  | .writeBytes _ _ | .expand _ | .registerRegion _ | .unregisterRegion _ | .registerMmio _
  | .unregisterMmio _ | .setPaging _ | .installVector _ _ | .removeVector _ | .createThread _ _
  | .yieldCurrent | .block _ | .terminate _ | .setPixel _ _ _ | .drawShape _ => true
  | .setPc _ | .scheduleNext | .preempt | .unblockDue | .startRun | .startSched => false

end Sys2Proof.Machine

namespace Sys2Proof

/-- KERNEL, FREE VALUE: the response to the request that `suspend` holds, in the whole CORE state
(44_system.md R291; I22). -/
opaque Config.kernelResponse : Machine.State → Machine.KernelResponse

end Sys2Proof

namespace Sys2Proof.Machine

open Sys2Proof

/-- Parts (a) and (b) of a response: R0 and the pc (44_system.md R291). -/
def State.kernelResult (s : State) (r : KernelResponse) : State :=
  { s with
    regs := s.regs.set 0 (r.r0.getD (s.readReg 0#4))
    pc := r.pc.getD s.pc }

/-- Parts (c) and (d) of a response, in its order (44_system.md R291). -/
def State.kernelActs (s : State) (r : KernelResponse) : State :=
  (r.acts.filter HostOp.kernelMay).foldl State.host s

/-- The kernel's response completes the SYSCALL (44_system.md R291): its parts in the order the rule
lists them; then the engine goes on unless the response yielded, blocked or terminated the thread, which
leaves the request in `suspend`, answered (log entries 12, 25). DESIGN CHOICE (log entry 33): a response that
takes the caller away and halts sets `halted` too, which ends no thread. -/
def State.kernelRespond (s : State) : State :=
  let r := Config.kernelResponse s
  let t := ({ s with draws := s.draws + 1 }.kernelResult r).kernelActs r
  { t with
    halted := t.halted || r.halt
    suspend := if t.running = s.running then .none else t.suspend
    answered := decide (t.running ≠ s.running) }

end Sys2Proof.Machine
end

