-- ==== Sys2Proof/Machine/Engine.lean ====
section
/-!
DEFINITION. The instruction cycle (30_encoding.md R140), what becomes of a faulting instruction's
earlier accesses (60_exceptions.md R402), and `run` (30_encoding.md R141).
-/

namespace Sys2Proof.Machine

open Sys2Proof

/-- The fetch of the word at pc (30_encoding.md R140). -/
def State.fetch (s : State) : Res Word :=
  s.load s.pc .word .fetch

/-- Are the page allocations of the faulted instruction kept: free, where there are any. -/
def keepsPages (pre post : State) : Bool :=
  post.nextFreePPage == pre.nextFreePPage || Config.keepPages post.draws

/-- Are the memory writes of the faulted instruction kept: free, where there are any. -/
def keepsWrites (pre post : State) : Bool :=
  post.mem == pre.mem || Config.keepWrites post.draws

/-- The memory a faulted instruction leaves when its writes are undone: that before it, with the
pages it took, if they are kept, zeroed. -/
def undoneMem (pre post : State) : List Host.Cell :=
  if keepsPages pre post then
    memZero pre.mem (pre.nextFreePPage * pre.params.pageSize)
      ((post.nextFreePPage - pre.nextFreePPage) * pre.params.pageSize)
  else pre.mem

/-- After a fault, the memory writes and page allocations of the instruction's earlier accesses are
unspecified (60_exceptions.md R402, 93_implementation_defined.md I15): each is kept or undone by a
free choice. `pre` is the state before the instruction's fetch. -/
def settleFaulted (pre post : State) : State :=
  { post with
    mem := if keepsWrites pre post then post.mem else undoneMem pre post
    pageTable := if keepsPages pre post then post.pageTable else pre.pageTable
    nextFreePPage := if keepsPages pre post then post.nextFreePPage else pre.nextFreePPage
    draws := post.draws + 1 }

/-- The state after an instruction: settled if the instruction faulted. -/
def settle (pre post : State) : State :=
  if post.halted && post.fault.isSome then settleFaulted pre post else post

/-- The outcome of an instruction with its next state settled. -/
def settleOutcome (pre : State) : Host.Outcome State Fault Refusal → Host.Outcome State Fault Refusal
  | .next t => .next (settle pre t)
  | .fault f => .fault f
  | .refused r => .refused r

/-- `Step()` (30_encoding.md R140): fetch, decode, perform; a fetch fault or an illegal opcode is a
controlled halt. Its precondition, halted = 0 and suspend = none, is the caller's. -/
def State.engineStep (s : State) : Host.Outcome State Fault Refusal :=
  match s.fetch with
  | .trap f s1 => .next (settle s (s1.haltWith s f))
  | .ok w s1 =>
    match decodeWord s.params.opcodeMap s.params.admitDecided w with
    | .error _ => .next (settle s (s1.haltWith s (.unimplementedOpcode s.pc w)))
    | .ok i => settleOutcome s (exec i s1)

/-- Why `run` returned (10_state.md R64). -/
inductive StopReason where
  | halted (fault : Option FaultRec)
  | budget
  | yield
  | syscall (req : SyscallRequest)
  | quota
  deriving DecidableEq, Repr

/-- The reason a `run` that has stopped in `s` returns (10_state.md R64). DESIGN CHOICE (log entry 31): where
several hold, halted comes first, then the reason in `suspend`, and the budget last. -/
def State.stopReason (s : State) : StopReason :=
  if s.halted then .halted s.fault
  else
    match s.suspend with
    | .none => .budget
    | .yield => .yield
    | .syscall q => .syscall q
    | .quota => .quota

/-- The engine may take a step (30_encoding.md R140). -/
def State.canStep (s : State) : Bool :=
  !s.halted && s.suspend == .none

/-- `run(max_steps)` (30_encoding.md R141): the stop reason and the state it stopped in. -/
def State.run : Nat → State → Host.Outcome (StopReason × State) Fault Refusal
  | 0, s => .next (s.stopReason, s)
  | k + 1, s =>
    if s.canStep then
      match s.engineStep with
      | .next t => State.run k t
      | .fault f => .fault f
      | .refused r => .refused r
    else .next (s.stopReason, s)

end Sys2Proof.Machine
end

