-- ==== Sys2Proof/Machine/DriverLoop.lean ====
section
/-!
DEFINITION. The driver: what the machine does next when the host has started nothing
(70_reset_and_hazards.md R501), `run` (R502) or the driver loop (R503, 60_exceptions.md R447); and the
load of one word where the next step fetches.
-/

namespace Sys2Proof.Machine

open Sys2Proof

/-- Under `run`: the engine steps; a SYSCALL is answered, once; after a YIELD a later run goes on
(44_system.md R293); a halted engine is stuck (93_implementation_defined.md I27), and so is one whose
thread the response took away (30_encoding.md R141, I28). -/
def State.runStep (s : State) : Host.Outcome State Fault Refusal :=
  if s.halted then .fault .engineHalted
  else
    match s.suspend with
    | .none => s.engineStep
    | .syscall _ => if s.answered then .fault .engineSuspended else .next s.kernelRespond
    | .yield => .next { s with suspend := .none }
    | .quota => .next { s with suspend := .none }

/-- The head of the driver loop: wake the due threads and dispatch the next ready one; with none,
wait while a thread is blocked, else stop (60_exceptions.md R447). -/
def State.dispatchStep (s : State) : Host.Outcome State Fault Refusal :=
  match s.unblockDue.scheduleNext with
  | (some _, t) => .next t
  | (none, t) => if t.someBlocked then .next t else .fault .nothingToRun

/-- A preemption is chosen at this boundary (60_exceptions.md R444): the running thread has run more
instructions of its slice than the free limit of that slice. The slice is named by the thread and by how
many instructions it had run when the slice began. -/
def State.preemptsNow (s : State) : Bool :=
  match s.running, s.runningThread with
  | some id, some t => decide (Config.sliceLimit id (t.instret - t.slice) < t.slice)
  | _, _ => false

/-- The driver loop while thread `id` is running (60_exceptions.md R447). -/
def State.threadStep (s : State) (id : Nat) : Host.Outcome State Fault Refusal :=
  if s.halted then .next (s.terminate id)
  else
    match s.suspend with
    | .none =>
      if s.preemptsNow then .next s.preempt else s.engineStep
    | .syscall _ => .next s.kernelRespond
    | .yield => .next s.yieldCurrent
    | .quota => .next s.yieldCurrent

/-- One step of the driver loop (60_exceptions.md R447). DESIGN CHOICE (log entry 33): while no thread is
running `halted` is not looked at, so a halt by a response that yielded or blocked its caller is lost. -/
def State.schedStep (s : State) : Host.Outcome State Fault Refusal :=
  match s.running with
  | none => s.dispatchStep
  | some id => s.threadStep id

/-- One step of the machine: of the loop the host has started. -/
def State.driverStep (s : State) : Host.Outcome State Fault Refusal :=
  match s.driver with
  | .off => .fault .notStarted
  | .run => s.runStep
  | .sched => s.schedStep

/-- The state in which a fetch at pc reaches plain memory, and the physical address it reaches: pages
are translated as the fetch would translate them, and turned off where no page is free. -/
def State.fetchPlace (s : State) : Nat × State :=
  match s.translate s.pc with
  | some (p, t) => (p, t)
  | none => (s.pc.toNat, { s with pagingEnabled := false })

/-- The word `w` placed where the next step fetches, as the host's boot does it (70_reset_and_hazards.md
R502): memory grown to hold it, the bytes written, nothing in the fetch's way, `run` started. -/
def State.placeAtPc (s : State) (w : Word) : State :=
  let (p, t) := s.fetchPlace
  { t with
    memSize := expandedSize t.memSize (p + 4)
    mem := memWrite t.mem p .word w
    regions := t.regions.filter fun g =>
      (List.range 4).all fun i => !g.covers (t.pc.toNat + i) || g.perm.testBit t.params.permRead
    mmio := t.mmio.filter fun h => !h.holds t.pc.toNat
    halted := false
    fault := none
    suspend := .none
    answered := false
    driver := .run }

end Sys2Proof.Machine
end

