-- ==== Sys2Proof/Safety.lean ====
section
/-!
DEFINITION. The terms in which statements about the machine are made: what an instruction leaves
(frames), which access each memory instruction makes, and the invariants of a safe run.
-/

namespace Sys2Proof.Machine

open Sys2Proof

/-! Operand forms. -/

/-- The operand forms (30_encoding.md R124). -/
inductive Form where
  | n
  | r
  | rr
  | ri
  | rx
  | ra
  | rb
  | a
  | v
  deriving DecidableEq, Repr

/-- The form of each operation: the `form` column of 30_encoding.md R132. -/
def formOf : Opcode → Form
  | .halt | .nop | .ret | .iret | .syscall | .yield | .fadd | .fsub | .fmul | .fdiv => .n
  | .not | .push | .pop | .fpush | .fpop => .r
  | .mov => .rr
  | .loadi => .ri
  | .add | .sub | .adc | .sbc | .mul | .div | .mod | .cmp | .and | .or | .xor | .shl | .shr | .rol
  | .ror => .rx
  | .load | .store | .loadb | .storeb => .ra
  | .ldr | .str | .ldrb | .strb => .rb
  | .jmp | .jz | .jnz | .jn | .jnn | .jc | .jnc | .jo | .jno | .call => .a
  | .int => .v

/-- Two words have the same value in every field the form uses (30_encoding.md R124); the RX form uses
the immediate where the src field is 15. -/
def Form.agree : Form → Word → Word → Prop
  | .n, _, _ => True
  | .r, w, w' => dstField w = dstField w'
  | .rr, w, w' => dstField w = dstField w' ∧ srcFieldOf w = srcFieldOf w'
  | .ri, w, w' | .ra, w, w' => dstField w = dstField w' ∧ immField w = immField w'
  | .rx, w, w' =>
    dstField w = dstField w' ∧ srcFieldOf w = srcFieldOf w'
    ∧ (srcFieldOf w = 15#4 → immField w = immField w')
  | .rb, w, w' =>
    dstField w = dstField w' ∧ srcFieldOf w = srcFieldOf w' ∧ immField w = immField w'
  | .a, w, w' | .v, w, w' => immField w = immField w'

/-! Frames. -/

/-- `s` after a completed instruction that leaves these registers, flags, FP stack and pc, and
changes nothing else but the counts of 60_exceptions.md R446. -/
def State.after (s : State) (regs : Vector Word 16) (flags : Word) (fst : List Fp) (pc : Word) : State :=
  { s with
    regs := regs
    flags := flags
    fst := fst
    pc := pc
    threads := s.countedThreads
    totalInstret := s.totalInstret + s.runningThread.isSome.toNat }

/-- `s` halted by the fault `f`, nothing else changed (60_exceptions.md R402, R403). -/
def State.haltedBy (s : State) (f : FaultRec) : State :=
  { s with halted := true, fault := some f }

/-- The registers with x[d] replaced. -/
def State.regsWith (s : State) (d : RegIdx) (v : Word) : Vector Word 16 :=
  s.regs.set d.toNat v d.isLt

/-- The flag word `new` is `old` with Z, N, C and V as given, every other bit kept
(10_state.md R27, R30). -/
def FlagsBecome (old new : Word) (z n c v : Bool) : Prop :=
  ∀ k, k < 32 → new.getLsbD k =
    if k = 0 then z else if k = 1 then n else if k = 2 then c else if k = 3 then v else old.getLsbD k

/-- `s` with everything blanked that an access of the pipeline may change (20_memory.md R75, R76): the
bytes, the page table, the cache and its counters, and the transactions and draws of MMIO. -/
def State.outsideMemory (s : State) : State :=
  { s with
    mem := [], pageTable := [], nextFreePPage := 0, cache := [], cacheHits := 0, cacheMisses := 0
    draws := 0, deviceLog := [] }

/-! The accesses of the memory instructions. -/

/-- The destination, address and width of a load instruction (41_load_store.md R170, R172, R174, R176). -/
def loadForm (s : State) : Instr → Option (RegIdx × Word × Width)
  | .load d imm => some (d, imm.setWidth 32, .word)
  | .loadb d imm => some (d, imm.setWidth 32, .byte)
  | .ldr d b imm => some (d, s.readReg b + imm.setWidth 32, .word)
  | .ldrb d b imm => some (d, s.readReg b + imm.setWidth 32, .byte)
  | _ => none

/-- The value register, address and width of a store instruction (41_load_store.md R171, R173, R175, R177). -/
def storeForm (s : State) : Instr → Option (RegIdx × Word × Width)
  | .store d imm => some (d, imm.setWidth 32, .word)
  | .storeb d imm => some (d, imm.setWidth 32, .byte)
  | .str d b imm => some (d, s.readReg b + imm.setWidth 32, .word)
  | .strb d b imm => some (d, s.readReg b + imm.setWidth 32, .byte)
  | _ => none

/-- The kind, address and width of the first data access an instruction makes: loads and stores, and
the stack accesses of PUSH, POP, CALL, RET, INT and IRET (00_scope.md R14, 20_memory.md R73). -/
def firstAccess (s : State) : Instr → Option (AccessKind × Word × Width)
  | .load _ imm => some (.load, imm.setWidth 32, .word)
  | .store _ imm => some (.store, imm.setWidth 32, .word)
  | .loadb _ imm => some (.load, imm.setWidth 32, .byte)
  | .storeb _ imm => some (.store, imm.setWidth 32, .byte)
  | .ldr _ b imm => some (.load, s.readReg b + imm.setWidth 32, .word)
  | .str _ b imm => some (.store, s.readReg b + imm.setWidth 32, .word)
  | .ldrb _ b imm => some (.load, s.readReg b + imm.setWidth 32, .byte)
  | .strb _ b imm => some (.store, s.readReg b + imm.setWidth 32, .byte)
  | .push _ | .call _ | .int _ => some (.store, s.readReg 14#4 - 4#32, .word)
  | .pop _ | .ret | .iret => some (.load, s.readReg 14#4, .word)
  | _ => none

/-- The physical address an access at `a` reaches, by the pages as they stand; none where no page is
free for it (20_memory.md R84 to R87). -/
def State.physical (s : State) (a : Word) : Option Nat :=
  if s.pagingEnabled then
    match Assoc.get s.pageTable (a.toNat / s.params.pageSize) with
    | some ppn => some (ppn * s.params.pageSize + a.toNat % s.params.pageSize)
    | none =>
      if s.memSize < (s.nextFreePPage + 1) * s.params.pageSize then none
      else some (s.nextFreePPage * s.params.pageSize + a.toNat % s.params.pageSize)
  else some a.toNat

/-- Every region covering a byte of the access grants it (20_memory.md R80): a store needs PERM_WRITE,
a fetch or a load PERM_READ. -/
abbrev State.Granted (s : State) (a : Word) (w : Width) (k : AccessKind) : Prop :=
  ∀ g ∈ s.regions, ∀ i ∈ List.range w.bytes, g.base ≤ a.toNat + i → a.toNat + i < g.base + g.length →
    g.perm.testBit (if k = .store then s.params.permWrite else s.params.permRead) = true

/-- The access starts in a registered MMIO range (20_memory.md R91). -/
abbrev State.OnDevice (s : State) (a : Word) : Prop :=
  ∃ h ∈ s.mmio, h.base ≤ a.toNat ∧ a.toNat < h.base + h.length

/-- The fault an access raises, if any: misalignment, then protection, then, off MMIO, a page that
cannot be had, then a physical address out of range (20_memory.md R74 to R78). -/
def State.accessFault (s : State) (a : Word) (w : Width) (k : AccessKind) : Option FaultRec :=
  if w = .word ∧ a.toNat % 4 ≠ 0 then some (.misalignedAccess s.pc a k)
  else if ¬ s.Granted a w k then some (.protectionViolation s.pc a k)
  else if s.OnDevice a then none
  else
    match s.physical a with
    | none => some (.outOfMemory s.pc a k)
    | some p => if s.memSize < p + w.bytes then some (.outOfRangeAccess s.pc a k) else none

/-- `u` is `s`, or `s` after the access at `a` was translated (20_memory.md R86). -/
def State.Touched (s : State) (a : Word) (u : State) : Prop :=
  u = s ∨ ∃ p, s.translate a = some (p, u)

/-- The value of the bytes at the physical address `p`, the lowest address the least significant
(20_memory.md R72). -/
def State.valueAt (s : State) (p : Nat) : Width → Word
  | .byte => BitVec.ofNat 32 (s.byteAt p).toNat
  | .word =>
    BitVec.ofNat 32 ((s.byteAt p).toNat + 256 * (s.byteAt (p + 1)).toNat
      + 65536 * (s.byteAt (p + 2)).toNat + 16777216 * (s.byteAt (p + 3)).toNat)

/-- `s` with the cache, its counters and the draws blanked. -/
def State.withoutCache (s : State) : State :=
  { s with cache := [], cacheHits := 0, cacheMisses := 0, draws := 0 }

/-- A list of instructions performed one after another, as long as each completes. -/
def execList : List Instr → State → Host.Outcome State Fault Refusal
  | [], s => .next s
  | i :: rest, s =>
    match exec i s with
    | .next t => execList rest t
    | .fault f => .fault f
    | .refused r => .refused r

/-- A number of steps of the machine, stopping at the first fault or refusal. -/
def stepTimes : Nat → State → Host.Outcome State Fault Refusal
  | 0, s => .next s
  | n + 1, s =>
    match step s with
    | .next t => stepTimes n t
    | .fault f => .fault f
    | .refused r => .refused r

/-- The access passes alignment and protection and goes to no MMIO handler (20_memory.md R75, R76
steps 1 to 3). -/
def State.Admits (s : State) (a : Word) (w : Width) (k : AccessKind) : Prop :=
  misaligned a w = false ∧ s.permits a w k = true ∧ s.mmioAt a = none

/-- The access reaches plain memory at the physical address `p`; `s1` is the state after its
translation (20_memory.md R75, R76 steps 1 to 5). -/
def State.Reaches (s : State) (a : Word) (w : Width) (k : AccessKind) (p : Nat) (s1 : State) : Prop :=
  s.Admits a w k ∧ s.translate a = some (p, s1) ∧ p + w.bytes ≤ s1.memSize

/-- The access goes to the MMIO handler registered as `h` (20_memory.md R75, R76 step 3). -/
def State.ReachesDevice (s : State) (a : Word) (w : Width) (k : AccessKind) (h : MmioRange) : Prop :=
  misaligned a w = false ∧ s.permits a w k = true ∧ s.mmioAt a = some h

/-- The word access at `a` reaches the plain byte at its own address with paging off. -/
def State.PlainWord (s : State) (a : Word) (k : AccessKind) : Prop :=
  s.Admits a .word k ∧ s.pagingEnabled = false ∧ a.toNat + 4 ≤ s.memSize

/-! Invariants. -/

/-- Memory is in its one form, inside a backing store of at most 2^32 bytes (10_state.md R37,
00_scope.md R9). -/
def State.MemoryInv (s : State) : Prop :=
  Memory.Wf s.mem ∧ (∀ c ∈ s.mem, c.1 < s.memSize) ∧ s.memSize ≤ 2 ^ 32

/-- The page table maps each page once, to physical pages already handed out, no page to two
(20_memory.md R86, 92_eei_decisions.md D21). -/
def State.PagesInv (s : State) : Prop :=
  Assoc.Rising s.pageTable ∧ (∀ e ∈ s.pageTable, e.2 < s.nextFreePPage)
  ∧ (s.pageTable.map Prod.snd).Nodup

/-- The cache holds at most CACHE_CAPACITY entries, one for each address (10_state.md R40). -/
def State.CacheInv (s : State) : Prop :=
  Assoc.Rising s.cache ∧ s.cache.length ≤ s.params.cacheCapacity

/-- A list of FP values that fits the 8 slots and, under binary64, holds only values of that format
(10_state.md R31, R32). -/
def FpStackOk (cfg : FpCfg) (st : List Fp) : Prop :=
  st.length ≤ 8 ∧ (cfg = .binary64 → ∀ v ∈ st, fpCanonical v = true)

/-- The engine's FP stack and every saved one are so (10_state.md R31, R44). -/
def State.FpInv (s : State) : Prop :=
  FpStackOk s.params.fpCfg s.fst ∧ ∀ e ∈ s.threads, FpStackOk s.params.fpCfg e.2.ctx.fst

/-- At most one thread is running, and it is the one `running` points to; ids are handed out once;
a blocked thread has a wake deadline; no terminated thread is in the table (60_exceptions.md R445,
R449, 10_state.md R43). -/
def State.SchedulerInv (s : State) : Prop :=
  Assoc.Rising s.threads
  ∧ (∀ e ∈ s.threads, e.1 < s.nextId)
  ∧ (∀ id ∈ s.readyQueue, id < s.nextId)
  ∧ (∀ e ∈ s.threads, e.2.state = .running ↔ s.running = some e.1)
  ∧ (∀ id, s.running = some id → ∃ e ∈ s.threads, e.1 = id)
  ∧ (∀ e ∈ s.threads, e.2.state = .blocked → e.2.wake.isSome = true)
  ∧ (∀ e ∈ s.threads, e.2.state ≠ .terminated)

/-- The instructions counted for the threads of a table. -/
def instretSum (threads : List (Nat × Thread)) : Nat :=
  (threads.map fun e => e.2.instret).sum

/-- The total equals the sum over every thread ever created, live or terminated (10_state.md R45,
60_exceptions.md R451). -/
def State.CountInv (s : State) : Prop :=
  Assoc.Rising s.threads
  ∧ s.totalInstret = instretSum s.threads + (s.retired.map Prod.snd).sum

end Sys2Proof.Machine
end

