-- ==== Sys2Proof/WellFormed.lean ====
section
/-!
DEFINITION. Which instructions an encoding can spell. Register numbers and immediates carry their
widths in their types; the one remaining check is that the register form of an RX operand does not
name R15, which the sentinel makes inexpressible (10_state.md R24, 30_encoding.md R126).
-/

namespace Sys2Proof

/-- The second operand of an RX instruction can be encoded: as a register it is not R15
(30_encoding.md R126). -/
def Src.wf : Src → Bool
  | .reg s => s != 15
  | .imm _ => true

/-- The instruction can be encoded: its RX operand, if it has one, can. -/
def Instr.wf : Instr → Bool
  | .add _ b | .sub _ b | .adc _ b | .sbc _ b | .mul _ b | .div _ b | .mod _ b | .cmp _ b
  | .and _ b | .or _ b | .xor _ b | .shl _ b | .shr _ b | .rol _ b | .ror _ b => b.wf
  | .halt | .nop | .loadi _ _ | .mov _ _ | .load _ _ | .store _ _ | .loadb _ _ | .storeb _ _
  | .ldr _ _ _ | .str _ _ _ | .ldrb _ _ _ | .strb _ _ _ | .not _ | .jmp _ | .jz _ | .jnz _
  | .jn _ | .jnn _ | .jc _ | .jnc _ | .jo _ | .jno _ | .call _ | .ret | .push _ | .pop _
  | .int _ | .iret | .syscall | .yield | .fpush _ | .fpop _ | .fadd | .fsub | .fmul | .fdiv => true

end Sys2Proof
end

