-- ==== Sys2Proof/Certificates/Slice0/Obligations.lean ====
section
/-!
DEFINITION. What is to be proved of the model. Each statement's docstring names the rules of spec/ it
formalises. A free value (log entry 5) is never pinned: a statement holds whatever it is.
-/

open Sys2Proof Sys2Proof.Machine

/-! Encoding. -/

/-- 30_encoding.md R122: the fields of a word, the word of the fields, and the round trip. -/
def Obligations.FieldsPackAndUnpack : Prop :=
  (∀ w : Word, (opField w).toNat = w.toNat / 2 ^ 24 ∧ (dstField w).toNat = w.toNat / 2 ^ 20 % 16
    ∧ (srcFieldOf w).toNat = w.toNat / 2 ^ 16 % 16 ∧ (immField w).toNat = w.toNat % 2 ^ 16)
  ∧ ∀ (op : Byte) (d r : RegIdx) (imm : Half),
    (packFields op d r imm).toNat = op.toNat * 2 ^ 24 + d.toNat * 2 ^ 20 + r.toNat * 2 ^ 16 + imm.toNat
    ∧ opField (packFields op d r imm) = op ∧ dstField (packFields op d r imm) = d
    ∧ srcFieldOf (packFields op d r imm) = r ∧ immField (packFields op d r imm) = imm

/-- Every well-formed instruction decodes from its encoding, under every unambiguous OPCODE_MAP, as a
word and from its bytes in memory order; and the default map encodes every instruction (30_encoding.md
R122, R124, R126, R132, 20_memory.md R71). -/
def Obligations.DecodeEncodeEveryInstruction : Prop :=
  (∀ (m : OpcodeMap) (i : Instr) (w : Word), m.Unambiguous → i.wf = true → encode m i = some w →
    decodeWord m true w = .ok i
    ∧ ∀ rest, decode m true (bytesOfWord w ++ rest) = .ok (i, rest))
  ∧ OpcodeMap.default.Unambiguous ∧ ∀ i : Instr, (encode OpcodeMap.default i).isSome = true

/-- 30_encoding.md R132: each opcode of the default numbering spells its instruction, with the fields
of its form (R124). -/
def Obligations.OpcodeTableDecodes : Prop :=
  ∀ w : Word,
    let d := dstField w
    let r := srcFieldOf w
    let imm := immField w
    let b := if srcFieldOf w = 15#4 then Src.imm (immField w) else Src.reg (srcFieldOf w)
    let reads := fun (op : Byte) (i : Instr) =>
      opField w = op → decodeWord OpcodeMap.default true w = .ok i
    reads 0x00 .halt ∧ reads 0x01 .nop ∧ reads 0x02 (.loadi d imm) ∧ reads 0x03 (.mov d r)
    ∧ reads 0x04 (.load d imm) ∧ reads 0x05 (.store d imm) ∧ reads 0x06 (.loadb d imm)
    ∧ reads 0x07 (.storeb d imm) ∧ reads 0x08 (.ldr d r imm) ∧ reads 0x09 (.str d r imm)
    ∧ reads 0x0A (.ldrb d r imm) ∧ reads 0x0B (.strb d r imm)
    ∧ reads 0x10 (.add d b) ∧ reads 0x11 (.sub d b) ∧ reads 0x12 (.adc d b) ∧ reads 0x13 (.sbc d b)
    ∧ reads 0x14 (.mul d b) ∧ reads 0x15 (.div d b) ∧ reads 0x16 (.mod d b) ∧ reads 0x17 (.cmp d b)
    ∧ reads 0x18 (.and d b) ∧ reads 0x19 (.or d b) ∧ reads 0x1A (.xor d b) ∧ reads 0x1B (.not d)
    ∧ reads 0x1C (.shl d b) ∧ reads 0x1D (.shr d b) ∧ reads 0x1E (.rol d b) ∧ reads 0x1F (.ror d b)
    ∧ reads 0x20 (.jmp imm) ∧ reads 0x21 (.jz imm) ∧ reads 0x22 (.jnz imm) ∧ reads 0x23 (.jn imm)
    ∧ reads 0x24 (.jnn imm) ∧ reads 0x25 (.jc imm) ∧ reads 0x26 (.jnc imm) ∧ reads 0x27 (.jo imm)
    ∧ reads 0x28 (.jno imm) ∧ reads 0x29 (.call imm) ∧ reads 0x2A .ret
    ∧ reads 0x30 (.push d) ∧ reads 0x31 (.pop d)
    ∧ reads 0x40 (.int imm) ∧ reads 0x41 .iret ∧ reads 0x42 .syscall ∧ reads 0x43 .yield
    ∧ reads 0x50 (.fpush d) ∧ reads 0x51 (.fpop d) ∧ reads 0x52 .fadd ∧ reads 0x53 .fsub
    ∧ reads 0x54 .fmul ∧ reads 0x55 .fdiv

/-- 30_encoding.md R125: two words with one opcode and the same fields of its form decode alike, under
every OPCODE_MAP and ADMIT_DECIDED. -/
def Obligations.UnusedFieldsAreIgnored : Prop :=
  ∀ (m : OpcodeMap) (adm : Bool) (w w' : Word), opField w = opField w' →
    (∀ op, m.opcodeOf (opField w) = some op → (formOf op).agree w w') →
    decodeWord m adm w = decodeWord m adm w'

/-- 30_encoding.md R126, R129: in the fifteen RX opcodes a src field of 15 makes the second operand
ImmX(imm) and any other one the register; in every other form the src field names its register, R15
among them. -/
def Obligations.SentinelSelectsTheImmediate : Prop :=
  (∀ (s : State) (r : RegIdx) (imm : Half),
    s.operand (rxSrc r imm) =
      if r = 15#4 then (if s.params.immAluExt = .sext then imm.signExtend 32 else imm.setWidth 32)
      else s.readReg r)
  ∧ (∀ (op : Opcode) (d r : RegIdx) (imm : Half),
    (formOf op = .rx ↔ op ∈ [.add, .sub, .adc, .sbc, .mul, .div, .mod, .cmp, .and, .or, .xor, .shl,
      .shr, .rol, .ror])
    ∧ (formOf op = .rx → instrOf op d 15#4 imm ∈ [.add d (.imm imm), .sub d (.imm imm),
        .adc d (.imm imm), .sbc d (.imm imm), .mul d (.imm imm), .div d (.imm imm), .mod d (.imm imm),
        .cmp d (.imm imm), .and d (.imm imm), .or d (.imm imm), .xor d (.imm imm), .shl d (.imm imm),
        .shr d (.imm imm), .rol d (.imm imm), .ror d (.imm imm)])
    ∧ (formOf op = .rr → instrOf op d r imm = .mov d r)
    ∧ (formOf op = .rb → instrOf op d r imm ∈ [.ldr d r imm, .str d r imm, .ldrb d r imm, .strb d r imm]))

/-- 30_encoding.md R133, R135, 60_exceptions.md R405: the default map leaves the listed bytes unassigned; an
unassigned byte, and a `decided` operation where ADMIT_DECIDED is false, is no instruction; executing
one halts the engine with UnimplementedOpcode, the word recorded and nothing of it performed. -/
def Obligations.IllegalOpcodeIsAHardStop : Prop :=
  (∀ b : Byte, OpcodeMap.default.opcodeOf b = none ↔
    (0x0C ≤ b.toNat ∧ b.toNat ≤ 0x0F) ∨ (0x2B ≤ b.toNat ∧ b.toNat ≤ 0x2F)
    ∨ (0x32 ≤ b.toNat ∧ b.toNat ≤ 0x3F) ∨ (0x44 ≤ b.toNat ∧ b.toNat ≤ 0x4F) ∨ 0x56 ≤ b.toNat)
  ∧ (∀ (m : OpcodeMap) (adm : Bool) (w : Word),
    (∃ e, decodeWord m adm w = .error e) ↔
      m.opcodeOf (opField w) = none
      ∨ (adm = false ∧ ∃ op, m.opcodeOf (opField w) = some op ∧ op.basis = .decided))
  ∧ ∀ (s s1 : State) (p : Nat) (e : DecodeError), s.Reaches s.pc .word .fetch p s1 →
    decodeWord s.params.opcodeMap s.params.admitDecided (s1.valueAt p .word) = .error e →
    ∃ t, s.engineStep = .next t
      ∧ t.outsideMemory = (s.haltedBy (.unimplementedOpcode s.pc (s1.valueAt p .word))).outsideMemory
      ∧ (s.pagingEnabled = false → t.mem = s.mem ∧ t.pageTable = s.pageTable
        ∧ t.nextFreePPage = s.nextFreePPage)

/-- Words written out from the encodings of the spec's own examples (30_encoding.md R132). -/
def Obligations.SampleWordsDecode : Prop :=
  decodeTableWord 32 0x0210FFFE = some (.loadi 1 0xFFFE)
  ∧ decodeTableWord 32 0x08650004 = some (.ldr 6 5 4)
  ∧ decodeTableWord 32 0x111F0001 = some (.sub 1 (.imm 1))
  ∧ decodeTableWord 32 0x12020000 = some (.adc 0 (.reg 2))
  ∧ decodeTableWord 32 0x22000008 = some (.jnz 8)
  ∧ decodeTableWord 32 0x30100000 = some (.push 1)
  ∧ decodeTableWord 32 0x40000005 = some (.int 5)
  ∧ decodeTableWord 32 0x51200000 = some (.fpop 2)

/-- 20_memory.md R71: the word a fetch reads is its four bytes, the lowest address the least
significant; the opcode is the byte at a+3 and bits 7:0 of imm16 the byte at a; the byte decoder reads
bytes in that order. -/
def Obligations.InstructionWordsAreLittleEndian : Prop :=
  (∀ (s s1 : State) (p : Nat), s.Reaches s.pc .word .fetch p s1 →
    ∃ w u, s.fetch = .ok w u ∧ w = s1.valueAt p .word
      ∧ opField w = s1.byteAt (p + 3) ∧ (immField w).setWidth 8 = s1.byteAt p)
  ∧ ∀ (m : OpcodeMap) (adm : Bool) (b0 b1 b2 b3 : Byte) (rest : List Byte),
    decode m adm (b0 :: b1 :: b2 :: b3 :: rest) =
      (decodeWord m adm (BitVec.ofNat 32 (b0.toNat + 256 * b1.toNat + 65536 * b2.toNat
        + 16777216 * b3.toNat))).map fun i => (i, rest)

/-! The cycle, `run` and the driver loop. -/

/-- A step runs the instruction that the bytes at pc decode to: the fetch leaves `s1` with its cache
read, and the step is `exec` there, settled if it faults (30_encoding.md R140): under `run`, and under the
driver loop where no preemption is chosen (60_exceptions.md R444). -/
def Obligations.StepRunsTheDecodedInstruction : Prop :=
  (∀ (s s1 : State) (p : Nat) (i : Instr), s.driver = .run → s.halted = false → s.suspend = .none →
    s.Reaches s.pc .word .fetch p s1 →
    decodeWord s.params.opcodeMap s.params.admitDecided (memRead s1.mem p .word) = .ok i →
    step s = settleOutcome s (exec i (s1.cacheRead s.pc (memRead s1.mem p .word))))
  ∧ ∀ (s s1 : State) (id p : Nat) (i : Instr), s.driver = .sched → s.running = some id →
    s.halted = false → s.suspend = .none → s.preemptsNow = false → s.Reaches s.pc .word .fetch p s1 →
    decodeWord s.params.opcodeMap s.params.admitDecided (memRead s1.mem p .word) = .ok i →
    step s = settleOutcome s (exec i (s1.cacheRead s.pc (memRead s1.mem p .word)))

/-- 60_exceptions.md R404: a fetch that faults halts the engine cleanly with the fetch's fault, whatever the
bytes at pc, and changes no register, flag, FP slot, pc or count; no cache entry or counter, and no device
sees it; nor, but for a page that the translation of an out-of-range fetch took, memory or the page table. -/
def Obligations.FetchFaultForcesACleanHalt : Prop :=
  ∀ (s : State) (f : FaultRec), s.accessFault s.pc .word .fetch = some f →
    ∃ t, s.engineStep = .next t ∧ t.outsideMemory = (s.haltedBy f).outsideMemory
      ∧ t.cache = s.cache ∧ t.cacheHits = s.cacheHits ∧ t.cacheMisses = s.cacheMisses
      ∧ t.deviceLog = s.deviceLog
      ∧ ((∀ a k, f ≠ .outOfRangeAccess s.pc a k) ∨ (∀ p u, s.translate s.pc = some (p, u) → u = s) →
        t.mem = s.mem ∧ t.pageTable = s.pageTable ∧ t.nextFreePPage = s.nextFreePPage)

/-- 30_encoding.md R141, 10_state.md R64: `run` repeats Step while the engine may step and the budget
lasts, returns at once when it may not, returns the reason it stopped, and can be entered again. Which reason
it returns where several hold is the model's choice (log entry 31). -/
def Obligations.RunRepeatsStep : Prop :=
  (∀ s : State, State.run 0 s = .next (s.stopReason, s))
  ∧ (∀ (n : Nat) (s : State), s.halted = true ∨ s.suspend ≠ .none →
      State.run n s = .next (s.stopReason, s))
  ∧ (∀ (n : Nat) (s t : State), s.halted = false → s.suspend = .none → s.engineStep = .next t →
      State.run (n + 1) s = State.run n t)
  ∧ (∀ (n : Nat) (s : State), ∃ r t, State.run n s = .next (r, t) ∧ r = t.stopReason
      ∧ (r = .budget ↔ t.halted = false ∧ t.suspend = .none))
  ∧ ∀ (n k : Nat) (s t : State) (r : StopReason), State.run n s = .next (r, t) →
      State.run (n + k) s = State.run k t

/-- The driver loop (60_exceptions.md R447) does what the rule lists for each reason the engine stopped. What
`step` does where no loop has been started or `run` is over is the model's choice (log entry 3: the faults
notStarted and engineHalted), as are its readings of the rules for `run` with suspend = yield, quota or
syscall (log entries 20, 25), of the loop's wait and stop (log entry 21), and of a halt while no thread is running,
which the loop does not look at (log entry 33). -/
def Obligations.DriverLoopAct : Prop :=
  (∀ s : State, s.driver = .off → step s = .fault .notStarted)
  ∧ (∀ s : State, s.driver = .run → s.halted = true → step s = .fault .engineHalted)
  ∧ (∀ s : State, s.driver = .run → s.halted = false → s.suspend = .yield ∨ s.suspend = .quota →
      step s = .next { s with suspend := .none })
  ∧ (∀ (s : State) (q : SyscallRequest), s.driver = .run → s.halted = false → s.suspend = .syscall q →
      step s = if s.answered then .fault .engineSuspended else .next s.kernelRespond)
  ∧ (∀ (s : State) (q : SyscallRequest) (id : Nat), s.driver = .sched → s.running = some id →
      s.halted = false → s.suspend = .syscall q → step s = .next s.kernelRespond)
  ∧ (∀ (s : State) (id : Nat), s.driver = .sched → s.running = some id → s.halted = true →
      step s = .next (s.terminate id))
  ∧ (∀ (s : State) (id : Nat), s.driver = .sched → s.running = some id → s.halted = false →
      s.suspend = .yield ∨ s.suspend = .quota → step s = .next s.yieldCurrent)
  ∧ (∀ s : State, s.driver = .sched → s.running = none →
      step s =
        if (popReady s.unblockDue.threads s.unblockDue.readyQueue).isSome ∨ s.unblockDue.someBlocked = true
        then .next s.unblockDue.scheduleNext.2 else .fault .nothingToRun)

/-! Reset. -/

/-- 10_state.md R48: every value reset gives, under any parameters. -/
def Obligations.ResetValues : Prop :=
  ∀ p : Params,
    let s := State.resetWith p
    (∀ i, s.readReg i = 0#32) ∧ s.pc = 0#32 ∧ s.flags = 0#32 ∧ s.fst = [] ∧ s.fdepth = 0
    ∧ s.halted = false ∧ s.fault = none ∧ s.suspend = .none ∧ (∀ n, Assoc.get s.ivt n = none)
    ∧ s.memSize = p.memInitSize ∧ (∀ q, s.byteAt q = 0#8)
    ∧ s.pagingEnabled = false ∧ (∀ n, Assoc.get s.pageTable n = none) ∧ s.nextFreePPage = p.physPoolBase
    ∧ s.regions = [] ∧ s.cache = [] ∧ s.cacheHits = 0 ∧ s.cacheMisses = 0 ∧ s.mmio = []
    ∧ (∀ x y, s.getPixel x y = 0) ∧ s.threads = [] ∧ s.readyQueue = [] ∧ s.running = none
    ∧ s.nextId = 0 ∧ s.totalInstret = 0 ∧ State.reset = State.resetWith Params.default

/-- The invariants hold at reset; the default parameters (log entry 2) are legal ones. -/
def Obligations.ResetMeetsTheInvariants : Prop :=
  Params.default.Valid ∧ State.reset.MemoryInv ∧ State.reset.PagesInv ∧ State.reset.CacheInv
  ∧ State.reset.FpInv ∧ State.reset.SchedulerInv ∧ State.reset.CountInv

/-! Register data movement. -/

/-- 40_data_movement.md R150, R151: LOADI and MOV, whole next state. -/
def Obligations.LoadiAndMovResults : Prop :=
  (∀ (s : State) (d : RegIdx) (imm : Half),
    exec (.loadi d imm) s =
      .next (s.after
        (s.regsWith d (BitVec.ofNat 32 (if imm.toNat < 0x8000 then imm.toNat else imm.toNat + 0xFFFF0000)))
        s.flags s.fst (s.pc + 4#32)))
  ∧ ∀ (s : State) (d r : RegIdx),
    exec (.mov d r) s = .next (s.after (s.regsWith d (s.readReg r)) s.flags s.fst (s.pc + 4#32))

/-! Integer ALU: the whole next state but for the flag word, and every bit of that. -/

/-- 42_integer_alu.md R200, R201: ADD and SUB, C and V as ADD_SUB_SET_CV says. -/
def Obligations.AddAndSubResults : Prop :=
  (∀ (s : State) (d : RegIdx) (b : Src),
    let x := s.readReg d
    let y := s.operand b
    ∃ fl, exec (.add d b) s = .next (s.after (s.regsWith d (x + y)) fl s.fst (s.pc + 4#32))
      ∧ FlagsBecome s.flags fl (decide (x + y = 0#32)) (x + y).msb
        (if s.params.addSubSetCV then decide (2 ^ 32 ≤ x.toNat + y.toNat) else s.flags.getLsbD 2)
        (if s.params.addSubSetCV then (~~~(x ^^^ y) &&& (x ^^^ (x + y))).msb else s.flags.getLsbD 3))
  ∧ ∀ (s : State) (d : RegIdx) (b : Src),
    let x := s.readReg d
    let y := s.operand b
    ∃ fl, exec (.sub d b) s = .next (s.after (s.regsWith d (x - y)) fl s.fst (s.pc + 4#32))
      ∧ FlagsBecome s.flags fl (decide (x - y = 0#32)) (x - y).msb
        (if s.params.addSubSetCV then decide (x.toNat < y.toNat) else s.flags.getLsbD 2)
        (if s.params.addSubSetCV then ((x ^^^ y) &&& (x ^^^ (x - y))).msb else s.flags.getLsbD 3)

/-- 42_integer_alu.md R202, R203: ADC and SBC, the carry (a borrow in SBC) coming in and going out. -/
def Obligations.AdcAndSbcResults : Prop :=
  (∀ (s : State) (d : RegIdx) (b : Src),
    let x := s.readReg d
    let y := s.operand b
    let c := (s.flags.getLsbD 2).toNat
    let r := x + y + BitVec.ofNat 32 c
    ∃ fl, exec (.adc d b) s = .next (s.after (s.regsWith d r) fl s.fst (s.pc + 4#32))
      ∧ FlagsBecome s.flags fl (decide (r = 0#32)) r.msb (decide (2 ^ 32 ≤ x.toNat + y.toNat + c))
        (~~~(x ^^^ y) &&& (x ^^^ r)).msb)
  ∧ ∀ (s : State) (d : RegIdx) (b : Src),
    let x := s.readReg d
    let y := s.operand b
    let c := (s.flags.getLsbD 2).toNat
    let r := x - y - BitVec.ofNat 32 c
    ∃ fl, exec (.sbc d b) s = .next (s.after (s.regsWith d r) fl s.fst (s.pc + 4#32))
      ∧ FlagsBecome s.flags fl (decide (r = 0#32)) r.msb (decide (x.toNat < y.toNat + c))
        ((x ^^^ y) &&& (x ^^^ r)).msb

/-- 42_integer_alu.md R204 to R206, R217: MUL, and DIV and MOD in each DIV_MODE; a zero divisor gives 0
with V set and no fault. -/
def Obligations.MulDivModResults : Prop :=
  (∀ (s : State) (d : RegIdx) (b : Src),
    let r := s.readReg d * s.operand b
    ∃ fl, exec (.mul d b) s = .next (s.after (s.regsWith d r) fl s.fst (s.pc + 4#32))
      ∧ r = BitVec.ofInt 32 ((s.readReg d).toInt * (s.operand b).toInt)
      ∧ FlagsBecome s.flags fl (decide (r = 0#32)) r.msb (s.flags.getLsbD 2) (s.flags.getLsbD 3))
  ∧ (∀ (s : State) (d : RegIdx) (b : Src),
    let x := s.readReg d
    let y := s.operand b
    let r := if y = 0#32 then 0#32
      else if s.params.divMode = .unsigned then x / y
      else if s.params.divMode = .signedTrunc then BitVec.ofInt 32 (x.toInt.tdiv y.toInt)
      else BitVec.ofInt 32 (x.toInt.fdiv y.toInt)
    ∃ fl, exec (.div d b) s = .next (s.after (s.regsWith d r) fl s.fst (s.pc + 4#32))
      ∧ FlagsBecome s.flags fl (decide (r = 0#32)) r.msb (s.flags.getLsbD 2) (decide (y = 0#32)))
  ∧ ∀ (s : State) (d : RegIdx) (b : Src),
    let x := s.readReg d
    let y := s.operand b
    let r := if y = 0#32 then 0#32
      else if s.params.divMode = .unsigned then x % y
      else if s.params.divMode = .signedTrunc then BitVec.ofInt 32 (x.toInt.tmod y.toInt)
      else BitVec.ofInt 32 (x.toInt.fmod y.toInt)
    ∃ fl, exec (.mod d b) s = .next (s.after (s.regsWith d r) fl s.fst (s.pc + 4#32))
      ∧ FlagsBecome s.flags fl (decide (r = 0#32)) r.msb (s.flags.getLsbD 2) (decide (y = 0#32))

/-- 42_integer_alu.md R207: CMP writes no register; after it Z is equality, C the unsigned order, and N
differing from V the signed order. -/
def Obligations.CmpOrdersItsOperands : Prop :=
  ∀ (s : State) (d : RegIdx) (b : Src),
    let x := s.readReg d
    let y := s.operand b
    ∃ fl, exec (.cmp d b) s = .next (s.after s.regs fl s.fst (s.pc + 4#32))
      ∧ FlagsBecome s.flags fl (decide (x - y = 0#32)) (x - y).msb (decide (x.toNat < y.toNat))
        ((x ^^^ y) &&& (x ^^^ (x - y))).msb
      ∧ (fl.getLsbD 0 = true ↔ x = y) ∧ (fl.getLsbD 2 = true ↔ x.toNat < y.toNat)
      ∧ (fl.getLsbD 1 ≠ fl.getLsbD 3 ↔ x.toInt < y.toInt)

/-- 42_integer_alu.md R208 to R211: AND, OR, XOR and NOT. -/
def Obligations.LogicResults : Prop :=
  ∀ (s : State) (d : RegIdx) (b : Src),
    let does := fun (i : Instr) (r : Word) =>
      ∃ fl, exec i s = .next (s.after (s.regsWith d r) fl s.fst (s.pc + 4#32))
        ∧ FlagsBecome s.flags fl (decide (r = 0#32)) r.msb (s.flags.getLsbD 2) (s.flags.getLsbD 3)
    does (.and d b) (s.readReg d &&& s.operand b) ∧ does (.or d b) (s.readReg d ||| s.operand b)
    ∧ does (.xor d b) (s.readReg d ^^^ s.operand b) ∧ does (.not d) (~~~(s.readReg d))

/-- 42_integer_alu.md R212 to R215, 30_encoding.md R130: the shifts and rotates by the operand modulo 32, bit
by bit; ROR by k is ROL by 32 - k. -/
def Obligations.ShiftAndRotateResults : Prop :=
  (∀ (s : State) (d : RegIdx) (b : Src),
    let x := s.readReg d
    let k := (s.operand b).toNat % 32
    let does := fun (i : Instr) (r : Word) =>
      ∃ fl, exec i s = .next (s.after (s.regsWith d r) fl s.fst (s.pc + 4#32))
        ∧ FlagsBecome s.flags fl (decide (r = 0#32)) r.msb (s.flags.getLsbD 2) (s.flags.getLsbD 3)
    does (.shl d b) (BitVec.ofNat 32 (x.toNat * 2 ^ k)) ∧ does (.shr d b) (BitVec.ofNat 32 (x.toNat / 2 ^ k))
    ∧ (∃ r, does (.rol d b) r ∧ ∀ j, j < 32 → r.getLsbD ((j + k) % 32) = x.getLsbD j)
    ∧ (∃ r, does (.ror d b) r ∧ ∀ j, j < 32 → r.getLsbD j = x.getLsbD ((j + k) % 32)))
  ∧ ∀ (x : Word) (k : Nat), 0 < k → k < 32 → rotr x k = rotl x (32 - k)

/-- 42_integer_alu.md R216: ADD then SUB of one operand, an immediate or a register other than the
destination, restores the destination, and every other register, whatever ADD_SUB_SET_CV. -/
def Obligations.AddThenSubRestores : Prop :=
  ∀ (s : State) (d : RegIdx) (b : Src), b ≠ .reg d →
    ∃ t u, exec (.add d b) s = .next t ∧ exec (.sub d b) t = .next u ∧ u.regs = s.regs

/-! Loads, stores and the stack. -/

/-- 41_load_store.md R170, R172, R174, R176: a load that faults halts with the access's fault; one that reaches
memory writes the little-endian, zero-extended bytes to its destination and changes no byte; one in an
MMIO range writes the handler's answer, of its width. -/
def Obligations.LoadsFollowTheirRules : Prop :=
  ∀ (s : State) (i : Instr) (d : RegIdx) (a : Word) (w : Width), loadForm s i = some (d, a, w) →
    (∀ f, s.accessFault a w .load = some f → ∃ u, s.Touched a u ∧ exec i s = .next (u.haltedBy f))
    ∧ (∀ p s1, s.Reaches a w .load p s1 →
        exec i s = .next ((s1.cacheRead a (s1.valueAt p w)).after (s.regsWith d (s1.valueAt p w)) s.flags
          s.fst (s.pc + 4#32))
        ∧ ∀ t, exec i s = .next t → ∀ q, t.byteAt q = s1.byteAt q)
    ∧ ∀ h, s.ReachesDevice a w .load h →
        ∃ v, v.toNat < 2 ^ (8 * w.bytes)
          ∧ exec i s = .next ((s.sendDevice (h.request a w none)).after (s.regsWith d v) s.flags s.fst
            (s.pc + 4#32))

/-- 41_load_store.md R171, R173, R175, R177: a store that faults halts with the access's fault; one that
reaches memory writes the low bytes of its register and no other byte, and no register; one in an MMIO
range sends them to the handler and writes no byte. -/
def Obligations.StoresFollowTheirRules : Prop :=
  ∀ (s : State) (i : Instr) (d : RegIdx) (a : Word) (w : Width), storeForm s i = some (d, a, w) →
    (∀ f, s.accessFault a w .store = some f → ∃ u, s.Touched a u ∧ exec i s = .next (u.haltedBy f))
    ∧ (∀ p s1, s.Reaches a w .store p s1 →
        ∃ t, exec i s = .next t
          ∧ t.outsideMemory = (s.after s.regs s.flags s.fst (s.pc + 4#32)).outsideMemory
          ∧ (∀ q, t.byteAt q =
              if p ≤ q ∧ q < p + w.bytes then (s.readReg d).extractLsb' (8 * (q - p)) 8 else s1.byteAt q)
          ∧ t.pageTable = s1.pageTable ∧ t.nextFreePPage = s1.nextFreePPage
          ∧ t.cache = Assoc.erase s.cache a.toNat ∧ t.cacheHits = s.cacheHits
          ∧ t.cacheMisses = s.cacheMisses ∧ t.deviceLog = s.deviceLog)
    ∧ ∀ h, s.ReachesDevice a w .store h →
        exec i s = .next ((s.sendDevice (h.request a w
          (some (BitVec.ofNat 32 ((s.readReg d).toNat % 2 ^ (8 * w.bytes)))))).after s.regs s.flags s.fst
          (s.pc + 4#32))

/-- 20_memory.md R77, R80 (R74, R78, R87, R91): an access faults exactly when `accessFault` says so, with the
fault that comes first in the order misaligned, protection, page, range, and otherwise succeeds. -/
def Obligations.AccessFaultsInOrder : Prop :=
  (∀ (s : State) (a : Word) (w : Width) (k : AccessKind),
    (∀ f, s.accessFault a w k = some f ↔ ∃ u, s.load a w k = .trap f u)
    ∧ ∀ f u, s.load a w k = .trap f u → s.Touched a u)
  ∧ ∀ (s : State) (a : Word) (w : Width) (v : Word),
    (∀ f, s.accessFault a w .store = some f ↔ ∃ u, s.store a w v = .trap f u)
    ∧ ∀ f u, s.store a w v = .trap f u → s.Touched a u

/-- 20_memory.md R82: a store, a push or a call into a byte of a region without PERM_WRITE faults and
changes nothing: no byte, no register. -/
def Obligations.ReadOnlyRegionKeepsItsBytes : Prop :=
  ∀ (s : State) (i : Instr) (a : Word) (w : Width) (g : Region) (n : Nat),
    firstAccess s i = some (.store, a, w) → (w = .word → a.toNat % 4 = 0) → g ∈ s.regions →
    n < w.bytes → g.base ≤ a.toNat + n → a.toNat + n < g.base + g.length →
    g.perm.testBit s.params.permWrite = false →
    exec i s = .next (s.haltedBy (.protectionViolation s.pc a .store))

/-- 20_memory.md R84, R85, R86, R87: identity with paging off; the mapped page where there is one; else the next
page, zeroed, mapped and taken; and where no page is free OutOfMemory, with nothing changed. -/
def Obligations.TranslationRule : Prop :=
  (∀ (s : State) (a : Word), s.pagingEnabled = false → s.translate a = some (a.toNat, s))
  ∧ ∀ (s : State) (a : Word), s.pagingEnabled = true →
    let vpn := a.toNat / s.params.pageSize
    let off := a.toNat % s.params.pageSize
    (∀ ppn, Assoc.get s.pageTable vpn = some ppn →
      s.translate a = some (ppn * s.params.pageSize + off, s))
    ∧ (Assoc.get s.pageTable vpn = none → s.memSize < (s.nextFreePPage + 1) * s.params.pageSize →
      s.translate a = none
      ∧ (∀ w k, s.Admits a w k → s.load a w k = .trap (.outOfMemory s.pc a k) s)
      ∧ ∀ w v, s.Admits a w .store → s.store a w v = .trap (.outOfMemory s.pc a .store) s)
    ∧ (Assoc.get s.pageTable vpn = none → (s.nextFreePPage + 1) * s.params.pageSize ≤ s.memSize →
      ∃ t, s.translate a = some (s.nextFreePPage * s.params.pageSize + off, t)
        ∧ (∀ n, Assoc.get t.pageTable n = if n = vpn then some s.nextFreePPage else Assoc.get s.pageTable n)
        ∧ t.nextFreePPage = s.nextFreePPage + 1
        ∧ (∀ q, t.byteAt q =
            if s.nextFreePPage * s.params.pageSize ≤ q ∧ q < (s.nextFreePPage + 1) * s.params.pageSize
            then 0#8 else s.byteAt q)
        ∧ t = { s with mem := t.mem, pageTable := t.pageTable, nextFreePPage := t.nextFreePPage })

/-- 20_memory.md R72: data words are little-endian, byte by byte. -/
def Obligations.DataWordsAreLittleEndian : Prop :=
  (∀ (s : State) (p : Nat) (w : Width), memRead s.mem p w = s.valueAt p w)
  ∧ ∀ (m : List Host.Cell) (p : Nat) (v : Word),
    (∀ k, k < 4 → memByte (memWrite m p .word v) (p + k) = v.extractLsb' (8 * k) 8)
    ∧ memByte (memWrite m p .byte v) p = v.extractLsb' 0 8
    ∧ (∀ q, q < p ∨ p + 4 ≤ q → memByte (memWrite m p .word v) q = memByte m q)
    ∧ ∀ q, q ≠ p → memByte (memWrite m p .byte v) q = memByte m q

/-- A load reads what the store before it wrote at the address, a word or a byte (20_memory.md R105),
whatever the cache holds; the store reaches memory and every region grants reads. -/
def Obligations.LoadReturnsTheLastStore : Prop :=
  ∀ (s : State) (d e : RegIdx) (imm : Half) (p : Nat) (s1 : State),
    (∀ g ∈ s.regions, g.perm.testBit s.params.permRead = true) →
    (s.Reaches (imm.setWidth 32) .word .store p s1 →
      ∃ t u, exec (.store d imm) s = .next t ∧ exec (.load e imm) t = .next u
        ∧ u.readReg e = s.readReg d ∧ ∀ q, u.byteAt q = t.byteAt q)
    ∧ (s.Reaches (imm.setWidth 32) .byte .store p s1 →
      ∃ t u, exec (.storeb d imm) s = .next t ∧ exec (.loadb e imm) t = .next u
        ∧ u.readReg e = s.readReg d &&& 0xFF#32 ∧ ∀ q, u.byteAt q = t.byteAt q)

/-- 20_memory.md R94, R96: what a read and a write do to the cache and its counters; a full cache loses
exactly one entry, any one (of a cache in its one form). -/
def Obligations.CacheBookkeeping : Prop :=
  (∀ (s : State) (a v w : Word), Assoc.get s.cache a.toNat = some w →
    let t := s.cacheRead a v
    t.cacheHits = s.cacheHits + 1 ∧ t.cacheMisses = s.cacheMisses
    ∧ ∀ n, Assoc.get t.cache n = if n = a.toNat then some v else Assoc.get s.cache n)
  ∧ (∀ (s : State) (a v : Word), Assoc.get s.cache a.toNat = none →
    s.cache.length < s.params.cacheCapacity →
    let t := s.cacheRead a v
    t.cacheHits = s.cacheHits ∧ t.cacheMisses = s.cacheMisses + 1
    ∧ ∀ n, Assoc.get t.cache n = if n = a.toNat then some v else Assoc.get s.cache n)
  ∧ (∀ (s : State) (a v : Word), Assoc.Rising s.cache → Assoc.get s.cache a.toNat = none →
    s.params.cacheCapacity ≤ s.cache.length → 0 < s.cache.length →
    let t := s.cacheRead a v
    t.cacheHits = s.cacheHits ∧ t.cacheMisses = s.cacheMisses + 1
    ∧ ∃ k, (Assoc.get s.cache k).isSome = true
      ∧ ∀ n, Assoc.get t.cache n =
        if n = a.toNat then some v else if n = k then none else Assoc.get s.cache n)
  ∧ ∀ (s : State) (a : Word) (n : Nat),
    Assoc.get (s.cacheInvalidate a).cache n = if n = a.toNat then none else Assoc.get s.cache n

/-- 20_memory.md R95: whatever the cache holds, an access has the same result and leaves the same state
outside the cache, its counters and the draws. -/
def Obligations.CacheNeverChangesAResult : Prop :=
  ∀ (s s' : State), s' = { s with cache := s'.cache, cacheHits := s'.cacheHits, cacheMisses := s'.cacheMisses } →
    (∀ (a : Word) (w : Width) (k : AccessKind),
      (∀ v t, s.load a w k = .ok v t →
        ∃ t', s'.load a w k = .ok v t' ∧ t'.withoutCache = t.withoutCache)
      ∧ ∀ f t, s.load a w k = .trap f t →
        ∃ t', s'.load a w k = .trap f t' ∧ t'.withoutCache = t.withoutCache)
    ∧ ∀ (a : Word) (w : Width) (x : Word),
      (∀ v t, s.store a w x = .ok v t →
        ∃ t', s'.store a w x = .ok v t' ∧ t'.withoutCache = t.withoutCache)
      ∧ ∀ f t, s.store a w x = .trap f t →
        ∃ t', s'.store a w x = .trap f t' ∧ t'.withoutCache = t.withoutCache

/-- 20_memory.md R91, R92, R93: an access goes to the earliest registered range that holds its start address,
relative to that range's base, with its own width; it changes no byte, page or cache entry, and needs
no page and no bound. -/
def Obligations.MmioDispatch : Prop :=
  (∀ (s : State) (a : Word) (h : MmioRange), s.mmioAt a = some h ↔
    ∃ before after, s.mmio = before ++ h :: after ∧ h.base ≤ a.toNat ∧ a.toNat < h.base + h.length
      ∧ ∀ g ∈ before, ¬ (g.base ≤ a.toNat ∧ a.toNat < g.base + g.length))
  ∧ (∀ (s : State) (a : Word) (w : Width) (k : AccessKind) (h : MmioRange), s.ReachesDevice a w k h →
    ∃ v, v.toNat < 2 ^ (8 * w.bytes)
      ∧ s.load a w k = .ok v { s with
          deviceLog := { handler := h.handler, offset := a.toNat - h.base, width := w, value := none } :: s.deviceLog
          draws := s.draws + 1 })
  ∧ ∀ (s : State) (a : Word) (w : Width) (v : Word) (h : MmioRange), s.ReachesDevice a w .store h →
    s.store a w v = .ok () { s with
      deviceLog := { handler := h.handler, offset := a.toNat - h.base, width := w
                     value := some (BitVec.ofNat 32 (v.toNat % 2 ^ (8 * w.bytes))) } :: s.deviceLog
      draws := s.draws + 1 }

/-- 41_load_store.md R178, R179, 00_scope.md R14: PUSH stores the register's value below R14 and then moves R14;
POP loads at R14, moves R14 and then writes its destination; on a fault of the access neither changes
a register. -/
def Obligations.PushAndPopFollowTheirRules : Prop :=
  (∀ (s : State) (d : RegIdx),
    let a := s.readReg 14#4 - 4#32
    (∀ f, s.accessFault a .word .store = some f →
      ∃ u, s.Touched a u ∧ exec (.push d) s = .next (u.haltedBy f))
    ∧ (∀ p s1, s.Reaches a .word .store p s1 →
      ∃ t, exec (.push d) s = .next t
        ∧ t.outsideMemory = (s.after (s.regsWith 14#4 a) s.flags s.fst (s.pc + 4#32)).outsideMemory
        ∧ (∀ q, t.byteAt q =
            if p ≤ q ∧ q < p + 4 then (s.readReg d).extractLsb' (8 * (q - p)) 8 else s1.byteAt q)
        ∧ t.pageTable = s1.pageTable ∧ t.nextFreePPage = s1.nextFreePPage)
    ∧ ∀ h, s.ReachesDevice a .word .store h →
      exec (.push d) s = .next ((s.sendDevice (h.request a .word (some (s.readReg d)))).after
        (s.regsWith 14#4 a) s.flags s.fst (s.pc + 4#32)))
  ∧ ∀ (s : State) (d : RegIdx),
    let a := s.readReg 14#4
    let regs := fun v => (s.writeReg 14#4 (a + 4#32)).regsWith d v
    (∀ f, s.accessFault a .word .load = some f →
      ∃ u, s.Touched a u ∧ exec (.pop d) s = .next (u.haltedBy f))
    ∧ (∀ p s1, s.Reaches a .word .load p s1 →
      exec (.pop d) s = .next ((s1.cacheRead a (s1.valueAt p .word)).after (regs (s1.valueAt p .word))
        s.flags s.fst (s.pc + 4#32))
      ∧ ∀ t, exec (.pop d) s = .next t → ∀ q, t.byteAt q = s1.byteAt q)
    ∧ ∀ h, s.ReachesDevice a .word .load h →
      ∃ v, exec (.pop d) s = .next ((s.sendDevice (h.request a .word none)).after (regs v) s.flags s.fst
        (s.pc + 4#32))

/-- 41_load_store.md R180: N pushes and then N pops restore R14 and give the values back in reverse, where the
N words below R14 are plain memory and the pops go to N registers other than R14. A pushed R14 is the
value it held before its own push (R178). -/
def Obligations.PushesThenPopsReverse : Prop :=
  ∀ (s : State) (ds es : List RegIdx), ds.length = es.length → es.Nodup → 14#4 ∉ es →
    ds.length ≤ 2 ^ 30 →
    (∀ k, k < ds.length → s.PlainWord (s.readReg 14#4 - BitVec.ofNat 32 (4 * (k + 1))) .store
      ∧ s.PlainWord (s.readReg 14#4 - BitVec.ofNat 32 (4 * (k + 1))) .load) →
    ∃ t, execList (ds.map .push ++ es.map .pop) s = .next t ∧ t.readReg 14#4 = s.readReg 14#4
      ∧ (∀ (k : Nat) (d e : RegIdx), k < ds.length → ds[k]? = some d →
          es[ds.length - 1 - k]? = some e →
          t.readReg e = if d = 14#4 then s.readReg 14#4 - BitVec.ofNat 32 (4 * k) else s.readReg d)
      ∧ ∀ r, r ∉ es → t.readReg r = s.readReg r

/-! Control transfer. -/

/-- 43_control_transfer.md R250, R252 to R259: each jump, taken or not, writes pc and nothing else; the target is
the zero-extended immediate, unchecked. -/
def Obligations.JumpResults : Prop :=
  ∀ (s : State) (imm : Half),
    let goes := fun (i : Instr) (taken : Bool) =>
      exec i s = .next (s.after s.regs s.flags s.fst (if taken then imm.setWidth 32 else s.pc + 4#32))
    goes (.jmp imm) true
    ∧ goes (.jz imm) (s.flags.getLsbD 0) ∧ goes (.jnz imm) (!s.flags.getLsbD 0)
    ∧ goes (.jn imm) (s.flags.getLsbD 1) ∧ goes (.jnn imm) (!s.flags.getLsbD 1)
    ∧ goes (.jc imm) (s.flags.getLsbD 2) ∧ goes (.jnc imm) (!s.flags.getLsbD 2)
    ∧ goes (.jo imm) (s.flags.getLsbD 3) ∧ goes (.jno imm) (!s.flags.getLsbD 3)

/-- 43_control_transfer.md R260, R261: CALL pushes pc + 4 and jumps; RET pops the pc; on a fault of the access
R14 and pc stay. -/
def Obligations.CallAndRetFollowTheirRules : Prop :=
  (∀ (s : State) (imm : Half),
    let a := s.readReg 14#4 - 4#32
    (∀ f, s.accessFault a .word .store = some f →
      ∃ u, s.Touched a u ∧ exec (.call imm) s = .next (u.haltedBy f))
    ∧ (∀ p s1, s.Reaches a .word .store p s1 →
      ∃ t, exec (.call imm) s = .next t
        ∧ t.outsideMemory = (s.after (s.regsWith 14#4 a) s.flags s.fst (imm.setWidth 32)).outsideMemory
        ∧ (∀ q, t.byteAt q =
            if p ≤ q ∧ q < p + 4 then (s.pc + 4#32).extractLsb' (8 * (q - p)) 8 else s1.byteAt q)
        ∧ t.pageTable = s1.pageTable ∧ t.nextFreePPage = s1.nextFreePPage)
    ∧ ∀ h, s.ReachesDevice a .word .store h →
      exec (.call imm) s = .next ((s.sendDevice (h.request a .word (some (s.pc + 4#32)))).after
        (s.regsWith 14#4 a) s.flags s.fst (imm.setWidth 32)))
  ∧ ∀ (s : State),
    let a := s.readReg 14#4
    (∀ f, s.accessFault a .word .load = some f → ∃ u, s.Touched a u ∧ exec .ret s = .next (u.haltedBy f))
    ∧ (∀ p s1, s.Reaches a .word .load p s1 →
      exec .ret s = .next ((s1.cacheRead a (s1.valueAt p .word)).after (s.regsWith 14#4 (a + 4#32)) s.flags
        s.fst (s1.valueAt p .word))
      ∧ ∀ t, exec .ret s = .next t → ∀ q, t.byteAt q = s1.byteAt q)
    ∧ ∀ h, s.ReachesDevice a .word .load h →
      ∃ v, exec .ret s = .next ((s.sendDevice (h.request a .word none)).after (s.regsWith 14#4 (a + 4#32))
        s.flags s.fst v)

/-! System instructions. -/

/-- 44_system.md R280, R281, R290, R293: HALT stops the engine with no fault and the pc in place; NOP only
advances the pc; SYSCALL advances it and hands R0 to R3 to the kernel; YIELD advances it and waits. -/
def Obligations.SystemInstructionResults : Prop :=
  ∀ s : State,
    exec .halt s = .next { s.after s.regs s.flags s.fst s.pc with halted := true, fault := none }
    ∧ exec .nop s = .next (s.after s.regs s.flags s.fst (s.pc + 4#32))
    ∧ exec .syscall s = .next { s.after s.regs s.flags s.fst (s.pc + 4#32) with
        suspend := .syscall { num := s.readReg 0#4, a1 := s.readReg 1#4, a2 := s.readReg 2#4, a3 := s.readReg 3#4 }
        answered := false }
    ∧ exec .yield s = .next { s.after s.regs s.flags s.fst (s.pc + 4#32) with suspend := .yield }

/-- 44_system.md R282, 60_exceptions.md R411: INT pushes pc + 4 and then the flag word as it was, clears IE and goes
to the installed handler, else to pc + 4; a fault of either push leaves every register, the flags and the
pc. -/
def Obligations.IntFollowsItsRule : Prop :=
  ∀ (s : State) (n : Half),
    let sp := s.readReg 14#4
    let target := match Assoc.get s.ivt n.toNat with
      | some h => h
      | none => s.pc + 4#32
    (∀ f, s.accessFault (sp - 4#32) .word .store = some f →
      ∃ u, s.Touched (sp - 4#32) u ∧ exec (.int n) s = .next (u.haltedBy f))
    ∧ (∀ s1 f, s.push32 (s.pc + 4#32) = .ok () s1 →
      s1.accessFault (sp - 8#32) .word .store = some f →
      ∃ u, s1.Touched (sp - 8#32) u ∧ exec (.int n) s = .next ({ u with regs := s.regs }.haltedBy f))
    ∧ (∀ s1 s2, s.push32 (s.pc + 4#32) = .ok () s1 → s1.push32 s.flags = .ok () s2 →
      exec (.int n) s = .next (s2.after (s.regsWith 14#4 (sp - 8#32)) (s.flags &&& 0xFFFFFFEF#32) s.fst target))
    ∧ (s.PlainWord (sp - 4#32) .store → s.PlainWord (sp - 8#32) .store →
      ∃ t, exec (.int n) s = .next t
        ∧ t.outsideMemory =
          (s.after (s.regsWith 14#4 (sp - 8#32)) (s.flags &&& 0xFFFFFFEF#32) s.fst target).outsideMemory
        ∧ t.pageTable = s.pageTable ∧ t.nextFreePPage = s.nextFreePPage
        ∧ ∀ q, t.byteAt q =
          if (sp - 4#32).toNat ≤ q ∧ q < (sp - 4#32).toNat + 4 then
            (s.pc + 4#32).extractLsb' (8 * (q - (sp - 4#32).toNat)) 8
          else if (sp - 8#32).toNat ≤ q ∧ q < (sp - 8#32).toNat + 4 then
            s.flags.extractLsb' (8 * (q - (sp - 8#32).toNat)) 8
          else s.byteAt q)

/-- 44_system.md R283, 60_exceptions.md R412: IRET pops the flag word and then the pc, and sets IE whatever was
popped; a fault of either pop leaves R14, the flags and the pc. -/
def Obligations.IretFollowsItsRule : Prop :=
  ∀ s : State,
    let sp := s.readReg 14#4
    (∀ f, s.accessFault sp .word .load = some f →
      ∃ u, s.Touched sp u ∧ exec .iret s = .next (u.haltedBy f))
    ∧ (∀ fl s1 f, s.pop32 = .ok fl s1 → s1.accessFault (sp + 4#32) .word .load = some f →
      ∃ u, s1.Touched (sp + 4#32) u ∧ exec .iret s = .next ({ u with regs := s.regs }.haltedBy f))
    ∧ (∀ fl s1 pc s2, s.pop32 = .ok fl s1 → s1.pop32 = .ok pc s2 →
      exec .iret s = .next (s2.after (s.regsWith 14#4 (sp + 8#32)) (fl ||| 0x10#32) s.fst pc))
    ∧ (s.PlainWord sp .load → s.PlainWord (sp + 4#32) .load →
      ∃ t, exec .iret s = .next t
        ∧ t.outsideMemory = (s.after (s.regsWith 14#4 (sp + 8#32)) (s.valueAt sp.toNat .word ||| 0x10#32) s.fst
          (s.valueAt (sp + 4#32).toNat .word)).outsideMemory
        ∧ t.pageTable = s.pageTable ∧ ∀ q, t.byteAt q = s.byteAt q)

/-- INT and then, after any handler that leaves R14, memory and its regions as INT left them, IRET: the pc
is the word after the INT, R14 and every flag are as before the INT, but for IE, which is set, and the
other registers as the handler left them; the two words below R14 are plain memory (60_exceptions.md R411,
R412, R413). -/
def Obligations.IretReturnsFromInt : Prop :=
  ∀ (s : State) (n : Half), s.PlainWord (s.readReg 14#4 - 4#32) .store →
    s.PlainWord (s.readReg 14#4 - 8#32) .store → s.PlainWord (s.readReg 14#4 - 4#32) .load →
    s.PlainWord (s.readReg 14#4 - 8#32) .load →
    ∃ t, exec (.int n) s = .next t ∧
      ∀ handled : State, handled.mem = t.mem → handled.memSize = t.memSize →
        handled.pagingEnabled = t.pagingEnabled → handled.regions = t.regions → handled.mmio = t.mmio →
        handled.params = t.params → handled.readReg 14#4 = t.readReg 14#4 →
        ∃ u, exec .iret handled = .next u ∧ u.pc = s.pc + 4#32 ∧ u.readReg 14#4 = s.readReg 14#4
          ∧ (∀ r, r ≠ 14#4 → u.readReg r = handled.readReg r)
          ∧ ∀ k, k < 32 → u.flags.getLsbD k = if k = 4 then true else s.flags.getLsbD k

/-- 44_system.md R291: the kernel's response writes R0 and the pc as it says, acts through the host's memory
and scheduler operations, may halt, and writes no other register, no flag and no FP slot; the engine
goes on unless the thread no longer runs, and then its request stays in `suspend`, answered. That the acts
are those of HostOp.kernelMay and come after R0 and the pc is the model's choice (log entries 12, 25), and so
is that a response which takes the caller away and halts does both (log entry 33). -/
def Obligations.KernelResponseCompletesTheSyscall : Prop :=
  ∀ s : State,
    let r := Config.kernelResponse s
    let t := s.kernelRespond
    t.readReg 0#4 = r.r0.getD (s.readReg 0#4) ∧ (∀ i, i ≠ 0#4 → t.readReg i = s.readReg i)
    ∧ t.pc = r.pc.getD s.pc ∧ t.flags = s.flags ∧ t.fst = s.fst ∧ t.halted = (s.halted || r.halt)
    ∧ t.suspend = (if t.running = s.running then .none else s.suspend)
    ∧ t.answered = decide (t.running ≠ s.running)
    ∧ ∃ u, u = (r.acts.filter HostOp.kernelMay).foldl State.host
        { s with regs := t.regs, pc := t.pc, draws := s.draws + 1 }
      ∧ t = { u with halted := t.halted, suspend := t.suspend, answered := t.answered }

/-! The FP stack. -/

/-- 45_fp_stack.md R320, R321, R310: FPUSH pushes the register as a signed integer, and overflows at depth 8;
FPOP pops into the register, underflows at depth 0, and has no answer where toInt has none; a fault
changes nothing. What fromInt and toInt are under binary64 is IntegerCrossesTheFpStack. -/
def Obligations.FpushAndFpopResults : Prop :=
  (∀ (s : State) (d : RegIdx),
    exec (.fpush d) s =
      if s.fst.length < 8 then
        .next (s.after s.regs s.flags (fpFromInt s.params.fpCfg (s.readReg d).toInt :: s.fst) (s.pc + 4#32))
      else .next (s.haltedBy (.stackOverflow s.pc)))
  ∧ ∀ (s : State) (d : RegIdx),
    (s.fst = [] → exec (.fpop d) s = .next (s.haltedBy (.stackUnderflow s.pc)))
    ∧ ∀ v rest, s.fst = v :: rest →
      (fpToInt s.params.fpCfg v = none → exec (.fpop d) s = .next (s.haltedBy (.fpError s.pc)))
      ∧ ∀ r, fpToInt s.params.fpCfg v = some r →
        exec (.fpop d) s = .next (s.after (s.regsWith d r) s.flags rest (s.pc + 4#32))

/-- 45_fp_stack.md R322 to R325: the operand below the top first, the top second; fewer than two entries is
StackUnderflow; FDIV with no answer is FPError; a fault changes nothing. What the operations are under
binary64 is FpRoundsToNearestEven. -/
def Obligations.FpArithmeticResults : Prop :=
  ∀ s : State,
    let cfg := s.params.fpCfg
    (s.fst.length < 2 → ∀ i ∈ [Instr.fadd, .fsub, .fmul, .fdiv],
      exec i s = .next (s.haltedBy (.stackUnderflow s.pc)))
    ∧ ∀ b a rest, s.fst = b :: a :: rest →
      let leaves := fun (i : Instr) (q : Fp) =>
        exec i s = .next (s.after s.regs s.flags (q :: rest) (s.pc + 4#32))
      leaves .fadd (fpAdd cfg a b) ∧ leaves .fsub (fpSub cfg a b) ∧ leaves .fmul (fpMul cfg a b)
      ∧ (∀ q, fpDiv cfg a b = some q → leaves .fdiv q)
      ∧ (fpDiv cfg a b = none → exec .fdiv s = .next (s.haltedBy (.fpError s.pc)))

/-- Under binary64 every 32-bit integer goes onto an FP stack with a free slot and back unchanged; fromInt is
exact; toInt has no answer exactly for NaN and the infinities, and else truncates toward zero modulo 2^32.
It formalises the spec's default numerics, which 45_fp_stack.md R311 marks as general knowledge. -/
def Obligations.IntegerCrossesTheFpStack : Prop :=
  (∀ (s : State) (d e : RegIdx), s.params.fpCfg = .binary64 → s.fst.length < 8 →
    ∃ t u, exec (.fpush d) s = .next t ∧ exec (.fpop e) t = .next u
      ∧ u.regs = s.regsWith e (s.readReg d) ∧ u.fst = s.fst ∧ u.flags = s.flags
      ∧ u.pc = s.pc + 8#32)
  ∧ (∀ r : Word, ∃ m q, fpFromInt .binary64 r.toInt = .fin r.msb m q
    ∧ m * 2 ^ q.toNat = r.toInt.natAbs * 2 ^ (-q).toNat)
  ∧ (∀ v : Fp, fpToInt .binary64 v = none ↔ v = .nan ∨ ∃ n, v = .inf n)
  ∧ ∀ (n : Bool) (m : Nat) (e : Int), ∃ k : Nat,
    k * 2 ^ (-e).toNat ≤ m * 2 ^ e.toNat ∧ m * 2 ^ e.toNat < (k + 1) * 2 ^ (-e).toNat
    ∧ fpToInt .binary64 (.fin n m e) = some (BitVec.ofInt 32 (if n then -(k : Int) else k))

/-- binary64's arithmetic. A sum, difference, product or quotient of finite values is the rounding fpRound of
the exact result, with IEEE's sign of an exact zero; NaN and the infinities as in IEEE 754; a quotient has
no answer exactly where the divisor is a zero. And fpRound of num / den * 2^e is the nearest number of the
format: within half a unit in the last place, a quarter below a power of two, the even significand on a tie,
in binary64's one form, infinite only from the midpoint above the greatest finite number on. It formalises
the spec's default numerics, which 45_fp_stack.md R311 marks as general knowledge. -/
def Obligations.FpRoundsToNearestEven : Prop :=
  (∀ (n1 : Bool) (m1 : Nat) (e1 : Int) (n2 : Bool) (m2 : Nat) (e2 : Int),
    let a := Fp.fin n1 m1 e1
    let b := Fp.fin n2 m2 e2
    let e := min e1 e2
    let x := (if n1 then -1 else 1) * (m1 * 2 ^ (e1 - e).toNat : Int)
    let y := (if n2 then -1 else 1) * (m2 * 2 ^ (e2 - e).toNat : Int)
    fpAdd .binary64 a b =
        (if x + y = 0 then .fin (n1 && n2) 0 (-1074) else fpRound (decide (x + y < 0)) (x + y).natAbs 1 e)
    ∧ fpSub .binary64 a b =
        (if x - y = 0 then .fin (n1 && !n2) 0 (-1074) else fpRound (decide (x - y < 0)) (x - y).natAbs 1 e)
    ∧ fpMul .binary64 a b = fpRound (n1 != n2) (m1 * m2) 1 (e1 + e2)
    ∧ (m2 ≠ 0 → fpDiv .binary64 a b = some (fpRound (n1 != n2) m1 m2 (e1 - e2))))
  ∧ (∀ v : Fp, fpAdd .binary64 .nan v = .nan ∧ fpAdd .binary64 v .nan = .nan
    ∧ fpSub .binary64 .nan v = .nan ∧ fpSub .binary64 v .nan = .nan
    ∧ fpMul .binary64 .nan v = .nan ∧ fpMul .binary64 v .nan = .nan
    ∧ fpDiv .binary64 v .nan = some .nan ∧ ∀ q, fpDiv .binary64 .nan v = some q → q = .nan)
  ∧ (∀ (n1 n2 : Bool) (m : Nat) (e : Int),
    fpAdd .binary64 (.inf n1) (.inf n2) = (if n1 = n2 then .inf n1 else .nan)
    ∧ fpSub .binary64 (.inf n1) (.inf n2) = (if n1 = n2 then .nan else .inf n1)
    ∧ fpMul .binary64 (.inf n1) (.inf n2) = .inf (n1 != n2)
    ∧ fpDiv .binary64 (.inf n1) (.inf n2) = some .nan
    ∧ fpAdd .binary64 (.inf n1) (.fin n2 m e) = .inf n1 ∧ fpAdd .binary64 (.fin n2 m e) (.inf n1) = .inf n1
    ∧ fpSub .binary64 (.inf n1) (.fin n2 m e) = .inf n1 ∧ fpSub .binary64 (.fin n2 m e) (.inf n1) = .inf (!n1)
    ∧ fpMul .binary64 (.inf n1) (.fin n2 m e) = (if m = 0 then .nan else .inf (n1 != n2))
    ∧ fpMul .binary64 (.fin n2 m e) (.inf n1) = (if m = 0 then .nan else .inf (n2 != n1))
    ∧ (m ≠ 0 → fpDiv .binary64 (.inf n1) (.fin n2 m e) = some (.inf (n1 != n2)))
    ∧ fpDiv .binary64 (.fin n2 m e) (.inf n1) = some (.fin (n2 != n1) 0 (-1074)))
  ∧ (∀ a b : Fp, fpDiv .binary64 a b = none ↔ ∃ n e, b = .fin n 0 e)
  ∧ (∀ (neg : Bool) (den : Nat) (e : Int), fpRound neg 0 den e = .fin neg 0 (-1074))
  ∧ ∀ (neg : Bool) (num den : Nat) (e : Int), num ≠ 0 → den ≠ 0 →
    (∀ n m q, fpRound neg num den e = .fin n m q →
      let big := num * 2 ^ (e - q).toNat
      let unit := den * 2 ^ (q - e).toNat
      n = neg ∧ fpCanonical (.fin n m q) = true
      ∧ 2 * big ≤ (2 * m + 1) * unit ∧ 2 * m * unit ≤ 2 * big + unit
      ∧ (m = 2 ^ 52 → -1074 < q → 4 * m * unit ≤ 4 * big + unit)
      ∧ ((2 * big = (2 * m + 1) * unit ∨ 2 * m * unit = 2 * big + unit) → m % 2 = 0))
    ∧ (∀ n, fpRound neg num den e = .inf n →
      n = neg ∧ (2 ^ 54 - 1) * (den * 2 ^ (970 - e).toNat) ≤ num * 2 ^ (e - 970).toNat)
    ∧ fpRound neg num den e ≠ .nan

/-! Faults, flags and counts over every instruction. -/

/-- 60_exceptions.md R402, R403: an instruction that faults, at its fetch, its decoding or its own rule, halts the
engine and leaves every register, flag, FP slot and the pc, and is not counted. -/
def Obligations.FaultCommitsNothing : Prop :=
  (∀ (s t : State) (f : FaultRec), s.fault = none → s.engineStep = .next t → t.fault = some f →
    t.halted = true ∧ t.regs = s.regs ∧ t.flags = s.flags ∧ t.fst = s.fst ∧ t.pc = s.pc
    ∧ t.suspend = s.suspend ∧ t.threads = s.threads ∧ t.totalInstret = s.totalInstret
    ∧ t.running = s.running ∧ t.readyQueue = s.readyQueue)
  ∧ ∀ (s : State) (i : Instr), s.fault = none →
    ∃ t, exec i s = .next t ∧ ∀ f, t.fault = some f →
      t.halted = true ∧ t.regs = s.regs ∧ t.flags = s.flags ∧ t.fst = s.fst ∧ t.pc = s.pc
      ∧ t.suspend = s.suspend ∧ t.threads = s.threads ∧ t.totalInstret = s.totalInstret

/-- 10_state.md R36: no instruction writes the paging bit, the regions, the MMIO registrations or the vector
table; nor the memory size, the framebuffer, the scheduler's queue or the parameters. -/
def Obligations.OnlyTheHostWritesControlState : Prop :=
  ∀ s t : State, s.engineStep = .next t →
    t.pagingEnabled = s.pagingEnabled ∧ t.regions = s.regions ∧ t.mmio = s.mmio ∧ t.ivt = s.ivt
    ∧ t.memSize = s.memSize ∧ t.framebuffer = s.framebuffer ∧ t.readyQueue = s.readyQueue
    ∧ t.running = s.running ∧ t.nextId = s.nextId ∧ t.now = s.now ∧ t.params = s.params

/-- 42_integer_alu.md R218, 10_state.md R27 to R30: which bits of the flag word each instruction may write, over
all instructions and states: only the ALU writes Z, N, C and V, only INT and IRET write IE, only IRET
writes D, A and the reserved bits, INT writes no bit but IE, and C and V change only where the table says. -/
def Obligations.FlagBitsWritten : Prop :=
  ∀ (s t : State) (i : Instr), exec i s = .next t → i ≠ .iret →
    (∀ k, 5 ≤ k → k < 32 → t.flags.getLsbD k = s.flags.getLsbD k)
    ∧ ((∀ n, i ≠ .int n) → t.flags.getLsbD 4 = s.flags.getLsbD 4)
    ∧ (∀ n, i = .int n → ∀ k, k < 32 → k ≠ 4 → t.flags.getLsbD k = s.flags.getLsbD k)
    ∧ ((formOf i.opcode ≠ .rx ∧ i.opcode ≠ .not ∧ i.opcode ≠ .int) → t.flags = s.flags)
    ∧ (i.opcode ∉ [.adc, .sbc, .cmp] → (i.opcode ∉ [.add, .sub] ∨ s.params.addSubSetCV = false) →
      t.flags.getLsbD 2 = s.flags.getLsbD 2
      ∧ (i.opcode ∉ [.div, .mod] → t.flags.getLsbD 3 = s.flags.getLsbD 3))

/-- 60_exceptions.md R446: a completed instruction, HALT, SYSCALL and YIELD among them, adds one to the running
thread's slice and instret and to totalInstret; a faulting one adds nothing. -/
def Obligations.CompletedInstructionsAreCounted : Prop :=
  ∀ (s t : State) (id : Nat) (th : Thread), s.fault = none → s.running = some id →
    Assoc.get s.threads id = some th → s.engineStep = .next t →
    (t.fault = none → t.totalInstret = s.totalInstret + 1
      ∧ ∀ j, Assoc.get t.threads j =
        if j = id then some { th with slice := th.slice + 1, instret := th.instret + 1 }
        else Assoc.get s.threads j)
    ∧ (t.fault ≠ none → t.totalInstret = s.totalInstret ∧ t.threads = s.threads)

/-! The scheduler. -/

/-- 60_exceptions.md R441, R442, R443, R445: creation, dispatch, yield, blocking and termination, as the rules' own
pseudocode; the queue is strict first in, first out. Two cases are the model's choice: schedule_next while
another thread is running (log entry 26), and terminate of an id that is not in the table (log entry 28). -/
def Obligations.SchedulerOperations : Prop :=
  (∀ (s : State) (pc : Word) (priority : Nat),
    let t := s.createThread pc priority
    t.nextId = s.nextId + 1 ∧ t.readyQueue = s.readyQueue ++ [s.nextId]
    ∧ (∀ j, j ≠ s.nextId → Assoc.get t.threads j = Assoc.get s.threads j)
    ∧ ∃ th, Assoc.get t.threads s.nextId = some th ∧ th.state = .ready ∧ th.priority = priority
      ∧ th.slice = 0 ∧ th.instret = 0 ∧ th.wake = none ∧ th.ctx.pc = pc ∧ th.ctx.flags = 0#32
      ∧ th.ctx.fst = [] ∧ th.ctx.regs = (Vector.replicate 16 0#32).set 14 (Config.stackTop s.nextId))
  ∧ (∀ (s : State) (skipped rest : List Nat) (id : Nat) (th : Thread),
    s.readyQueue = skipped ++ id :: rest →
    (∀ j ∈ skipped, ∀ u, Assoc.get s.threads j = some u → u.state ≠ .ready) →
    Assoc.get s.threads id = some th → th.state = .ready →
    s.scheduleNext = (some id, { s with
      readyQueue := rest
      threads := Assoc.put s.threads id { th with state := .running, slice := 0 }
      running := some id
      regs := th.ctx.regs, flags := th.ctx.flags, pc := th.ctx.pc, fst := th.ctx.fst
      halted := false, fault := none, suspend := .none, answered := false }))
  ∧ (∀ s : State, (∀ j ∈ s.readyQueue, ∀ u, Assoc.get s.threads j = some u → u.state ≠ .ready) →
    s.scheduleNext = (none, { s with readyQueue := [] }))
  ∧ (∀ (s : State) (id : Nat) (th : Thread), s.running = some id → Assoc.get s.threads id = some th →
    let ctx : Context := { regs := s.regs, flags := s.flags, pc := s.pc, fst := s.fst }
    s.yieldCurrent = { s with
      threads := Assoc.put s.threads id { th with ctx := ctx, state := .ready }
      readyQueue := s.readyQueue ++ [id]
      running := none }
    ∧ ∀ d, ∃ now, s.now ≤ now ∧ s.block d = { s with
      threads := Assoc.put s.threads id { th with ctx := ctx, state := .blocked, wake := some (now + d) }
      running := none, now := now, draws := s.draws + 1 })
  ∧ ∀ (s : State) (id : Nat),
    let t := s.terminate id
    Assoc.get t.threads id = none ∧ (∀ j, j ≠ id → Assoc.get t.threads j = Assoc.get s.threads j)
    ∧ t.running = (if s.running = some id then none else s.running) ∧ t.readyQueue = s.readyQueue

/-- 60_exceptions.md R450 (R445): unblock_due makes ready and queues exactly the blocked threads whose deadline
has come: every other record stays, the queue becomes the old one and then those threads, each once, and of
the rest of the state only the clock's reading and the count of draws change; so the driver loop never
dispatches a blocked thread before its deadline. -/
def Obligations.SleepersWaitForTheirDeadline : Prop :=
  (∀ (s : State) (id : Nat) (th : Thread) (w : Nat), Assoc.get s.threads id = some th →
    th.state = .blocked → th.wake = some w →
    s.now ≤ s.unblockDue.now
    ∧ (w ≤ s.unblockDue.now → Assoc.get s.unblockDue.threads id = some { th with state := .ready }
      ∧ id ∈ s.unblockDue.readyQueue)
    ∧ (s.unblockDue.now < w → Assoc.get s.unblockDue.threads id = some th))
  ∧ (∀ (s : State) (id : Nat) (th : Thread), Assoc.get s.threads id = some th → th.state ≠ .blocked →
    Assoc.get s.unblockDue.threads id = some th)
  ∧ (∀ (s : State) (id : Nat), Assoc.get s.threads id = none → Assoc.get s.unblockDue.threads id = none)
  ∧ (∀ s : State, s.SchedulerInv →
    ∃ woken : List Nat, s.unblockDue.readyQueue = s.readyQueue ++ woken ∧ woken.Nodup
      ∧ ∀ id, id ∈ woken ↔ ∃ th w, Assoc.get s.threads id = some th ∧ th.state = .blocked
        ∧ th.wake = some w ∧ w ≤ s.unblockDue.now)
  ∧ (∀ s : State,
    let t := s.unblockDue
    t = { s with threads := t.threads, readyQueue := t.readyQueue, now := t.now, draws := t.draws })
  ∧ ∀ (s t : State) (id : Nat) (th : Thread) (w : Nat), s.driver = .sched → s.running = none →
    Assoc.get s.threads id = some th → th.state = .blocked → th.wake = some w →
    step s = .next t → t.running = some id → w ≤ t.now

/-- 60_exceptions.md R444: the driver loop preempts a thread only after an instruction of its slice, namely when
it has run more of them than the slice's free limit (log entries 5, 15); it steps the engine till then; and
no slice is infinite: a running thread stops running after some number of steps. -/
def Obligations.PreemptionNeedsABegunSlice : Prop :=
  (∀ (s : State) (id : Nat) (th : Thread), s.driver = .sched → s.running = some id → s.halted = false →
    s.suspend = .none → Assoc.get s.threads id = some th →
    (th.slice = 0 → step s = s.engineStep)
    ∧ (th.slice ≤ Config.sliceLimit id (th.instret - th.slice) → step s = s.engineStep)
    ∧ (Config.sliceLimit id (th.instret - th.slice) < th.slice → step s = .next { s with suspend := .quota }))
  ∧ ∀ (s : State) (id : Nat), s.SchedulerInv → s.driver = .sched → s.running = some id →
    ∃ (n : Nat) (t : State), stepTimes n s = .next t ∧ t.running ≠ some id

/-! The host interface. -/

/-- 10_state.md R25: the register accessors take the value modulo 2^32 for indices 0 to 15 and raise
RegisterIndexOutOfRange for any other; no instruction raises it. -/
def Obligations.HostRegisterAccess : Prop :=
  (∀ (s : State) (i v : Nat), i < 16 →
    ∃ t, s.hostWriteReg i v = .ok t ∧ t.hostReadReg i = .ok (BitVec.ofNat 32 (v % 2 ^ 32))
      ∧ ∀ j, j < 16 → j ≠ i → t.hostReadReg j = s.hostReadReg j)
  ∧ (∀ (s : State) (i v : Nat), 16 ≤ i →
    s.hostWriteReg i v = .error (.registerIndexOutOfRange i)
    ∧ s.hostReadReg i = .error (.registerIndexOutOfRange i))
  ∧ ∀ (s t : State) (n : Nat), s.fault = none → s.engineStep = .next t →
    t.fault ≠ some (.registerIndexOutOfRange n)

/-- 20_memory.md R100: expand doubles the store until it holds the required size, or grows it to fit where
doubling passes 2^32, never beyond 2^32; existing bytes stay and new ones read 0 (memory in its one form, not
empty). That it grows to fit there, as R100 says a model may, is the model's choice (log entry 11). -/
def Obligations.ExpandGrowsByDoubling : Prop :=
  ∀ (s : State) (required : Nat), s.MemoryInv → 0 < s.memSize → required ≤ 2 ^ 32 →
    let t := s.expand required
    (required ≤ s.memSize → t = s)
    ∧ (s.memSize < required →
      required ≤ t.memSize ∧ t.memSize ≤ 2 ^ 32
      ∧ ((∃ k, t.memSize = s.memSize * 2 ^ (k + 1) ∧ s.memSize * 2 ^ k < required)
        ∨ (t.memSize = required ∧ ∃ k, 2 ^ 32 < s.memSize * 2 ^ (k + 1) ∧ s.memSize * 2 ^ k < required)))
    ∧ (∀ q, q < s.memSize → t.byteAt q = s.byteAt q) ∧ (∀ q, s.memSize ≤ q → t.byteAt q = 0#8)

/-- 60_exceptions.md R431: set_pixel writes the pixel in the buffer and no other, and does nothing outside;
get_pixel reads it back and is 0 outside. A colour is packed in FB_COLOR bits (log entry 2). -/
def Obligations.FramebufferPixels : Prop :=
  ∀ (s : State) (x y : Int) (c : Nat),
    let inside := 0 ≤ x ∧ x < s.params.fbWidth ∧ 0 ≤ y ∧ y < s.params.fbHeight
    (inside → (s.setPixel x y c).getPixel x y = c % 2 ^ s.params.fbColor)
    ∧ (¬ inside → s.setPixel x y c = s ∧ s.getPixel x y = 0)
    ∧ ∀ x' y', x' ≠ x ∨ y' ≠ y → (s.setPixel x y c).getPixel x' y' = s.getPixel x' y'

/-! What every step keeps. -/

/-- Every step keeps memory in its one form inside a store of at most 2^32 bytes, never shrinks the store,
and writes no parameter (10_state.md R37, 20_memory.md R101). -/
def Obligations.StepKeepsMemoryInv : Prop :=
  ∀ s t : State, s.MemoryInv → step s = .next t →
    t.MemoryInv ∧ s.memSize ≤ t.memSize ∧ t.params = s.params

/-- Every step keeps the page table one to one onto pages already handed out, and the cache within its
capacity (20_memory.md R86, 10_state.md R40); the pages premise is needed for the first, a capacity of at
least one (00_scope.md R9) for the second. -/
def Obligations.StepKeepsPagesAndCacheInv : Prop :=
  (∀ s t : State, s.PagesInv → step s = .next t → t.PagesInv)
  ∧ ∀ s t : State, s.CacheInv → 1 ≤ s.params.cacheCapacity → step s = .next t → t.CacheInv

/-- Every step keeps every FP stack within its eight slots and, under binary64, its values in that format
(10_state.md R31, R32). -/
def Obligations.StepKeepsFpInv : Prop :=
  ∀ s t : State, s.FpInv → step s = .next t → t.FpInv

/-- 60_exceptions.md R449: every step keeps at most one thread running, the one `running` points to, and no
terminated thread in the table. -/
def Obligations.StepKeepsSchedulerInv : Prop :=
  ∀ s t : State, s.SchedulerInv → step s = .next t → t.SchedulerInv

/-- Every step keeps the total equal to the sum over all threads ever created (10_state.md R45,
60_exceptions.md R451). -/
def Obligations.StepKeepsCountInv : Prop :=
  ∀ s t : State, s.SchedulerInv → s.CountInv → step s = .next t → t.CountInv
end

