-- ==== Sys2Proof/Laws/Assoc.lean ====
section
/-!
SUPPORT. The laws of finite maps: reading after writing, what a map still holds, and that every
operation keeps the keys rising.
-/

namespace Sys2Proof.Machine

variable {α : Type}

/-! Reading after writing: these hold of every list, rising or not. -/

@[simp] theorem Assoc.get_nil (k : Nat) : Assoc.get ([] : List (Nat × α)) k = none := rfl

theorem Assoc.get_put_self (m : List (Nat × α)) (k : Nat) (v : α) :
    Assoc.get (Assoc.put m k v) k = some v := by
  induction m with
  | nil => simp [Assoc.put, Assoc.get]
  | cons e rest ih =>
    simp only [Assoc.put]
    split
    · simp [Assoc.get]
    · split
      · simp [Assoc.get]
      · have h : e.1 ≠ k := by omega
        simp [Assoc.get, h, ih]

theorem Assoc.get_put_ne (m : List (Nat × α)) (k j : Nat) (v : α) (h : j ≠ k) :
    Assoc.get (Assoc.put m k v) j = Assoc.get m j := by
  have hk : k ≠ j := fun e => h e.symm
  induction m with
  | nil => simp [Assoc.put, Assoc.get, hk]
  | cons e rest ih =>
    simp only [Assoc.put]
    split
    · simp [Assoc.get, hk]
    · split
      · next he => simp [Assoc.get, hk, ← he]
      · simp only [Assoc.get, ih]

theorem Assoc.get_put (m : List (Nat × α)) (k j : Nat) (v : α) :
    Assoc.get (Assoc.put m k v) j = if j = k then some v else Assoc.get m j := by
  by_cases h : j = k
  · subst h; simp [Assoc.get_put_self]
  · simp [h, Assoc.get_put_ne]

theorem Assoc.get_keep (m : List (Nat × α)) (p : Nat → Bool) (k : Nat) :
    Assoc.get (Assoc.keep m p) k = if p k then Assoc.get m k else none := by
  induction m with
  | nil => simp [Assoc.keep]
  | cons e rest ih =>
    unfold Assoc.keep at ih ⊢
    rw [List.filter_cons]
    by_cases he : e.1 = k
    · cases hp : p k <;> simp_all [Assoc.get]
    · cases hp : p e.1 <;> simp [Assoc.get, he, ih]

theorem Assoc.get_erase (m : List (Nat × α)) (k j : Nat) :
    Assoc.get (Assoc.erase m k) j = if j = k then none else Assoc.get m j := by
  simp only [Assoc.erase, Assoc.get_keep]
  by_cases h : j = k <;> simp [h]

theorem Assoc.get_update (m : List (Nat × α)) (k j : Nat) (f : α → α) :
    Assoc.get (Assoc.update m k f) j = if j = k then (Assoc.get m j).map f else Assoc.get m j := by
  unfold Assoc.update
  by_cases h : j = k
  · subst h
    cases hg : Assoc.get m j <;> simp [Assoc.get_put_self, hg]
  · cases hg : Assoc.get m k <;> simp [h, Assoc.get_put_ne]

/-! Membership. -/

theorem Assoc.mem_put {m : List (Nat × α)} {k : Nat} {v : α} {e : Nat × α}
    (h : e ∈ Assoc.put m k v) : e = (k, v) ∨ e ∈ m := by
  induction m with
  | nil => simpa [Assoc.put] using h
  | cons x rest ih =>
    simp only [Assoc.put] at h
    split at h
    · simpa using h
    · split at h
      · rcases List.mem_cons.1 h with h | h
        · exact .inl h
        · exact .inr (List.mem_cons_of_mem _ h)
      · rcases List.mem_cons.1 h with h | h
        · exact .inr (by simp [h])
        · exact (ih h).imp id (List.mem_cons_of_mem _)

theorem Assoc.mem_put_self (m : List (Nat × α)) (k : Nat) (v : α) : (k, v) ∈ Assoc.put m k v := by
  induction m with
  | nil => simp [Assoc.put]
  | cons x rest ih =>
    simp only [Assoc.put]
    split
    · simp
    · split
      · simp
      · exact List.mem_cons_of_mem _ ih

theorem Assoc.mem_keep {m : List (Nat × α)} {p : Nat → Bool} {e : Nat × α} :
    e ∈ Assoc.keep m p ↔ e ∈ m ∧ p e.1 = true := by
  simp [Assoc.keep]

theorem Assoc.mem_erase {m : List (Nat × α)} {k : Nat} {e : Nat × α} :
    e ∈ Assoc.erase m k ↔ e ∈ m ∧ e.1 ≠ k := by
  simp [Assoc.erase, Assoc.mem_keep]

theorem Assoc.mem_of_get {m : List (Nat × α)} {k : Nat} {v : α} (h : Assoc.get m k = some v) :
    (k, v) ∈ m := by
  induction m with
  | nil => simp at h
  | cons x rest ih =>
    simp only [Assoc.get] at h
    split at h
    · next hx => cases h; simp [← hx]
    · exact List.mem_cons_of_mem _ (ih h)

theorem Assoc.mem_update {m : List (Nat × α)} {k : Nat} {f : α → α} {e : Nat × α}
    (h : e ∈ Assoc.update m k f) : e ∈ m ∨ ∃ v, Assoc.get m k = some v ∧ e = (k, f v) := by
  unfold Assoc.update at h
  split at h
  · exact .inl h
  · next v hv => exact (Assoc.mem_put h).elim (fun h => .inr ⟨v, hv, h⟩) .inl

/-! Rising keys. -/

theorem Assoc.rising_keep {m : List (Nat × α)} (p : Nat → Bool) (h : Assoc.Rising m) :
    Assoc.Rising (Assoc.keep m p) :=
  List.Pairwise.filter _ h

theorem Assoc.rising_erase {m : List (Nat × α)} (k : Nat) (h : Assoc.Rising m) :
    Assoc.Rising (Assoc.erase m k) :=
  Assoc.rising_keep _ h

theorem Assoc.rising_put {m : List (Nat × α)} (k : Nat) (v : α) (h : Assoc.Rising m) :
    Assoc.Rising (Assoc.put m k v) := by
  induction m with
  | nil => simp [Assoc.put]
  | cons x rest ih =>
    have hx := (List.pairwise_cons.1 h).1
    have hr := (List.pairwise_cons.1 h).2
    simp only [Assoc.put]
    split
    · next hk =>
      refine List.pairwise_cons.2 ⟨fun e he => ?_, h⟩
      rcases List.mem_cons.1 he with he | he
      · simpa [he] using hk
      · exact Nat.lt_trans hk (hx e he)
    · split
      · next hk =>
        exact List.pairwise_cons.2 ⟨fun e he => by simpa [hk] using hx e he, hr⟩
      · next h1 h2 =>
        refine List.pairwise_cons.2 ⟨fun e he => ?_, ih hr⟩
        rcases Assoc.mem_put he with he | he
        · simp only [he]; omega
        · exact hx e he

theorem Assoc.rising_update {m : List (Nat × α)} (k : Nat) (f : α → α) (h : Assoc.Rising m) :
    Assoc.Rising (Assoc.update m k f) := by
  unfold Assoc.update
  split
  · exact h
  · exact Assoc.rising_put _ _ h

theorem Assoc.get_of_mem {m : List (Nat × α)} (h : Assoc.Rising m) {e : Nat × α} (he : e ∈ m) :
    Assoc.get m e.1 = some e.2 := by
  induction m with
  | nil => simp at he
  | cons x rest ih =>
    have hx := (List.pairwise_cons.1 h).1
    rcases List.mem_cons.1 he with rfl | he
    · simp [Assoc.get]
    · have := hx e he
      have hne : x.1 ≠ e.1 := by omega
      simp [Assoc.get, hne, ih (List.pairwise_cons.1 h).2 he]

theorem Assoc.mem_iff_get {m : List (Nat × α)} (h : Assoc.Rising m) {k : Nat} {v : α} :
    (k, v) ∈ m ↔ Assoc.get m k = some v :=
  ⟨fun he => Assoc.get_of_mem h he, Assoc.mem_of_get⟩

/-- Two maps in their one form that read alike are the same list. -/
theorem Assoc.rising_ext {m n : List (Nat × α)} (hm : Assoc.Rising m) (hn : Assoc.Rising n)
    (h : ∀ k, Assoc.get m k = Assoc.get n k) : m = n := by
  induction m generalizing n with
  | nil =>
    cases n with
    | nil => rfl
    | cons y ys =>
      have := h y.1
      simp [Assoc.get] at this
  | cons x xs ih =>
    cases n with
    | nil =>
      have := h x.1
      simp [Assoc.get] at this
    | cons y ys =>
      have hx := List.pairwise_cons.1 hm
      have hy := List.pairwise_cons.1 hn
      have hxy : x.1 = y.1 := by
        rcases Nat.lt_trichotomy x.1 y.1 with hlt | heq | hgt
        · have h1 := h x.1
          have h2 : y.1 ≠ x.1 := by omega
          simp only [Assoc.get, if_true, h2, if_false] at h1
          have := hy.1 _ (Assoc.mem_of_get h1.symm)
          simp only at this; omega
        · exact heq
        · have h1 := h y.1
          have h2 : x.1 ≠ y.1 := by omega
          simp only [Assoc.get, if_true, h2, if_false] at h1
          have := hx.1 _ (Assoc.mem_of_get h1)
          simp only at this; omega
      have hv : x.2 = y.2 := by
        have h1 := h x.1
        simp only [Assoc.get, if_true, ← hxy] at h1
        exact Option.some.inj h1
      have hrest : ∀ k, Assoc.get xs k = Assoc.get ys k := by
        intro k
        by_cases hk : x.1 = k
        · have h1 : Assoc.get xs k = none := by
            cases hg : Assoc.get xs k with
            | none => rfl
            | some w => have := hx.1 _ (Assoc.mem_of_get hg); simp only at this; omega
          have h2 : Assoc.get ys k = none := by
            cases hg : Assoc.get ys k with
            | none => rfl
            | some w => have := hy.1 _ (Assoc.mem_of_get hg); simp only at this; omega
          rw [h1, h2]
        · have h1 := h k
          have hk' : y.1 ≠ k := by omega
          simpa only [Assoc.get, hk, hk', if_false] using h1
      rw [ih hx.2 hy.2 hrest, Prod.ext hxy hv]

/-! Lengths. -/

theorem Assoc.length_put_le (m : List (Nat × α)) (k : Nat) (v : α) :
    (Assoc.put m k v).length ≤ m.length + 1 := by
  induction m with
  | nil => simp [Assoc.put]
  | cons x rest ih =>
    simp only [Assoc.put]
    split
    · simp
    · split <;> simp <;> omega

theorem Assoc.length_put_of_get {m : List (Nat × α)} (h : Assoc.Rising m) {k : Nat} {w : α} (v : α)
    (hg : Assoc.get m k = some w) : (Assoc.put m k v).length = m.length := by
  induction m with
  | nil => simp at hg
  | cons x rest ih =>
    have hx := (List.pairwise_cons.1 h).1
    simp only [Assoc.get] at hg
    simp only [Assoc.put]
    split at hg
    · next he =>
      simp [he]
    · next he =>
      have := hx _ (Assoc.mem_of_get hg)
      simp only at this
      have h1 : ¬ k < x.1 := by omega
      have h2 : ¬ k = x.1 := by omega
      simp [h1, h2, ih (List.pairwise_cons.1 h).2 hg]

end Sys2Proof.Machine
end

