-- ==== Sys2Proof/Laws/Memory.lean ====
section
/-!
SUPPORT. The laws of memory: bytes and words of a word, reading after writing, and that every memory
operation keeps memory's one form and its bounds.
-/

namespace Sys2Proof.Machine

open Sys2Proof

/-! Words and bytes (20_memory.md R71, R72). -/

theorem wordOfBytes_byteOfWord (w : Word) :
    wordOfBytes (byteOfWord w 0) (byteOfWord w 1) (byteOfWord w 2) (byteOfWord w 3) = w := by
  apply BitVec.eq_of_getLsbD_eq
  intro k hk
  simp only [wordOfBytes, byteOfWord, BitVec.getLsbD_or, BitVec.getLsbD_shiftLeft,
    BitVec.getLsbD_setWidth, BitVec.getLsbD_extractLsb']
  have : k < 8 ∨ 8 ≤ k ∧ k < 16 ∨ 16 ≤ k ∧ k < 24 ∨ 24 ≤ k := by omega
  rcases this with h | ⟨h1, h2⟩ | ⟨h1, h2⟩ | h
  · simp [hk, h, show k < 16 by omega, show k < 24 by omega]
  · simp [hk, show ¬k < 8 by omega, h2, show k < 24 by omega, show k - 8 < 8 by omega, show k - 8 < 32 by omega,
      show 8 + (k - 8) = k by omega]
  · simp [hk, show ¬k < 8 by omega, show ¬k < 16 by omega, h2, show ¬k - 8 < 8 by omega,
      show k - 16 < 8 by omega, show k - 16 < 32 by omega, show 16 + (k - 16) = k by omega]
  · simp [hk, show ¬k < 8 by omega, show ¬k < 16 by omega, show ¬k < 24 by omega,
      show ¬k - 8 < 8 by omega, show ¬k - 16 < 8 by omega, show k - 24 < 8 by omega,
      show k - 24 < 32 by omega,
      show 24 + (k - 24) = k by omega]

theorem byteOfWord_wordOfBytes (b0 b1 b2 b3 : Byte) :
    byteOfWord (wordOfBytes b0 b1 b2 b3) 0 = b0 ∧ byteOfWord (wordOfBytes b0 b1 b2 b3) 1 = b1
    ∧ byteOfWord (wordOfBytes b0 b1 b2 b3) 2 = b2 ∧ byteOfWord (wordOfBytes b0 b1 b2 b3) 3 = b3 := by
  refine ⟨?_, ?_, ?_, ?_⟩ <;> apply BitVec.eq_of_getLsbD_eq <;> intro k hk <;>
    simp only [wordOfBytes, byteOfWord, BitVec.getLsbD_or, BitVec.getLsbD_shiftLeft,
      BitVec.getLsbD_setWidth, BitVec.getLsbD_extractLsb']
  · simp [hk, show k < 32 by omega, show k < 16 by omega, show k < 24 by omega]
  · simp [hk, show 8 + k < 32 by omega, show ¬8 + k < 8 by omega, show 8 + k < 16 by omega,
      show 8 + k < 24 by omega, show k < 32 by omega]
  · simp [hk, show 16 + k < 32 by omega, show ¬16 + k < 8 by omega, show ¬16 + k < 16 by omega,
      show 16 + k < 24 by omega, show k < 32 by omega, show 16 + k - 8 = 8 + k by omega,
      BitVec.getLsbD_of_ge b0 (16 + k) (by omega)]
  · simp [hk, show 24 + k < 32 by omega, show ¬24 + k < 8 by omega, show ¬24 + k < 16 by omega,
      show ¬24 + k < 24 by omega, show k < 32 by omega, show 24 + k - 8 = 16 + k by omega,
      show 24 + k - 16 = 8 + k by omega,
      BitVec.getLsbD_of_ge b0 (24 + k) (by omega), BitVec.getLsbD_of_ge b1 (16 + k) (by omega)]

/-! Reading after writing. -/

@[simp] theorem memByte_nil (p : Nat) : memByte [] p = 0 := rfl

theorem memByte_memSetByte (m : List Host.Cell) (p q : Nat) (b : Byte) :
    memByte (memSetByte m p b) q = if q = p then b else memByte m q := by
  unfold memByte memSetByte
  split
  · next hb => by_cases h : q = p <;> simp [hb, h, Assoc.get_erase]
  · by_cases h : q = p <;> simp [h, Assoc.get_put]

theorem memByte_memZero (m : List Host.Cell) (lo size q : Nat) :
    memByte (memZero m lo size) q = if lo ≤ q ∧ q < lo + size then 0 else memByte m q := by
  unfold memByte memZero
  by_cases h : lo ≤ q ∧ q < lo + size
  · simp [Assoc.get_keep, h]
  · have h' : (!(decide (lo ≤ q) && decide (q < lo + size))) = true := by
      simp only [Bool.not_eq_true', Bool.and_eq_false_iff, decide_eq_false_iff_not]
      omega
    simp only [Assoc.get_keep, h', if_true, h, if_false]

/-- The byte at q after a write: a byte of the value inside the access, the old byte elsewhere. -/
theorem memByte_memWrite (m : List Host.Cell) (p q : Nat) (w : Width) (v : Word) :
    memByte (memWrite m p w v) q =
      if p ≤ q ∧ q < p + w.bytes then byteOfWord v (q - p) else memByte m q := by
  cases w with
  | byte =>
    have hc : (p ≤ q ∧ q < p + Width.bytes .byte) ↔ q = p := by
      show (p ≤ q ∧ q < p + 1) ↔ q = p
      omega
    simp only [memWrite, memByte_memSetByte, hc]
    split
    · next h => rw [h, Nat.sub_self]
    · rfl
  | word =>
    simp only [memWrite, memByte_memSetByte, Width.bytes]
    by_cases h : p ≤ q ∧ q < p + 4
    · have : q = p ∨ q = p + 1 ∨ q = p + 2 ∨ q = p + 3 := by omega
      rcases this with rfl | rfl | rfl | rfl <;> simp
    · simp [h, show q ≠ p by omega, show q ≠ p + 1 by omega, show q ≠ p + 2 by omega,
        show q ≠ p + 3 by omega]

/-- A value read where it was written is the value written, cut to the access. -/
theorem memRead_memWrite_self (m : List Host.Cell) (p : Nat) (w : Width) (v : Word) :
    memRead (memWrite m p w v) p w = cutTo v w := by
  cases w with
  | byte => simp [memRead, cutTo, memByte_memWrite, Width.bytes]
  | word =>
    simpa [memRead, cutTo, memByte_memWrite, Width.bytes] using wordOfBytes_byteOfWord v

/-- A read depends on the bytes it covers alone. -/
theorem memRead_congr {m n : List Host.Cell} {p : Nat} {w : Width}
    (h : ∀ q, p ≤ q → q < p + w.bytes → memByte m q = memByte n q) :
    memRead m p w = memRead n p w := by
  cases w with
  | byte => simp only [memRead, h p (Nat.le_refl p) (by simp [Width.bytes])]
  | word =>
    simp [memRead, h p (Nat.le_refl p) (by simp [Width.bytes]),
      h (p + 1) (by omega) (by simp [Width.bytes]), h (p + 2) (by omega) (by simp [Width.bytes]),
      h (p + 3) (by omega) (by simp [Width.bytes])]

/-! The one form and the bounds. -/

/-- Every listed address lies below `n`. -/
def Memory.Below (m : List Host.Cell) (n : Nat) : Prop :=
  ∀ c ∈ m, c.1 < n

theorem Memory.wf_nil : Memory.Wf [] :=
  ⟨List.Pairwise.nil, fun _ h => nomatch h⟩

theorem memSetByte_wf {m : List Host.Cell} (p : Nat) (b : Byte) (h : Memory.Wf m) :
    Memory.Wf (memSetByte m p b) := by
  unfold memSetByte
  split
  · exact ⟨Assoc.rising_erase p h.1, fun c hc => h.2 c (Assoc.mem_erase.1 hc).1⟩
  · next hb =>
    refine ⟨Assoc.rising_put p b h.1, fun c hc => ?_⟩
    rcases Assoc.mem_put hc with rfl | hc
    · exact hb
    · exact h.2 c hc

theorem memSetByte_below {m : List Host.Cell} {p n : Nat} (b : Byte) (h : Memory.Below m n)
    (hp : p < n) : Memory.Below (memSetByte m p b) n := by
  unfold memSetByte
  split
  · exact fun c hc => h c (Assoc.mem_erase.1 hc).1
  · exact fun c hc => (Assoc.mem_put hc).elim (fun e => by simpa [e] using hp) (h c)

theorem memWrite_wf {m : List Host.Cell} (p : Nat) (w : Width) (v : Word) (h : Memory.Wf m) :
    Memory.Wf (memWrite m p w v) := by
  cases w with
  | byte => exact memSetByte_wf _ _ h
  | word => exact memSetByte_wf _ _ (memSetByte_wf _ _ (memSetByte_wf _ _ (memSetByte_wf _ _ h)))

theorem memWrite_below {m : List Host.Cell} {p n : Nat} (w : Width) (v : Word)
    (h : Memory.Below m n) (hp : p + w.bytes ≤ n) : Memory.Below (memWrite m p w v) n := by
  cases w with
  | byte => exact memSetByte_below _ h (by simp only [Width.bytes] at hp; omega)
  | word =>
    simp only [Width.bytes] at hp
    exact memSetByte_below _ (memSetByte_below _ (memSetByte_below _ (memSetByte_below _ h
      (by omega)) (by omega)) (by omega)) (by omega)

theorem memZero_wf {m : List Host.Cell} (lo size : Nat) (h : Memory.Wf m) :
    Memory.Wf (memZero m lo size) :=
  ⟨Assoc.rising_keep _ h.1, fun c hc => h.2 c (Assoc.mem_keep.1 hc).1⟩

theorem memZero_below {m : List Host.Cell} {n : Nat} (lo size : Nat) (h : Memory.Below m n) :
    Memory.Below (memZero m lo size) n :=
  fun c hc => h c (Assoc.mem_keep.1 hc).1

theorem memWriteBytes_wf {m : List Host.Cell} (p : Nat) (bs : List Byte) (h : Memory.Wf m) :
    Memory.Wf (memWriteBytes m p bs) := by
  induction bs generalizing m p with
  | nil => exact h
  | cons b rest ih => exact ih (p + 1) (memSetByte_wf p b h)

theorem memWriteBytes_below {m : List Host.Cell} {p n : Nat} (bs : List Byte)
    (h : Memory.Below m n) (hp : p + bs.length ≤ n) : Memory.Below (memWriteBytes m p bs) n := by
  induction bs generalizing m p with
  | nil => exact h
  | cons b rest ih =>
    simp only [List.length_cons] at hp
    exact ih (memSetByte_below b h (by omega)) (by omega)

theorem memByte_eq_zero_of_below {m : List Host.Cell} {n p : Nat} (h : Memory.Below m n)
    (hp : n ≤ p) : memByte m p = 0 := by
  unfold memByte
  cases hg : Assoc.get m p with
  | none => rfl
  | some b => have := h _ (Assoc.mem_of_get hg); simp only at this; omega

/-! Growth (20_memory.md R100). -/

theorem le_doubled (fuel size required : Nat) : size ≤ doubled fuel size required := by
  induction fuel generalizing size with
  | zero => exact Nat.le_refl _
  | succ k ih =>
    unfold doubled
    split
    · exact Nat.le_trans (by omega) (ih (2 * size))
    · exact Nat.le_refl _

theorem le_expandedSize (size required : Nat) : size ≤ expandedSize size required := by
  unfold expandedSize
  split
  · exact Nat.le_refl _
  · split
    · exact le_doubled _ _ _
    · omega

theorem expandedSize_le (size required : Nat) (h : size ≤ 2 ^ 32) :
    expandedSize size required ≤ 2 ^ 32 := by
  unfold expandedSize
  split
  · exact h
  · split
    · next h2 => exact h2.2
    · omega

theorem required_le_expandedSize (size required : Nat) (h : required ≤ 2 ^ 32) :
    required ≤ expandedSize size required := by
  unfold expandedSize
  split
  · omega
  · split
    · next h2 => exact h2.1
    · exact Nat.le_refl _

end Sys2Proof.Machine
end

