-- ==== Sys2Proof/Laws/State.lean ====
section
/-!
SUPPORT. What each named update of State leaves in each field: one lemma for each field of each
update, true by rfl, so that no later proof unfolds a record update.
-/

namespace Sys2Proof.Machine

open Sys2Proof

/-! writeReg -/

@[simp] theorem State.writeReg_regs (s : State) (i : RegIdx) (v : Word) : (s.writeReg i v).regs = s.regs.set i.toNat v i.isLt := rfl
@[simp] theorem State.writeReg_pc (s : State) (i : RegIdx) (v : Word) : (s.writeReg i v).pc = s.pc := rfl
@[simp] theorem State.writeReg_flags (s : State) (i : RegIdx) (v : Word) : (s.writeReg i v).flags = s.flags := rfl
@[simp] theorem State.writeReg_fst (s : State) (i : RegIdx) (v : Word) : (s.writeReg i v).fst = s.fst := rfl
@[simp] theorem State.writeReg_halted (s : State) (i : RegIdx) (v : Word) : (s.writeReg i v).halted = s.halted := rfl
@[simp] theorem State.writeReg_fault (s : State) (i : RegIdx) (v : Word) : (s.writeReg i v).fault = s.fault := rfl
@[simp] theorem State.writeReg_suspend (s : State) (i : RegIdx) (v : Word) : (s.writeReg i v).suspend = s.suspend := rfl
@[simp] theorem State.writeReg_ivt (s : State) (i : RegIdx) (v : Word) : (s.writeReg i v).ivt = s.ivt := rfl
@[simp] theorem State.writeReg_mem (s : State) (i : RegIdx) (v : Word) : (s.writeReg i v).mem = s.mem := rfl
@[simp] theorem State.writeReg_memSize (s : State) (i : RegIdx) (v : Word) : (s.writeReg i v).memSize = s.memSize := rfl
@[simp] theorem State.writeReg_pagingEnabled (s : State) (i : RegIdx) (v : Word) : (s.writeReg i v).pagingEnabled = s.pagingEnabled := rfl
@[simp] theorem State.writeReg_pageTable (s : State) (i : RegIdx) (v : Word) : (s.writeReg i v).pageTable = s.pageTable := rfl
@[simp] theorem State.writeReg_nextFreePPage (s : State) (i : RegIdx) (v : Word) : (s.writeReg i v).nextFreePPage = s.nextFreePPage := rfl
@[simp] theorem State.writeReg_regions (s : State) (i : RegIdx) (v : Word) : (s.writeReg i v).regions = s.regions := rfl
@[simp] theorem State.writeReg_cache (s : State) (i : RegIdx) (v : Word) : (s.writeReg i v).cache = s.cache := rfl
@[simp] theorem State.writeReg_cacheHits (s : State) (i : RegIdx) (v : Word) : (s.writeReg i v).cacheHits = s.cacheHits := rfl
@[simp] theorem State.writeReg_cacheMisses (s : State) (i : RegIdx) (v : Word) : (s.writeReg i v).cacheMisses = s.cacheMisses := rfl
@[simp] theorem State.writeReg_mmio (s : State) (i : RegIdx) (v : Word) : (s.writeReg i v).mmio = s.mmio := rfl
@[simp] theorem State.writeReg_framebuffer (s : State) (i : RegIdx) (v : Word) : (s.writeReg i v).framebuffer = s.framebuffer := rfl
@[simp] theorem State.writeReg_threads (s : State) (i : RegIdx) (v : Word) : (s.writeReg i v).threads = s.threads := rfl
@[simp] theorem State.writeReg_readyQueue (s : State) (i : RegIdx) (v : Word) : (s.writeReg i v).readyQueue = s.readyQueue := rfl
@[simp] theorem State.writeReg_running (s : State) (i : RegIdx) (v : Word) : (s.writeReg i v).running = s.running := rfl
@[simp] theorem State.writeReg_nextId (s : State) (i : RegIdx) (v : Word) : (s.writeReg i v).nextId = s.nextId := rfl
@[simp] theorem State.writeReg_totalInstret (s : State) (i : RegIdx) (v : Word) : (s.writeReg i v).totalInstret = s.totalInstret := rfl
@[simp] theorem State.writeReg_params (s : State) (i : RegIdx) (v : Word) : (s.writeReg i v).params = s.params := rfl
@[simp] theorem State.writeReg_driver (s : State) (i : RegIdx) (v : Word) : (s.writeReg i v).driver = s.driver := rfl
@[simp] theorem State.writeReg_answered (s : State) (i : RegIdx) (v : Word) : (s.writeReg i v).answered = s.answered := rfl
@[simp] theorem State.writeReg_now (s : State) (i : RegIdx) (v : Word) : (s.writeReg i v).now = s.now := rfl
@[simp] theorem State.writeReg_draws (s : State) (i : RegIdx) (v : Word) : (s.writeReg i v).draws = s.draws := rfl
@[simp] theorem State.writeReg_deviceLog (s : State) (i : RegIdx) (v : Word) : (s.writeReg i v).deviceLog = s.deviceLog := rfl
@[simp] theorem State.writeReg_retired (s : State) (i : RegIdx) (v : Word) : (s.writeReg i v).retired = s.retired := rfl

/-! setFlags -/

@[simp] theorem State.setFlags_regs (s : State) (f : Word) : (s.setFlags f).regs = s.regs := rfl
@[simp] theorem State.setFlags_pc (s : State) (f : Word) : (s.setFlags f).pc = s.pc := rfl
@[simp] theorem State.setFlags_flags (s : State) (f : Word) : (s.setFlags f).flags = f := rfl
@[simp] theorem State.setFlags_fst (s : State) (f : Word) : (s.setFlags f).fst = s.fst := rfl
@[simp] theorem State.setFlags_halted (s : State) (f : Word) : (s.setFlags f).halted = s.halted := rfl
@[simp] theorem State.setFlags_fault (s : State) (f : Word) : (s.setFlags f).fault = s.fault := rfl
@[simp] theorem State.setFlags_suspend (s : State) (f : Word) : (s.setFlags f).suspend = s.suspend := rfl
@[simp] theorem State.setFlags_ivt (s : State) (f : Word) : (s.setFlags f).ivt = s.ivt := rfl
@[simp] theorem State.setFlags_mem (s : State) (f : Word) : (s.setFlags f).mem = s.mem := rfl
@[simp] theorem State.setFlags_memSize (s : State) (f : Word) : (s.setFlags f).memSize = s.memSize := rfl
@[simp] theorem State.setFlags_pagingEnabled (s : State) (f : Word) : (s.setFlags f).pagingEnabled = s.pagingEnabled := rfl
@[simp] theorem State.setFlags_pageTable (s : State) (f : Word) : (s.setFlags f).pageTable = s.pageTable := rfl
@[simp] theorem State.setFlags_nextFreePPage (s : State) (f : Word) : (s.setFlags f).nextFreePPage = s.nextFreePPage := rfl
@[simp] theorem State.setFlags_regions (s : State) (f : Word) : (s.setFlags f).regions = s.regions := rfl
@[simp] theorem State.setFlags_cache (s : State) (f : Word) : (s.setFlags f).cache = s.cache := rfl
@[simp] theorem State.setFlags_cacheHits (s : State) (f : Word) : (s.setFlags f).cacheHits = s.cacheHits := rfl
@[simp] theorem State.setFlags_cacheMisses (s : State) (f : Word) : (s.setFlags f).cacheMisses = s.cacheMisses := rfl
@[simp] theorem State.setFlags_mmio (s : State) (f : Word) : (s.setFlags f).mmio = s.mmio := rfl
@[simp] theorem State.setFlags_framebuffer (s : State) (f : Word) : (s.setFlags f).framebuffer = s.framebuffer := rfl
@[simp] theorem State.setFlags_threads (s : State) (f : Word) : (s.setFlags f).threads = s.threads := rfl
@[simp] theorem State.setFlags_readyQueue (s : State) (f : Word) : (s.setFlags f).readyQueue = s.readyQueue := rfl
@[simp] theorem State.setFlags_running (s : State) (f : Word) : (s.setFlags f).running = s.running := rfl
@[simp] theorem State.setFlags_nextId (s : State) (f : Word) : (s.setFlags f).nextId = s.nextId := rfl
@[simp] theorem State.setFlags_totalInstret (s : State) (f : Word) : (s.setFlags f).totalInstret = s.totalInstret := rfl
@[simp] theorem State.setFlags_params (s : State) (f : Word) : (s.setFlags f).params = s.params := rfl
@[simp] theorem State.setFlags_driver (s : State) (f : Word) : (s.setFlags f).driver = s.driver := rfl
@[simp] theorem State.setFlags_answered (s : State) (f : Word) : (s.setFlags f).answered = s.answered := rfl
@[simp] theorem State.setFlags_now (s : State) (f : Word) : (s.setFlags f).now = s.now := rfl
@[simp] theorem State.setFlags_draws (s : State) (f : Word) : (s.setFlags f).draws = s.draws := rfl
@[simp] theorem State.setFlags_deviceLog (s : State) (f : Word) : (s.setFlags f).deviceLog = s.deviceLog := rfl
@[simp] theorem State.setFlags_retired (s : State) (f : Word) : (s.setFlags f).retired = s.retired := rfl

/-! setFst -/

@[simp] theorem State.setFst_regs (s : State) (st : List Fp) : (s.setFst st).regs = s.regs := rfl
@[simp] theorem State.setFst_pc (s : State) (st : List Fp) : (s.setFst st).pc = s.pc := rfl
@[simp] theorem State.setFst_flags (s : State) (st : List Fp) : (s.setFst st).flags = s.flags := rfl
@[simp] theorem State.setFst_fst (s : State) (st : List Fp) : (s.setFst st).fst = st := rfl
@[simp] theorem State.setFst_halted (s : State) (st : List Fp) : (s.setFst st).halted = s.halted := rfl
@[simp] theorem State.setFst_fault (s : State) (st : List Fp) : (s.setFst st).fault = s.fault := rfl
@[simp] theorem State.setFst_suspend (s : State) (st : List Fp) : (s.setFst st).suspend = s.suspend := rfl
@[simp] theorem State.setFst_ivt (s : State) (st : List Fp) : (s.setFst st).ivt = s.ivt := rfl
@[simp] theorem State.setFst_mem (s : State) (st : List Fp) : (s.setFst st).mem = s.mem := rfl
@[simp] theorem State.setFst_memSize (s : State) (st : List Fp) : (s.setFst st).memSize = s.memSize := rfl
@[simp] theorem State.setFst_pagingEnabled (s : State) (st : List Fp) : (s.setFst st).pagingEnabled = s.pagingEnabled := rfl
@[simp] theorem State.setFst_pageTable (s : State) (st : List Fp) : (s.setFst st).pageTable = s.pageTable := rfl
@[simp] theorem State.setFst_nextFreePPage (s : State) (st : List Fp) : (s.setFst st).nextFreePPage = s.nextFreePPage := rfl
@[simp] theorem State.setFst_regions (s : State) (st : List Fp) : (s.setFst st).regions = s.regions := rfl
@[simp] theorem State.setFst_cache (s : State) (st : List Fp) : (s.setFst st).cache = s.cache := rfl
@[simp] theorem State.setFst_cacheHits (s : State) (st : List Fp) : (s.setFst st).cacheHits = s.cacheHits := rfl
@[simp] theorem State.setFst_cacheMisses (s : State) (st : List Fp) : (s.setFst st).cacheMisses = s.cacheMisses := rfl
@[simp] theorem State.setFst_mmio (s : State) (st : List Fp) : (s.setFst st).mmio = s.mmio := rfl
@[simp] theorem State.setFst_framebuffer (s : State) (st : List Fp) : (s.setFst st).framebuffer = s.framebuffer := rfl
@[simp] theorem State.setFst_threads (s : State) (st : List Fp) : (s.setFst st).threads = s.threads := rfl
@[simp] theorem State.setFst_readyQueue (s : State) (st : List Fp) : (s.setFst st).readyQueue = s.readyQueue := rfl
@[simp] theorem State.setFst_running (s : State) (st : List Fp) : (s.setFst st).running = s.running := rfl
@[simp] theorem State.setFst_nextId (s : State) (st : List Fp) : (s.setFst st).nextId = s.nextId := rfl
@[simp] theorem State.setFst_totalInstret (s : State) (st : List Fp) : (s.setFst st).totalInstret = s.totalInstret := rfl
@[simp] theorem State.setFst_params (s : State) (st : List Fp) : (s.setFst st).params = s.params := rfl
@[simp] theorem State.setFst_driver (s : State) (st : List Fp) : (s.setFst st).driver = s.driver := rfl
@[simp] theorem State.setFst_answered (s : State) (st : List Fp) : (s.setFst st).answered = s.answered := rfl
@[simp] theorem State.setFst_now (s : State) (st : List Fp) : (s.setFst st).now = s.now := rfl
@[simp] theorem State.setFst_draws (s : State) (st : List Fp) : (s.setFst st).draws = s.draws := rfl
@[simp] theorem State.setFst_deviceLog (s : State) (st : List Fp) : (s.setFst st).deviceLog = s.deviceLog := rfl
@[simp] theorem State.setFst_retired (s : State) (st : List Fp) : (s.setFst st).retired = s.retired := rfl

/-! allocPage -/

@[simp] theorem State.allocPage_regs (s : State) (vpn : Nat) : (s.allocPage vpn).regs = s.regs := rfl
@[simp] theorem State.allocPage_pc (s : State) (vpn : Nat) : (s.allocPage vpn).pc = s.pc := rfl
@[simp] theorem State.allocPage_flags (s : State) (vpn : Nat) : (s.allocPage vpn).flags = s.flags := rfl
@[simp] theorem State.allocPage_fst (s : State) (vpn : Nat) : (s.allocPage vpn).fst = s.fst := rfl
@[simp] theorem State.allocPage_halted (s : State) (vpn : Nat) : (s.allocPage vpn).halted = s.halted := rfl
@[simp] theorem State.allocPage_fault (s : State) (vpn : Nat) : (s.allocPage vpn).fault = s.fault := rfl
@[simp] theorem State.allocPage_suspend (s : State) (vpn : Nat) : (s.allocPage vpn).suspend = s.suspend := rfl
@[simp] theorem State.allocPage_ivt (s : State) (vpn : Nat) : (s.allocPage vpn).ivt = s.ivt := rfl
@[simp] theorem State.allocPage_mem (s : State) (vpn : Nat) : (s.allocPage vpn).mem = memZero s.mem (s.nextFreePPage * s.params.pageSize) s.params.pageSize := rfl
@[simp] theorem State.allocPage_memSize (s : State) (vpn : Nat) : (s.allocPage vpn).memSize = s.memSize := rfl
@[simp] theorem State.allocPage_pagingEnabled (s : State) (vpn : Nat) : (s.allocPage vpn).pagingEnabled = s.pagingEnabled := rfl
@[simp] theorem State.allocPage_pageTable (s : State) (vpn : Nat) : (s.allocPage vpn).pageTable = Assoc.put s.pageTable vpn s.nextFreePPage := rfl
@[simp] theorem State.allocPage_nextFreePPage (s : State) (vpn : Nat) : (s.allocPage vpn).nextFreePPage = s.nextFreePPage + 1 := rfl
@[simp] theorem State.allocPage_regions (s : State) (vpn : Nat) : (s.allocPage vpn).regions = s.regions := rfl
@[simp] theorem State.allocPage_cache (s : State) (vpn : Nat) : (s.allocPage vpn).cache = s.cache := rfl
@[simp] theorem State.allocPage_cacheHits (s : State) (vpn : Nat) : (s.allocPage vpn).cacheHits = s.cacheHits := rfl
@[simp] theorem State.allocPage_cacheMisses (s : State) (vpn : Nat) : (s.allocPage vpn).cacheMisses = s.cacheMisses := rfl
@[simp] theorem State.allocPage_mmio (s : State) (vpn : Nat) : (s.allocPage vpn).mmio = s.mmio := rfl
@[simp] theorem State.allocPage_framebuffer (s : State) (vpn : Nat) : (s.allocPage vpn).framebuffer = s.framebuffer := rfl
@[simp] theorem State.allocPage_threads (s : State) (vpn : Nat) : (s.allocPage vpn).threads = s.threads := rfl
@[simp] theorem State.allocPage_readyQueue (s : State) (vpn : Nat) : (s.allocPage vpn).readyQueue = s.readyQueue := rfl
@[simp] theorem State.allocPage_running (s : State) (vpn : Nat) : (s.allocPage vpn).running = s.running := rfl
@[simp] theorem State.allocPage_nextId (s : State) (vpn : Nat) : (s.allocPage vpn).nextId = s.nextId := rfl
@[simp] theorem State.allocPage_totalInstret (s : State) (vpn : Nat) : (s.allocPage vpn).totalInstret = s.totalInstret := rfl
@[simp] theorem State.allocPage_params (s : State) (vpn : Nat) : (s.allocPage vpn).params = s.params := rfl
@[simp] theorem State.allocPage_driver (s : State) (vpn : Nat) : (s.allocPage vpn).driver = s.driver := rfl
@[simp] theorem State.allocPage_answered (s : State) (vpn : Nat) : (s.allocPage vpn).answered = s.answered := rfl
@[simp] theorem State.allocPage_now (s : State) (vpn : Nat) : (s.allocPage vpn).now = s.now := rfl
@[simp] theorem State.allocPage_draws (s : State) (vpn : Nat) : (s.allocPage vpn).draws = s.draws := rfl
@[simp] theorem State.allocPage_deviceLog (s : State) (vpn : Nat) : (s.allocPage vpn).deviceLog = s.deviceLog := rfl
@[simp] theorem State.allocPage_retired (s : State) (vpn : Nat) : (s.allocPage vpn).retired = s.retired := rfl

/-! cacheRead -/

@[simp] theorem State.cacheRead_regs (s : State) (a v : Word) : (s.cacheRead a v).regs = s.regs := rfl
@[simp] theorem State.cacheRead_pc (s : State) (a v : Word) : (s.cacheRead a v).pc = s.pc := rfl
@[simp] theorem State.cacheRead_flags (s : State) (a v : Word) : (s.cacheRead a v).flags = s.flags := rfl
@[simp] theorem State.cacheRead_fst (s : State) (a v : Word) : (s.cacheRead a v).fst = s.fst := rfl
@[simp] theorem State.cacheRead_halted (s : State) (a v : Word) : (s.cacheRead a v).halted = s.halted := rfl
@[simp] theorem State.cacheRead_fault (s : State) (a v : Word) : (s.cacheRead a v).fault = s.fault := rfl
@[simp] theorem State.cacheRead_suspend (s : State) (a v : Word) : (s.cacheRead a v).suspend = s.suspend := rfl
@[simp] theorem State.cacheRead_ivt (s : State) (a v : Word) : (s.cacheRead a v).ivt = s.ivt := rfl
@[simp] theorem State.cacheRead_mem (s : State) (a v : Word) : (s.cacheRead a v).mem = s.mem := rfl
@[simp] theorem State.cacheRead_memSize (s : State) (a v : Word) : (s.cacheRead a v).memSize = s.memSize := rfl
@[simp] theorem State.cacheRead_pagingEnabled (s : State) (a v : Word) : (s.cacheRead a v).pagingEnabled = s.pagingEnabled := rfl
@[simp] theorem State.cacheRead_pageTable (s : State) (a v : Word) : (s.cacheRead a v).pageTable = s.pageTable := rfl
@[simp] theorem State.cacheRead_nextFreePPage (s : State) (a v : Word) : (s.cacheRead a v).nextFreePPage = s.nextFreePPage := rfl
@[simp] theorem State.cacheRead_regions (s : State) (a v : Word) : (s.cacheRead a v).regions = s.regions := rfl
@[simp] theorem State.cacheRead_cache (s : State) (a v : Word) : (s.cacheRead a v).cache = Assoc.put (if s.cacheHolds a then s.cache else s.cacheRoom) a.toNat v := rfl
@[simp] theorem State.cacheRead_cacheHits (s : State) (a v : Word) : (s.cacheRead a v).cacheHits = s.cacheHits + (s.cacheHolds a).toNat := rfl
@[simp] theorem State.cacheRead_cacheMisses (s : State) (a v : Word) : (s.cacheRead a v).cacheMisses = s.cacheMisses + (!s.cacheHolds a).toNat := rfl
@[simp] theorem State.cacheRead_mmio (s : State) (a v : Word) : (s.cacheRead a v).mmio = s.mmio := rfl
@[simp] theorem State.cacheRead_framebuffer (s : State) (a v : Word) : (s.cacheRead a v).framebuffer = s.framebuffer := rfl
@[simp] theorem State.cacheRead_threads (s : State) (a v : Word) : (s.cacheRead a v).threads = s.threads := rfl
@[simp] theorem State.cacheRead_readyQueue (s : State) (a v : Word) : (s.cacheRead a v).readyQueue = s.readyQueue := rfl
@[simp] theorem State.cacheRead_running (s : State) (a v : Word) : (s.cacheRead a v).running = s.running := rfl
@[simp] theorem State.cacheRead_nextId (s : State) (a v : Word) : (s.cacheRead a v).nextId = s.nextId := rfl
@[simp] theorem State.cacheRead_totalInstret (s : State) (a v : Word) : (s.cacheRead a v).totalInstret = s.totalInstret := rfl
@[simp] theorem State.cacheRead_params (s : State) (a v : Word) : (s.cacheRead a v).params = s.params := rfl
@[simp] theorem State.cacheRead_driver (s : State) (a v : Word) : (s.cacheRead a v).driver = s.driver := rfl
@[simp] theorem State.cacheRead_answered (s : State) (a v : Word) : (s.cacheRead a v).answered = s.answered := rfl
@[simp] theorem State.cacheRead_now (s : State) (a v : Word) : (s.cacheRead a v).now = s.now := rfl
@[simp] theorem State.cacheRead_draws (s : State) (a v : Word) : (s.cacheRead a v).draws = s.draws + (!s.cacheHolds a).toNat := rfl
@[simp] theorem State.cacheRead_deviceLog (s : State) (a v : Word) : (s.cacheRead a v).deviceLog = s.deviceLog := rfl
@[simp] theorem State.cacheRead_retired (s : State) (a v : Word) : (s.cacheRead a v).retired = s.retired := rfl

/-! cacheInvalidate -/

@[simp] theorem State.cacheInvalidate_regs (s : State) (a : Word) : (s.cacheInvalidate a).regs = s.regs := rfl
@[simp] theorem State.cacheInvalidate_pc (s : State) (a : Word) : (s.cacheInvalidate a).pc = s.pc := rfl
@[simp] theorem State.cacheInvalidate_flags (s : State) (a : Word) : (s.cacheInvalidate a).flags = s.flags := rfl
@[simp] theorem State.cacheInvalidate_fst (s : State) (a : Word) : (s.cacheInvalidate a).fst = s.fst := rfl
@[simp] theorem State.cacheInvalidate_halted (s : State) (a : Word) : (s.cacheInvalidate a).halted = s.halted := rfl
@[simp] theorem State.cacheInvalidate_fault (s : State) (a : Word) : (s.cacheInvalidate a).fault = s.fault := rfl
@[simp] theorem State.cacheInvalidate_suspend (s : State) (a : Word) : (s.cacheInvalidate a).suspend = s.suspend := rfl
@[simp] theorem State.cacheInvalidate_ivt (s : State) (a : Word) : (s.cacheInvalidate a).ivt = s.ivt := rfl
@[simp] theorem State.cacheInvalidate_mem (s : State) (a : Word) : (s.cacheInvalidate a).mem = s.mem := rfl
@[simp] theorem State.cacheInvalidate_memSize (s : State) (a : Word) : (s.cacheInvalidate a).memSize = s.memSize := rfl
@[simp] theorem State.cacheInvalidate_pagingEnabled (s : State) (a : Word) : (s.cacheInvalidate a).pagingEnabled = s.pagingEnabled := rfl
@[simp] theorem State.cacheInvalidate_pageTable (s : State) (a : Word) : (s.cacheInvalidate a).pageTable = s.pageTable := rfl
@[simp] theorem State.cacheInvalidate_nextFreePPage (s : State) (a : Word) : (s.cacheInvalidate a).nextFreePPage = s.nextFreePPage := rfl
@[simp] theorem State.cacheInvalidate_regions (s : State) (a : Word) : (s.cacheInvalidate a).regions = s.regions := rfl
@[simp] theorem State.cacheInvalidate_cache (s : State) (a : Word) : (s.cacheInvalidate a).cache = Assoc.erase s.cache a.toNat := rfl
@[simp] theorem State.cacheInvalidate_cacheHits (s : State) (a : Word) : (s.cacheInvalidate a).cacheHits = s.cacheHits := rfl
@[simp] theorem State.cacheInvalidate_cacheMisses (s : State) (a : Word) : (s.cacheInvalidate a).cacheMisses = s.cacheMisses := rfl
@[simp] theorem State.cacheInvalidate_mmio (s : State) (a : Word) : (s.cacheInvalidate a).mmio = s.mmio := rfl
@[simp] theorem State.cacheInvalidate_framebuffer (s : State) (a : Word) : (s.cacheInvalidate a).framebuffer = s.framebuffer := rfl
@[simp] theorem State.cacheInvalidate_threads (s : State) (a : Word) : (s.cacheInvalidate a).threads = s.threads := rfl
@[simp] theorem State.cacheInvalidate_readyQueue (s : State) (a : Word) : (s.cacheInvalidate a).readyQueue = s.readyQueue := rfl
@[simp] theorem State.cacheInvalidate_running (s : State) (a : Word) : (s.cacheInvalidate a).running = s.running := rfl
@[simp] theorem State.cacheInvalidate_nextId (s : State) (a : Word) : (s.cacheInvalidate a).nextId = s.nextId := rfl
@[simp] theorem State.cacheInvalidate_totalInstret (s : State) (a : Word) : (s.cacheInvalidate a).totalInstret = s.totalInstret := rfl
@[simp] theorem State.cacheInvalidate_params (s : State) (a : Word) : (s.cacheInvalidate a).params = s.params := rfl
@[simp] theorem State.cacheInvalidate_driver (s : State) (a : Word) : (s.cacheInvalidate a).driver = s.driver := rfl
@[simp] theorem State.cacheInvalidate_answered (s : State) (a : Word) : (s.cacheInvalidate a).answered = s.answered := rfl
@[simp] theorem State.cacheInvalidate_now (s : State) (a : Word) : (s.cacheInvalidate a).now = s.now := rfl
@[simp] theorem State.cacheInvalidate_draws (s : State) (a : Word) : (s.cacheInvalidate a).draws = s.draws := rfl
@[simp] theorem State.cacheInvalidate_deviceLog (s : State) (a : Word) : (s.cacheInvalidate a).deviceLog = s.deviceLog := rfl
@[simp] theorem State.cacheInvalidate_retired (s : State) (a : Word) : (s.cacheInvalidate a).retired = s.retired := rfl

/-! sendDevice -/

@[simp] theorem State.sendDevice_regs (s : State) (q : DeviceRequest) : (s.sendDevice q).regs = s.regs := rfl
@[simp] theorem State.sendDevice_pc (s : State) (q : DeviceRequest) : (s.sendDevice q).pc = s.pc := rfl
@[simp] theorem State.sendDevice_flags (s : State) (q : DeviceRequest) : (s.sendDevice q).flags = s.flags := rfl
@[simp] theorem State.sendDevice_fst (s : State) (q : DeviceRequest) : (s.sendDevice q).fst = s.fst := rfl
@[simp] theorem State.sendDevice_halted (s : State) (q : DeviceRequest) : (s.sendDevice q).halted = s.halted := rfl
@[simp] theorem State.sendDevice_fault (s : State) (q : DeviceRequest) : (s.sendDevice q).fault = s.fault := rfl
@[simp] theorem State.sendDevice_suspend (s : State) (q : DeviceRequest) : (s.sendDevice q).suspend = s.suspend := rfl
@[simp] theorem State.sendDevice_ivt (s : State) (q : DeviceRequest) : (s.sendDevice q).ivt = s.ivt := rfl
@[simp] theorem State.sendDevice_mem (s : State) (q : DeviceRequest) : (s.sendDevice q).mem = s.mem := rfl
@[simp] theorem State.sendDevice_memSize (s : State) (q : DeviceRequest) : (s.sendDevice q).memSize = s.memSize := rfl
@[simp] theorem State.sendDevice_pagingEnabled (s : State) (q : DeviceRequest) : (s.sendDevice q).pagingEnabled = s.pagingEnabled := rfl
@[simp] theorem State.sendDevice_pageTable (s : State) (q : DeviceRequest) : (s.sendDevice q).pageTable = s.pageTable := rfl
@[simp] theorem State.sendDevice_nextFreePPage (s : State) (q : DeviceRequest) : (s.sendDevice q).nextFreePPage = s.nextFreePPage := rfl
@[simp] theorem State.sendDevice_regions (s : State) (q : DeviceRequest) : (s.sendDevice q).regions = s.regions := rfl
@[simp] theorem State.sendDevice_cache (s : State) (q : DeviceRequest) : (s.sendDevice q).cache = s.cache := rfl
@[simp] theorem State.sendDevice_cacheHits (s : State) (q : DeviceRequest) : (s.sendDevice q).cacheHits = s.cacheHits := rfl
@[simp] theorem State.sendDevice_cacheMisses (s : State) (q : DeviceRequest) : (s.sendDevice q).cacheMisses = s.cacheMisses := rfl
@[simp] theorem State.sendDevice_mmio (s : State) (q : DeviceRequest) : (s.sendDevice q).mmio = s.mmio := rfl
@[simp] theorem State.sendDevice_framebuffer (s : State) (q : DeviceRequest) : (s.sendDevice q).framebuffer = s.framebuffer := rfl
@[simp] theorem State.sendDevice_threads (s : State) (q : DeviceRequest) : (s.sendDevice q).threads = s.threads := rfl
@[simp] theorem State.sendDevice_readyQueue (s : State) (q : DeviceRequest) : (s.sendDevice q).readyQueue = s.readyQueue := rfl
@[simp] theorem State.sendDevice_running (s : State) (q : DeviceRequest) : (s.sendDevice q).running = s.running := rfl
@[simp] theorem State.sendDevice_nextId (s : State) (q : DeviceRequest) : (s.sendDevice q).nextId = s.nextId := rfl
@[simp] theorem State.sendDevice_totalInstret (s : State) (q : DeviceRequest) : (s.sendDevice q).totalInstret = s.totalInstret := rfl
@[simp] theorem State.sendDevice_params (s : State) (q : DeviceRequest) : (s.sendDevice q).params = s.params := rfl
@[simp] theorem State.sendDevice_driver (s : State) (q : DeviceRequest) : (s.sendDevice q).driver = s.driver := rfl
@[simp] theorem State.sendDevice_answered (s : State) (q : DeviceRequest) : (s.sendDevice q).answered = s.answered := rfl
@[simp] theorem State.sendDevice_now (s : State) (q : DeviceRequest) : (s.sendDevice q).now = s.now := rfl
@[simp] theorem State.sendDevice_draws (s : State) (q : DeviceRequest) : (s.sendDevice q).draws = s.draws + 1 := rfl
@[simp] theorem State.sendDevice_deviceLog (s : State) (q : DeviceRequest) : (s.sendDevice q).deviceLog = q :: s.deviceLog := rfl
@[simp] theorem State.sendDevice_retired (s : State) (q : DeviceRequest) : (s.sendDevice q).retired = s.retired := rfl

/-! writePlain -/

@[simp] theorem State.writePlain_regs (s : State) (a : Word) (p : Nat) (w : Width) (v : Word) : (s.writePlain a p w v).regs = s.regs := rfl
@[simp] theorem State.writePlain_pc (s : State) (a : Word) (p : Nat) (w : Width) (v : Word) : (s.writePlain a p w v).pc = s.pc := rfl
@[simp] theorem State.writePlain_flags (s : State) (a : Word) (p : Nat) (w : Width) (v : Word) : (s.writePlain a p w v).flags = s.flags := rfl
@[simp] theorem State.writePlain_fst (s : State) (a : Word) (p : Nat) (w : Width) (v : Word) : (s.writePlain a p w v).fst = s.fst := rfl
@[simp] theorem State.writePlain_halted (s : State) (a : Word) (p : Nat) (w : Width) (v : Word) : (s.writePlain a p w v).halted = s.halted := rfl
@[simp] theorem State.writePlain_fault (s : State) (a : Word) (p : Nat) (w : Width) (v : Word) : (s.writePlain a p w v).fault = s.fault := rfl
@[simp] theorem State.writePlain_suspend (s : State) (a : Word) (p : Nat) (w : Width) (v : Word) : (s.writePlain a p w v).suspend = s.suspend := rfl
@[simp] theorem State.writePlain_ivt (s : State) (a : Word) (p : Nat) (w : Width) (v : Word) : (s.writePlain a p w v).ivt = s.ivt := rfl
@[simp] theorem State.writePlain_mem (s : State) (a : Word) (p : Nat) (w : Width) (v : Word) : (s.writePlain a p w v).mem = memWrite s.mem p w v := rfl
@[simp] theorem State.writePlain_memSize (s : State) (a : Word) (p : Nat) (w : Width) (v : Word) : (s.writePlain a p w v).memSize = s.memSize := rfl
@[simp] theorem State.writePlain_pagingEnabled (s : State) (a : Word) (p : Nat) (w : Width) (v : Word) : (s.writePlain a p w v).pagingEnabled = s.pagingEnabled := rfl
@[simp] theorem State.writePlain_pageTable (s : State) (a : Word) (p : Nat) (w : Width) (v : Word) : (s.writePlain a p w v).pageTable = s.pageTable := rfl
@[simp] theorem State.writePlain_nextFreePPage (s : State) (a : Word) (p : Nat) (w : Width) (v : Word) : (s.writePlain a p w v).nextFreePPage = s.nextFreePPage := rfl
@[simp] theorem State.writePlain_regions (s : State) (a : Word) (p : Nat) (w : Width) (v : Word) : (s.writePlain a p w v).regions = s.regions := rfl
@[simp] theorem State.writePlain_cache (s : State) (a : Word) (p : Nat) (w : Width) (v : Word) : (s.writePlain a p w v).cache = Assoc.erase s.cache a.toNat := rfl
@[simp] theorem State.writePlain_cacheHits (s : State) (a : Word) (p : Nat) (w : Width) (v : Word) : (s.writePlain a p w v).cacheHits = s.cacheHits := rfl
@[simp] theorem State.writePlain_cacheMisses (s : State) (a : Word) (p : Nat) (w : Width) (v : Word) : (s.writePlain a p w v).cacheMisses = s.cacheMisses := rfl
@[simp] theorem State.writePlain_mmio (s : State) (a : Word) (p : Nat) (w : Width) (v : Word) : (s.writePlain a p w v).mmio = s.mmio := rfl
@[simp] theorem State.writePlain_framebuffer (s : State) (a : Word) (p : Nat) (w : Width) (v : Word) : (s.writePlain a p w v).framebuffer = s.framebuffer := rfl
@[simp] theorem State.writePlain_threads (s : State) (a : Word) (p : Nat) (w : Width) (v : Word) : (s.writePlain a p w v).threads = s.threads := rfl
@[simp] theorem State.writePlain_readyQueue (s : State) (a : Word) (p : Nat) (w : Width) (v : Word) : (s.writePlain a p w v).readyQueue = s.readyQueue := rfl
@[simp] theorem State.writePlain_running (s : State) (a : Word) (p : Nat) (w : Width) (v : Word) : (s.writePlain a p w v).running = s.running := rfl
@[simp] theorem State.writePlain_nextId (s : State) (a : Word) (p : Nat) (w : Width) (v : Word) : (s.writePlain a p w v).nextId = s.nextId := rfl
@[simp] theorem State.writePlain_totalInstret (s : State) (a : Word) (p : Nat) (w : Width) (v : Word) : (s.writePlain a p w v).totalInstret = s.totalInstret := rfl
@[simp] theorem State.writePlain_params (s : State) (a : Word) (p : Nat) (w : Width) (v : Word) : (s.writePlain a p w v).params = s.params := rfl
@[simp] theorem State.writePlain_driver (s : State) (a : Word) (p : Nat) (w : Width) (v : Word) : (s.writePlain a p w v).driver = s.driver := rfl
@[simp] theorem State.writePlain_answered (s : State) (a : Word) (p : Nat) (w : Width) (v : Word) : (s.writePlain a p w v).answered = s.answered := rfl
@[simp] theorem State.writePlain_now (s : State) (a : Word) (p : Nat) (w : Width) (v : Word) : (s.writePlain a p w v).now = s.now := rfl
@[simp] theorem State.writePlain_draws (s : State) (a : Word) (p : Nat) (w : Width) (v : Word) : (s.writePlain a p w v).draws = s.draws := rfl
@[simp] theorem State.writePlain_deviceLog (s : State) (a : Word) (p : Nat) (w : Width) (v : Word) : (s.writePlain a p w v).deviceLog = s.deviceLog := rfl
@[simp] theorem State.writePlain_retired (s : State) (a : Word) (p : Nat) (w : Width) (v : Word) : (s.writePlain a p w v).retired = s.retired := rfl

/-! countInstruction -/

@[simp] theorem State.countInstruction_regs (s : State) : (s.countInstruction).regs = s.regs := rfl
@[simp] theorem State.countInstruction_pc (s : State) : (s.countInstruction).pc = s.pc := rfl
@[simp] theorem State.countInstruction_flags (s : State) : (s.countInstruction).flags = s.flags := rfl
@[simp] theorem State.countInstruction_fst (s : State) : (s.countInstruction).fst = s.fst := rfl
@[simp] theorem State.countInstruction_halted (s : State) : (s.countInstruction).halted = s.halted := rfl
@[simp] theorem State.countInstruction_fault (s : State) : (s.countInstruction).fault = s.fault := rfl
@[simp] theorem State.countInstruction_suspend (s : State) : (s.countInstruction).suspend = s.suspend := rfl
@[simp] theorem State.countInstruction_ivt (s : State) : (s.countInstruction).ivt = s.ivt := rfl
@[simp] theorem State.countInstruction_mem (s : State) : (s.countInstruction).mem = s.mem := rfl
@[simp] theorem State.countInstruction_memSize (s : State) : (s.countInstruction).memSize = s.memSize := rfl
@[simp] theorem State.countInstruction_pagingEnabled (s : State) : (s.countInstruction).pagingEnabled = s.pagingEnabled := rfl
@[simp] theorem State.countInstruction_pageTable (s : State) : (s.countInstruction).pageTable = s.pageTable := rfl
@[simp] theorem State.countInstruction_nextFreePPage (s : State) : (s.countInstruction).nextFreePPage = s.nextFreePPage := rfl
@[simp] theorem State.countInstruction_regions (s : State) : (s.countInstruction).regions = s.regions := rfl
@[simp] theorem State.countInstruction_cache (s : State) : (s.countInstruction).cache = s.cache := rfl
@[simp] theorem State.countInstruction_cacheHits (s : State) : (s.countInstruction).cacheHits = s.cacheHits := rfl
@[simp] theorem State.countInstruction_cacheMisses (s : State) : (s.countInstruction).cacheMisses = s.cacheMisses := rfl
@[simp] theorem State.countInstruction_mmio (s : State) : (s.countInstruction).mmio = s.mmio := rfl
@[simp] theorem State.countInstruction_framebuffer (s : State) : (s.countInstruction).framebuffer = s.framebuffer := rfl
@[simp] theorem State.countInstruction_threads (s : State) : (s.countInstruction).threads = s.countedThreads := rfl
@[simp] theorem State.countInstruction_readyQueue (s : State) : (s.countInstruction).readyQueue = s.readyQueue := rfl
@[simp] theorem State.countInstruction_running (s : State) : (s.countInstruction).running = s.running := rfl
@[simp] theorem State.countInstruction_nextId (s : State) : (s.countInstruction).nextId = s.nextId := rfl
@[simp] theorem State.countInstruction_totalInstret (s : State) : (s.countInstruction).totalInstret = s.totalInstret + s.runningThread.isSome.toNat := rfl
@[simp] theorem State.countInstruction_params (s : State) : (s.countInstruction).params = s.params := rfl
@[simp] theorem State.countInstruction_driver (s : State) : (s.countInstruction).driver = s.driver := rfl
@[simp] theorem State.countInstruction_answered (s : State) : (s.countInstruction).answered = s.answered := rfl
@[simp] theorem State.countInstruction_now (s : State) : (s.countInstruction).now = s.now := rfl
@[simp] theorem State.countInstruction_draws (s : State) : (s.countInstruction).draws = s.draws := rfl
@[simp] theorem State.countInstruction_deviceLog (s : State) : (s.countInstruction).deviceLog = s.deviceLog := rfl
@[simp] theorem State.countInstruction_retired (s : State) : (s.countInstruction).retired = s.retired := rfl

/-! complete -/

@[simp] theorem State.complete_regs (s : State) (n : Word) : (s.complete n).regs = s.regs := rfl
@[simp] theorem State.complete_pc (s : State) (n : Word) : (s.complete n).pc = n := rfl
@[simp] theorem State.complete_flags (s : State) (n : Word) : (s.complete n).flags = s.flags := rfl
@[simp] theorem State.complete_fst (s : State) (n : Word) : (s.complete n).fst = s.fst := rfl
@[simp] theorem State.complete_halted (s : State) (n : Word) : (s.complete n).halted = s.halted := rfl
@[simp] theorem State.complete_fault (s : State) (n : Word) : (s.complete n).fault = s.fault := rfl
@[simp] theorem State.complete_suspend (s : State) (n : Word) : (s.complete n).suspend = s.suspend := rfl
@[simp] theorem State.complete_ivt (s : State) (n : Word) : (s.complete n).ivt = s.ivt := rfl
@[simp] theorem State.complete_mem (s : State) (n : Word) : (s.complete n).mem = s.mem := rfl
@[simp] theorem State.complete_memSize (s : State) (n : Word) : (s.complete n).memSize = s.memSize := rfl
@[simp] theorem State.complete_pagingEnabled (s : State) (n : Word) : (s.complete n).pagingEnabled = s.pagingEnabled := rfl
@[simp] theorem State.complete_pageTable (s : State) (n : Word) : (s.complete n).pageTable = s.pageTable := rfl
@[simp] theorem State.complete_nextFreePPage (s : State) (n : Word) : (s.complete n).nextFreePPage = s.nextFreePPage := rfl
@[simp] theorem State.complete_regions (s : State) (n : Word) : (s.complete n).regions = s.regions := rfl
@[simp] theorem State.complete_cache (s : State) (n : Word) : (s.complete n).cache = s.cache := rfl
@[simp] theorem State.complete_cacheHits (s : State) (n : Word) : (s.complete n).cacheHits = s.cacheHits := rfl
@[simp] theorem State.complete_cacheMisses (s : State) (n : Word) : (s.complete n).cacheMisses = s.cacheMisses := rfl
@[simp] theorem State.complete_mmio (s : State) (n : Word) : (s.complete n).mmio = s.mmio := rfl
@[simp] theorem State.complete_framebuffer (s : State) (n : Word) : (s.complete n).framebuffer = s.framebuffer := rfl
@[simp] theorem State.complete_threads (s : State) (n : Word) : (s.complete n).threads = s.countedThreads := rfl
@[simp] theorem State.complete_readyQueue (s : State) (n : Word) : (s.complete n).readyQueue = s.readyQueue := rfl
@[simp] theorem State.complete_running (s : State) (n : Word) : (s.complete n).running = s.running := rfl
@[simp] theorem State.complete_nextId (s : State) (n : Word) : (s.complete n).nextId = s.nextId := rfl
@[simp] theorem State.complete_totalInstret (s : State) (n : Word) : (s.complete n).totalInstret = s.totalInstret + s.runningThread.isSome.toNat := rfl
@[simp] theorem State.complete_params (s : State) (n : Word) : (s.complete n).params = s.params := rfl
@[simp] theorem State.complete_driver (s : State) (n : Word) : (s.complete n).driver = s.driver := rfl
@[simp] theorem State.complete_answered (s : State) (n : Word) : (s.complete n).answered = s.answered := rfl
@[simp] theorem State.complete_now (s : State) (n : Word) : (s.complete n).now = s.now := rfl
@[simp] theorem State.complete_draws (s : State) (n : Word) : (s.complete n).draws = s.draws := rfl
@[simp] theorem State.complete_deviceLog (s : State) (n : Word) : (s.complete n).deviceLog = s.deviceLog := rfl
@[simp] theorem State.complete_retired (s : State) (n : Word) : (s.complete n).retired = s.retired := rfl

/-! haltWith -/

@[simp] theorem State.haltWith_regs (s : State) (pre : State) (f : FaultRec) : (s.haltWith pre f).regs = pre.regs := rfl
@[simp] theorem State.haltWith_pc (s : State) (pre : State) (f : FaultRec) : (s.haltWith pre f).pc = pre.pc := rfl
@[simp] theorem State.haltWith_flags (s : State) (pre : State) (f : FaultRec) : (s.haltWith pre f).flags = pre.flags := rfl
@[simp] theorem State.haltWith_fst (s : State) (pre : State) (f : FaultRec) : (s.haltWith pre f).fst = pre.fst := rfl
@[simp] theorem State.haltWith_halted (s : State) (pre : State) (f : FaultRec) : (s.haltWith pre f).halted = true := rfl
@[simp] theorem State.haltWith_fault (s : State) (pre : State) (f : FaultRec) : (s.haltWith pre f).fault = some f := rfl
@[simp] theorem State.haltWith_suspend (s : State) (pre : State) (f : FaultRec) : (s.haltWith pre f).suspend = s.suspend := rfl
@[simp] theorem State.haltWith_ivt (s : State) (pre : State) (f : FaultRec) : (s.haltWith pre f).ivt = s.ivt := rfl
@[simp] theorem State.haltWith_mem (s : State) (pre : State) (f : FaultRec) : (s.haltWith pre f).mem = s.mem := rfl
@[simp] theorem State.haltWith_memSize (s : State) (pre : State) (f : FaultRec) : (s.haltWith pre f).memSize = s.memSize := rfl
@[simp] theorem State.haltWith_pagingEnabled (s : State) (pre : State) (f : FaultRec) : (s.haltWith pre f).pagingEnabled = s.pagingEnabled := rfl
@[simp] theorem State.haltWith_pageTable (s : State) (pre : State) (f : FaultRec) : (s.haltWith pre f).pageTable = s.pageTable := rfl
@[simp] theorem State.haltWith_nextFreePPage (s : State) (pre : State) (f : FaultRec) : (s.haltWith pre f).nextFreePPage = s.nextFreePPage := rfl
@[simp] theorem State.haltWith_regions (s : State) (pre : State) (f : FaultRec) : (s.haltWith pre f).regions = s.regions := rfl
@[simp] theorem State.haltWith_cache (s : State) (pre : State) (f : FaultRec) : (s.haltWith pre f).cache = s.cache := rfl
@[simp] theorem State.haltWith_cacheHits (s : State) (pre : State) (f : FaultRec) : (s.haltWith pre f).cacheHits = s.cacheHits := rfl
@[simp] theorem State.haltWith_cacheMisses (s : State) (pre : State) (f : FaultRec) : (s.haltWith pre f).cacheMisses = s.cacheMisses := rfl
@[simp] theorem State.haltWith_mmio (s : State) (pre : State) (f : FaultRec) : (s.haltWith pre f).mmio = s.mmio := rfl
@[simp] theorem State.haltWith_framebuffer (s : State) (pre : State) (f : FaultRec) : (s.haltWith pre f).framebuffer = s.framebuffer := rfl
@[simp] theorem State.haltWith_threads (s : State) (pre : State) (f : FaultRec) : (s.haltWith pre f).threads = s.threads := rfl
@[simp] theorem State.haltWith_readyQueue (s : State) (pre : State) (f : FaultRec) : (s.haltWith pre f).readyQueue = s.readyQueue := rfl
@[simp] theorem State.haltWith_running (s : State) (pre : State) (f : FaultRec) : (s.haltWith pre f).running = s.running := rfl
@[simp] theorem State.haltWith_nextId (s : State) (pre : State) (f : FaultRec) : (s.haltWith pre f).nextId = s.nextId := rfl
@[simp] theorem State.haltWith_totalInstret (s : State) (pre : State) (f : FaultRec) : (s.haltWith pre f).totalInstret = s.totalInstret := rfl
@[simp] theorem State.haltWith_params (s : State) (pre : State) (f : FaultRec) : (s.haltWith pre f).params = s.params := rfl
@[simp] theorem State.haltWith_driver (s : State) (pre : State) (f : FaultRec) : (s.haltWith pre f).driver = s.driver := rfl
@[simp] theorem State.haltWith_answered (s : State) (pre : State) (f : FaultRec) : (s.haltWith pre f).answered = s.answered := rfl
@[simp] theorem State.haltWith_now (s : State) (pre : State) (f : FaultRec) : (s.haltWith pre f).now = s.now := rfl
@[simp] theorem State.haltWith_draws (s : State) (pre : State) (f : FaultRec) : (s.haltWith pre f).draws = s.draws := rfl
@[simp] theorem State.haltWith_deviceLog (s : State) (pre : State) (f : FaultRec) : (s.haltWith pre f).deviceLog = s.deviceLog := rfl
@[simp] theorem State.haltWith_retired (s : State) (pre : State) (f : FaultRec) : (s.haltWith pre f).retired = s.retired := rfl

/-! readClock -/

@[simp] theorem State.readClock_regs (s : State) : (s.readClock).regs = s.regs := rfl
@[simp] theorem State.readClock_pc (s : State) : (s.readClock).pc = s.pc := rfl
@[simp] theorem State.readClock_flags (s : State) : (s.readClock).flags = s.flags := rfl
@[simp] theorem State.readClock_fst (s : State) : (s.readClock).fst = s.fst := rfl
@[simp] theorem State.readClock_halted (s : State) : (s.readClock).halted = s.halted := rfl
@[simp] theorem State.readClock_fault (s : State) : (s.readClock).fault = s.fault := rfl
@[simp] theorem State.readClock_suspend (s : State) : (s.readClock).suspend = s.suspend := rfl
@[simp] theorem State.readClock_ivt (s : State) : (s.readClock).ivt = s.ivt := rfl
@[simp] theorem State.readClock_mem (s : State) : (s.readClock).mem = s.mem := rfl
@[simp] theorem State.readClock_memSize (s : State) : (s.readClock).memSize = s.memSize := rfl
@[simp] theorem State.readClock_pagingEnabled (s : State) : (s.readClock).pagingEnabled = s.pagingEnabled := rfl
@[simp] theorem State.readClock_pageTable (s : State) : (s.readClock).pageTable = s.pageTable := rfl
@[simp] theorem State.readClock_nextFreePPage (s : State) : (s.readClock).nextFreePPage = s.nextFreePPage := rfl
@[simp] theorem State.readClock_regions (s : State) : (s.readClock).regions = s.regions := rfl
@[simp] theorem State.readClock_cache (s : State) : (s.readClock).cache = s.cache := rfl
@[simp] theorem State.readClock_cacheHits (s : State) : (s.readClock).cacheHits = s.cacheHits := rfl
@[simp] theorem State.readClock_cacheMisses (s : State) : (s.readClock).cacheMisses = s.cacheMisses := rfl
@[simp] theorem State.readClock_mmio (s : State) : (s.readClock).mmio = s.mmio := rfl
@[simp] theorem State.readClock_framebuffer (s : State) : (s.readClock).framebuffer = s.framebuffer := rfl
@[simp] theorem State.readClock_threads (s : State) : (s.readClock).threads = s.threads := rfl
@[simp] theorem State.readClock_readyQueue (s : State) : (s.readClock).readyQueue = s.readyQueue := rfl
@[simp] theorem State.readClock_running (s : State) : (s.readClock).running = s.running := rfl
@[simp] theorem State.readClock_nextId (s : State) : (s.readClock).nextId = s.nextId := rfl
@[simp] theorem State.readClock_totalInstret (s : State) : (s.readClock).totalInstret = s.totalInstret := rfl
@[simp] theorem State.readClock_params (s : State) : (s.readClock).params = s.params := rfl
@[simp] theorem State.readClock_driver (s : State) : (s.readClock).driver = s.driver := rfl
@[simp] theorem State.readClock_answered (s : State) : (s.readClock).answered = s.answered := rfl
@[simp] theorem State.readClock_now (s : State) : (s.readClock).now = s.now + Config.clockAdvance s.draws := rfl
@[simp] theorem State.readClock_draws (s : State) : (s.readClock).draws = s.draws + 1 := rfl
@[simp] theorem State.readClock_deviceLog (s : State) : (s.readClock).deviceLog = s.deviceLog := rfl
@[simp] theorem State.readClock_retired (s : State) : (s.readClock).retired = s.retired := rfl

/-! restore -/

@[simp] theorem State.restore_regs (s : State) (c : Context) : (s.restore c).regs = c.regs := rfl
@[simp] theorem State.restore_pc (s : State) (c : Context) : (s.restore c).pc = c.pc := rfl
@[simp] theorem State.restore_flags (s : State) (c : Context) : (s.restore c).flags = c.flags := rfl
@[simp] theorem State.restore_fst (s : State) (c : Context) : (s.restore c).fst = c.fst := rfl
@[simp] theorem State.restore_halted (s : State) (c : Context) : (s.restore c).halted = s.halted := rfl
@[simp] theorem State.restore_fault (s : State) (c : Context) : (s.restore c).fault = s.fault := rfl
@[simp] theorem State.restore_suspend (s : State) (c : Context) : (s.restore c).suspend = s.suspend := rfl
@[simp] theorem State.restore_ivt (s : State) (c : Context) : (s.restore c).ivt = s.ivt := rfl
@[simp] theorem State.restore_mem (s : State) (c : Context) : (s.restore c).mem = s.mem := rfl
@[simp] theorem State.restore_memSize (s : State) (c : Context) : (s.restore c).memSize = s.memSize := rfl
@[simp] theorem State.restore_pagingEnabled (s : State) (c : Context) : (s.restore c).pagingEnabled = s.pagingEnabled := rfl
@[simp] theorem State.restore_pageTable (s : State) (c : Context) : (s.restore c).pageTable = s.pageTable := rfl
@[simp] theorem State.restore_nextFreePPage (s : State) (c : Context) : (s.restore c).nextFreePPage = s.nextFreePPage := rfl
@[simp] theorem State.restore_regions (s : State) (c : Context) : (s.restore c).regions = s.regions := rfl
@[simp] theorem State.restore_cache (s : State) (c : Context) : (s.restore c).cache = s.cache := rfl
@[simp] theorem State.restore_cacheHits (s : State) (c : Context) : (s.restore c).cacheHits = s.cacheHits := rfl
@[simp] theorem State.restore_cacheMisses (s : State) (c : Context) : (s.restore c).cacheMisses = s.cacheMisses := rfl
@[simp] theorem State.restore_mmio (s : State) (c : Context) : (s.restore c).mmio = s.mmio := rfl
@[simp] theorem State.restore_framebuffer (s : State) (c : Context) : (s.restore c).framebuffer = s.framebuffer := rfl
@[simp] theorem State.restore_threads (s : State) (c : Context) : (s.restore c).threads = s.threads := rfl
@[simp] theorem State.restore_readyQueue (s : State) (c : Context) : (s.restore c).readyQueue = s.readyQueue := rfl
@[simp] theorem State.restore_running (s : State) (c : Context) : (s.restore c).running = s.running := rfl
@[simp] theorem State.restore_nextId (s : State) (c : Context) : (s.restore c).nextId = s.nextId := rfl
@[simp] theorem State.restore_totalInstret (s : State) (c : Context) : (s.restore c).totalInstret = s.totalInstret := rfl
@[simp] theorem State.restore_params (s : State) (c : Context) : (s.restore c).params = s.params := rfl
@[simp] theorem State.restore_driver (s : State) (c : Context) : (s.restore c).driver = s.driver := rfl
@[simp] theorem State.restore_answered (s : State) (c : Context) : (s.restore c).answered = s.answered := rfl
@[simp] theorem State.restore_now (s : State) (c : Context) : (s.restore c).now = s.now := rfl
@[simp] theorem State.restore_draws (s : State) (c : Context) : (s.restore c).draws = s.draws := rfl
@[simp] theorem State.restore_deviceLog (s : State) (c : Context) : (s.restore c).deviceLog = s.deviceLog := rfl
@[simp] theorem State.restore_retired (s : State) (c : Context) : (s.restore c).retired = s.retired := rfl

/-! Registers. -/

@[simp] theorem State.readReg_writeReg_self (s : State) (i : RegIdx) (v : Word) :
    (s.writeReg i v).readReg i = v := by
  simp [State.readReg]

@[simp] theorem State.readReg_writeReg_ne (s : State) (i j : RegIdx) (v : Word) (h : j ≠ i) :
    (s.writeReg i v).readReg j = s.readReg j := by
  have h' : i.toNat ≠ j.toNat := fun e => h (BitVec.eq_of_toNat_eq e.symm)
  simp [State.readReg, h']

theorem State.readReg_writeReg (s : State) (i j : RegIdx) (v : Word) :
    (s.writeReg i v).readReg j = if j = i then v else s.readReg j := by
  by_cases h : j = i
  · subst h; simp
  · simp [h]

/-- Registers are read from the register vector alone. -/
theorem State.readReg_congr {s t : State} (h : s.regs = t.regs) (i : RegIdx) :
    s.readReg i = t.readReg i := by
  simp [State.readReg, h]

/-- The running thread's record depends on `running` and the thread map alone. -/
theorem State.runningThread_congr {s t : State} (hr : s.running = t.running)
    (ht : s.threads = t.threads) : s.runningThread = t.runningThread := by
  simp [State.runningThread, hr, ht]

/-- So does what counting makes of the thread map. -/
theorem State.countedThreads_congr {s t : State} (hr : s.running = t.running)
    (ht : s.threads = t.threads) : s.countedThreads = t.countedThreads := by
  simp [State.countedThreads, State.runningThread, hr, ht]

/-! The end of an instruction. -/

/-- An instruction that completes leaves `after` of the state whose registers, flags and FP stack it
wrote. -/
theorem State.complete_eq_after (s : State) (n : Word) :
    s.complete n = s.after s.regs s.flags s.fst n := rfl

/-- What an instruction's rule answers after an access: its next state, or a controlled halt. -/
theorem Res.orHalt_cases {α : Type} (r : Res α) (pre : State)
    (k : α → State → Host.Outcome State Fault Refusal) :
    (∃ v s, r = .ok v s ∧ r.orHalt pre k = k v s)
    ∨ (∃ f s, r = .trap f s ∧ r.orHalt pre k = .next (s.haltWith pre f)) := by
  cases r with
  | ok v s => exact .inl ⟨v, s, rfl, rfl⟩
  | trap f s => exact .inr ⟨f, s, rfl, rfl⟩

end Sys2Proof.Machine
end

