-- ==== Sys2Proof/Laws/Access.lean ====
section
/-!
SUPPORT. What the access pipeline can do (20_memory.md R75, R76), said once: the cases of each shared
operation, and that all of them are sequences of six primitive changes of State.
-/

namespace Sys2Proof.Machine

open Sys2Proof

/-! The cases of each operation. -/

/-- Translation succeeds with paging off, on a hit, or by a demand allocation (20_memory.md R84 to R86). -/
theorem State.translate_cases {s t : State} {a : Word} {p : Nat} (h : s.translate a = some (p, t)) :
    (s.pagingEnabled = false ∧ p = a.toNat ∧ t = s)
    ∨ (s.pagingEnabled = true ∧ ∃ ppn, Assoc.get s.pageTable (a.toNat / s.params.pageSize) = some ppn
        ∧ p = ppn * s.params.pageSize + a.toNat % s.params.pageSize ∧ t = s)
    ∨ (s.pagingEnabled = true ∧ Assoc.get s.pageTable (a.toNat / s.params.pageSize) = none
        ∧ (s.nextFreePPage + 1) * s.params.pageSize ≤ s.memSize
        ∧ p = s.nextFreePPage * s.params.pageSize + a.toNat % s.params.pageSize
        ∧ t = s.allocPage (a.toNat / s.params.pageSize)) := by
  unfold State.translate at h
  by_cases hp : s.pagingEnabled = true
  · rw [if_pos hp] at h
    cases hg : Assoc.get s.pageTable (a.toNat / s.params.pageSize) with
    | some ppn =>
      simp only [hg, Option.some.injEq, Prod.mk.injEq] at h
      exact .inr (.inl ⟨hp, ppn, rfl, h.1.symm, h.2.symm⟩)
    | none =>
      simp only [hg] at h
      split at h
      · cases h
      · simp only [Option.some.injEq, Prod.mk.injEq] at h
        exact .inr (.inr ⟨hp, rfl, by omega, h.1.symm, h.2.symm⟩)
  · rw [if_neg hp] at h
    simp only [Option.some.injEq, Prod.mk.injEq] at h
    exact .inl ⟨by simpa using hp, h.1.symm, h.2.symm⟩

/-- Translation fails only on a miss with no free page (20_memory.md R87). -/
theorem State.translate_none {s : State} {a : Word} (h : s.translate a = none) :
    s.pagingEnabled = true ∧ Assoc.get s.pageTable (a.toNat / s.params.pageSize) = none
    ∧ s.memSize < (s.nextFreePPage + 1) * s.params.pageSize := by
  unfold State.translate at h
  by_cases hp : s.pagingEnabled = true
  · rw [if_pos hp] at h
    cases hg : Assoc.get s.pageTable (a.toNat / s.params.pageSize) with
    | some ppn => simp [hg] at h
    | none =>
      simp only [hg] at h
      split at h
      · exact ⟨hp, rfl, by assumption⟩
      · cases h
  · rw [if_neg hp] at h
    cases h

/-- A load that succeeds was answered by a handler or read plain bytes (20_memory.md R75). -/
theorem State.load_ok {s t : State} {a : Word} {w : Width} {k : AccessKind} {v : Word}
    (h : s.load a w k = .ok v t) :
    (∃ d, s.ReachesDevice a w k d
      ∧ v = cutTo (Config.mmioAnswer s.draws (d.request a w none)) w
      ∧ t = s.sendDevice (d.request a w none))
    ∨ (∃ p s1, s.Reaches a w k p s1 ∧ v = memRead s1.mem p w ∧ t = s1.cacheRead a v) := by
  unfold State.load at h
  split at h
  · cases h
  · next h1 =>
    split at h
    · next h2 =>
      cases hm : s.mmioAt a with
      | some d =>
        simp only [hm, State.mmioRead, Res.ok.injEq] at h
        exact .inl ⟨d, ⟨by simpa using h1, h2, hm⟩, h.1.symm, h.2.symm⟩
      | none =>
        simp only [hm, State.readPlain] at h
        cases ht : s.translate a with
        | none => simp [ht] at h
        | some r =>
          simp only [ht] at h
          split at h
          · cases h
          · next h3 =>
            simp only [Res.ok.injEq] at h
            exact .inr ⟨r.1, r.2, ⟨⟨by simpa using h1, h2, hm⟩, ht, by omega⟩, h.1.symm,
              by rw [← h.1, ← h.2]⟩
    · cases h

/-- A load that faults did so at one step of the pipeline, in the state it says (20_memory.md R75, R77). -/
theorem State.load_trap {s t : State} {a : Word} {w : Width} {k : AccessKind} {f : FaultRec}
    (h : s.load a w k = .trap f t) :
    (misaligned a w = true ∧ f = .misalignedAccess s.pc a k ∧ t = s)
    ∨ (misaligned a w = false ∧ s.permits a w k = false ∧ f = .protectionViolation s.pc a k ∧ t = s)
    ∨ (s.Admits a w k ∧ s.translate a = none ∧ f = .outOfMemory s.pc a k ∧ t = s)
    ∨ (s.Admits a w k ∧ ∃ p, s.translate a = some (p, t) ∧ t.memSize < p + w.bytes
        ∧ f = .outOfRangeAccess s.pc a k) := by
  unfold State.load at h
  split at h
  · next h1 =>
    simp only [Res.trap.injEq] at h
    exact .inl ⟨h1, h.1.symm, h.2.symm⟩
  · next h1 =>
    have h1' : misaligned a w = false := by simpa using h1
    split at h
    · next h2 =>
      cases hm : s.mmioAt a with
      | some d => simp [hm, State.mmioRead] at h
      | none =>
        simp only [hm, State.readPlain] at h
        cases ht : s.translate a with
        | none =>
          simp only [ht, Res.trap.injEq] at h
          exact .inr (.inr (.inl ⟨⟨h1', h2, hm⟩, rfl, h.1.symm, h.2.symm⟩))
        | some r =>
          simp only [ht] at h
          split at h
          · next h3 =>
            simp only [Res.trap.injEq] at h
            refine .inr (.inr (.inr ⟨⟨h1', h2, hm⟩, r.1, ?_, ?_, h.1.symm⟩))
            · rw [← h.2]
            · rw [← h.2]; exact h3
          · cases h
    · next h2 =>
      simp only [Res.trap.injEq] at h
      exact .inr (.inl ⟨h1', by simpa using h2, h.1.symm, h.2.symm⟩)

/-- A store that succeeds was sent to a handler or written in place (20_memory.md R76). -/
theorem State.store_ok {s t : State} {a : Word} {w : Width} {v : Word} {u : Unit}
    (h : s.store a w v = .ok u t) :
    (∃ d, s.ReachesDevice a w .store d ∧ t = s.sendDevice (d.request a w (some (cutTo v w))))
    ∨ (∃ p s1, s.Reaches a w .store p s1 ∧ t = s1.writePlain a p w v) := by
  unfold State.store at h
  split at h
  · cases h
  · next h1 =>
    split at h
    · next h2 =>
      cases hm : s.mmioAt a with
      | some d =>
        simp only [hm, State.mmioWrite, Res.ok.injEq] at h
        exact .inl ⟨d, ⟨by simpa using h1, h2, hm⟩, h.2.symm⟩
      | none =>
        simp only [hm] at h
        cases ht : s.translate a with
        | none => simp [ht] at h
        | some r =>
          simp only [ht] at h
          split at h
          · cases h
          · next h3 =>
            simp only [Res.ok.injEq] at h
            exact .inr ⟨r.1, r.2, ⟨⟨by simpa using h1, h2, hm⟩, ht, by omega⟩, h.2.symm⟩
    · cases h

/-- A store that faults did so at one step of the pipeline, in the state it says (20_memory.md R76, R77). -/
theorem State.store_trap {s t : State} {a : Word} {w : Width} {v : Word} {f : FaultRec}
    (h : s.store a w v = .trap f t) :
    (misaligned a w = true ∧ f = .misalignedAccess s.pc a .store ∧ t = s)
    ∨ (misaligned a w = false ∧ s.permits a w .store = false ∧ f = .protectionViolation s.pc a .store
        ∧ t = s)
    ∨ (s.Admits a w .store ∧ s.translate a = none ∧ f = .outOfMemory s.pc a .store ∧ t = s)
    ∨ (s.Admits a w .store ∧ ∃ p, s.translate a = some (p, t) ∧ t.memSize < p + w.bytes
        ∧ f = .outOfRangeAccess s.pc a .store) := by
  unfold State.store at h
  split at h
  · next h1 =>
    simp only [Res.trap.injEq] at h
    exact .inl ⟨h1, h.1.symm, h.2.symm⟩
  · next h1 =>
    have h1' : misaligned a w = false := by simpa using h1
    split at h
    · next h2 =>
      cases hm : s.mmioAt a with
      | some d => simp [hm] at h
      | none =>
        simp only [hm] at h
        cases ht : s.translate a with
        | none =>
          simp only [ht, Res.trap.injEq] at h
          exact .inr (.inr (.inl ⟨⟨h1', h2, hm⟩, rfl, h.1.symm, h.2.symm⟩))
        | some r =>
          simp only [ht] at h
          split at h
          · next h3 =>
            simp only [Res.trap.injEq] at h
            refine .inr (.inr (.inr ⟨⟨h1', h2, hm⟩, r.1, ?_, ?_, h.1.symm⟩))
            · rw [← h.2]
            · rw [← h.2]; exact h3
          · cases h
    · next h2 =>
      simp only [Res.trap.injEq] at h
      exact .inr (.inl ⟨h1', by simpa using h2, h.1.symm, h.2.symm⟩)

/-- A load reaching plain memory. -/
theorem State.load_of_reaches {s s1 : State} {a : Word} {w : Width} {k : AccessKind} {p : Nat}
    (h : s.Reaches a w k p s1) :
    s.load a w k = .ok (memRead s1.mem p w) (s1.cacheRead a (memRead s1.mem p w)) := by
  obtain ⟨⟨h1, h2, h3⟩, h4, h5⟩ := h
  simp [State.load, State.readPlain, h1, h2, h3, h4, Nat.not_lt.2 h5]

/-- A store reaching plain memory. -/
theorem State.store_of_reaches {s s1 : State} {a : Word} {w : Width} {p : Nat} (v : Word)
    (h : s.Reaches a w .store p s1) : s.store a w v = .ok () (s1.writePlain a p w v) := by
  obtain ⟨⟨h1, h2, h3⟩, h4, h5⟩ := h
  simp [State.store, h1, h2, h3, h4, Nat.not_lt.2 h5]

/-- With paging off a plain word is reached at its own address. -/
theorem State.reaches_of_plainWord {s : State} {a : Word} {k : AccessKind} (h : s.PlainWord a k) :
    s.Reaches a .word k a.toNat s := by
  obtain ⟨h1, h2, h3⟩ := h
  exact ⟨h1, by simp [State.translate, h2], by simpa [Width.bytes] using h3⟩

/-! Every operation of the pipeline as primitive changes. -/

/-- The primitive changes an instruction's accesses are made of. -/
inductive AccessStep : State → State → Prop where
  | alloc (s : State) (vpn : Nat) (hp : s.pagingEnabled = true) (hg : Assoc.get s.pageTable vpn = none)
      (hf : (s.nextFreePPage + 1) * s.params.pageSize ≤ s.memSize) : AccessStep s (s.allocPage vpn)
  | cacheRead (s : State) (a v : Word) : AccessStep s (s.cacheRead a v)
  | write (s : State) (a : Word) (p : Nat) (w : Width) (v : Word) (hb : p + w.bytes ≤ s.memSize) :
      AccessStep s (s.writePlain a p w v)
  | device (s : State) (q : DeviceRequest) : AccessStep s (s.sendDevice q)
  | reg (s : State) (i : RegIdx) (v : Word) : AccessStep s (s.writeReg i v)

/-- Any number of primitive changes. -/
inductive Accesses : State → State → Prop where
  | refl (s : State) : Accesses s s
  | tail {s t u : State} (h : Accesses s t) (hs : AccessStep t u) : Accesses s u

theorem Accesses.trans {s t u : State} (h1 : Accesses s t) (h2 : Accesses t u) : Accesses s u := by
  induction h2 with
  | refl => exact h1
  | tail _ hs ih => exact .tail ih hs

theorem AccessStep.once {s t : State} (h : AccessStep s t) : Accesses s t :=
  .tail (.refl s) h

/-- A property that every primitive change keeps is kept by any number of them. -/
theorem Accesses.keeps {P : State → Prop} (hP : ∀ s t, AccessStep s t → P s → P t) {s t : State}
    (h : Accesses s t) (hs : P s) : P t := by
  induction h with
  | refl => exact hs
  | tail _ hst ih => exact hP _ _ hst ih

theorem State.translate_accesses {s t : State} {a : Word} {p : Nat}
    (h : s.translate a = some (p, t)) : Accesses s t := by
  rcases State.translate_cases h with ⟨_, _, rfl⟩ | ⟨_, _, _, _, rfl⟩ | ⟨hp, hg, hf, _, rfl⟩
  · exact .refl _
  · exact .refl _
  · exact (AccessStep.alloc _ _ hp hg hf).once

theorem State.load_accesses {s t : State} {a : Word} {w : Width} {k : AccessKind} {v : Word}
    (h : s.load a w k = .ok v t) : Accesses s t := by
  rcases State.load_ok h with ⟨d, _, _, rfl⟩ | ⟨p, s1, hr, _, rfl⟩
  · exact (AccessStep.device _ _).once
  · exact .tail (State.translate_accesses hr.2.1) (.cacheRead _ _ _)

theorem State.load_trap_accesses {s t : State} {a : Word} {w : Width} {k : AccessKind} {f : FaultRec}
    (h : s.load a w k = .trap f t) : Accesses s t := by
  rcases State.load_trap h with ⟨_, _, rfl⟩ | ⟨_, _, _, rfl⟩ | ⟨_, _, _, rfl⟩ | ⟨_, p, ht, _, _⟩
  · exact .refl _
  · exact .refl _
  · exact .refl _
  · exact State.translate_accesses ht

theorem State.store_accesses {s t : State} {a : Word} {w : Width} {v : Word} {u : Unit}
    (h : s.store a w v = .ok u t) : Accesses s t := by
  rcases State.store_ok h with ⟨d, _, rfl⟩ | ⟨p, s1, hr, rfl⟩
  · exact (AccessStep.device _ _).once
  · exact .tail (State.translate_accesses hr.2.1) (.write _ _ _ _ _ hr.2.2)

theorem State.store_trap_accesses {s t : State} {a : Word} {w : Width} {v : Word} {f : FaultRec}
    (h : s.store a w v = .trap f t) : Accesses s t := by
  rcases State.store_trap h with ⟨_, _, rfl⟩ | ⟨_, _, _, rfl⟩ | ⟨_, _, _, rfl⟩ | ⟨_, p, ht, _, _⟩
  · exact .refl _
  · exact .refl _
  · exact .refl _
  · exact State.translate_accesses ht

/-- Push32 stores below R14 and then moves R14 (00_scope.md R14). -/
theorem State.push32_ok {s t : State} {v : Word} {u : Unit} (h : s.push32 v = .ok u t) :
    ∃ s1, s.store (s.readReg spIndex - 4#32) .word v = .ok () s1
      ∧ t = s1.writeReg spIndex (s.readReg spIndex - 4#32) := by
  unfold State.push32 at h
  cases hs : s.store (s.readReg spIndex - 4#32) .word v with
  | trap f s1 => simp [hs] at h
  | ok v' s1 =>
    simp only [hs, Res.ok.injEq, true_and] at h
    exact ⟨s1, rfl, h.symm⟩

/-- Push32 faults as its store does (00_scope.md R14). -/
theorem State.push32_trap {s t : State} {v : Word} {f : FaultRec} (h : s.push32 v = .trap f t) :
    s.store (s.readReg spIndex - 4#32) .word v = .trap f t := by
  unfold State.push32 at h
  cases hs : s.store (s.readReg spIndex - 4#32) .word v with
  | ok v' s1 => simp [hs] at h
  | trap f' s1 => simpa [hs] using h

/-- Pop32 loads at R14 and then moves R14 (00_scope.md R14). -/
theorem State.pop32_ok {s t : State} {v : Word} (h : s.pop32 = .ok v t) :
    ∃ s1, s.load (s.readReg spIndex) .word .load = .ok v s1
      ∧ t = s1.writeReg spIndex (s.readReg spIndex + 4#32) := by
  unfold State.pop32 at h
  cases hs : s.load (s.readReg spIndex) .word .load with
  | trap f s1 => simp [hs] at h
  | ok v' s1 =>
    simp only [hs, Res.ok.injEq] at h
    exact ⟨s1, by rw [h.1], h.2.symm⟩

/-- Pop32 faults as its load does (00_scope.md R14). -/
theorem State.pop32_trap {s t : State} {f : FaultRec} (h : s.pop32 = .trap f t) :
    s.load (s.readReg spIndex) .word .load = .trap f t := by
  unfold State.pop32 at h
  cases hs : s.load (s.readReg spIndex) .word .load with
  | ok v' s1 => simp [hs] at h
  | trap f' s1 => simpa [hs] using h

theorem State.push32_accesses {s t : State} {v : Word} {u : Unit} (h : s.push32 v = .ok u t) :
    Accesses s t := by
  obtain ⟨s1, h1, rfl⟩ := State.push32_ok h
  exact .tail (State.store_accesses h1) (.reg _ _ _)

theorem State.push32_trap_accesses {s t : State} {v : Word} {f : FaultRec}
    (h : s.push32 v = .trap f t) : Accesses s t :=
  State.store_trap_accesses (State.push32_trap h)

theorem State.pop32_accesses {s t : State} {v : Word} (h : s.pop32 = .ok v t) : Accesses s t := by
  obtain ⟨s1, h1, rfl⟩ := State.pop32_ok h
  exact .tail (State.load_accesses h1) (.reg _ _ _)

theorem State.pop32_trap_accesses {s t : State} {f : FaultRec} (h : s.pop32 = .trap f t) :
    Accesses s t :=
  State.load_trap_accesses (State.pop32_trap h)

/-! What accesses leave alone. -/

/-- The registers aside, accesses change nothing outside the memory subsystem. -/
theorem Accesses.outsideMemory {s t : State} (h : Accesses s t) :
    { t.outsideMemory with regs := s.regs } = s.outsideMemory := by
  induction h with
  | refl => rfl
  | tail _ hs ih =>
    rw [← ih]
    cases hs <;> rfl

theorem State.translate_outsideMemory {s t : State} {a : Word} {p : Nat}
    (h : s.translate a = some (p, t)) : t.outsideMemory = s.outsideMemory := by
  rcases State.translate_cases h with ⟨_, _, rfl⟩ | ⟨_, _, _, _, rfl⟩ | ⟨_, _, _, _, rfl⟩ <;> rfl

theorem State.load_outsideMemory {s t : State} {a : Word} {w : Width} {k : AccessKind} {v : Word}
    (h : s.load a w k = .ok v t) : t.outsideMemory = s.outsideMemory := by
  rcases State.load_ok h with ⟨d, _, _, rfl⟩ | ⟨p, s1, hr, _, rfl⟩
  · rfl
  · have := State.translate_outsideMemory hr.2.1
    exact this

theorem State.store_outsideMemory {s t : State} {a : Word} {w : Width} {v : Word} {u : Unit}
    (h : s.store a w v = .ok u t) : t.outsideMemory = s.outsideMemory := by
  rcases State.store_ok h with ⟨d, _, rfl⟩ | ⟨p, s1, hr, rfl⟩
  · rfl
  · have := State.translate_outsideMemory hr.2.1
    exact this

end Sys2Proof.Machine
end

