-- ==== Sys2Proof/Laws/Float.lean ====
section
/-!
SUPPORT. The laws of the binary64 numerics (45_fp_stack.md R311): where the one rounding of an exact
quotient puts its last place, and that every operation answers a value of the format.
-/

namespace Sys2Proof.Machine

open Sys2Proof

/-- The numerator of num / den * 2^e counted in units of 2^q. -/
def fpNum (num : Nat) (e q : Int) : Nat :=
  num * pow2Up (e - q)

/-- The denominator of num / den * 2^e counted in units of 2^q. -/
def fpDen (den : Nat) (e q : Int) : Nat :=
  den * pow2Up (q - e)

theorem pow2Up_pos (e : Int) : 0 < pow2Up e :=
  Nat.pow_pos (by omega)

theorem fpDen_pos {den : Nat} (h : 0 < den) (e q : Int) : 0 < fpDen den e q :=
  Nat.mul_pos h (pow2Up_pos _)

/-- In a greater unit the quotient is no greater. -/
theorem fpNum_mul_fpDen_le (num den : Nat) (e q r : Int) (h : q ≤ r) :
    fpNum num e r * fpDen den e q ≤ fpNum num e q * fpDen den e r := by
  have hp : pow2Up (e - r) * pow2Up (q - e) ≤ pow2Up (e - q) * pow2Up (r - e) := by
    simp only [pow2Up, ← Nat.pow_add]
    exact Nat.pow_le_pow_right (by omega) (by omega)
  calc num * pow2Up (e - r) * (den * pow2Up (q - e))
      = num * den * (pow2Up (e - r) * pow2Up (q - e)) := by ac_rfl
    _ ≤ num * den * (pow2Up (e - q) * pow2Up (r - e)) := Nat.mul_le_mul_left _ hp
    _ = num * pow2Up (e - q) * (den * pow2Up (r - e)) := by ac_rfl

/-- In a unit twice as great the quotient is half as great. -/
theorem fpNum_mul_fpDen_succ (num den : Nat) (e q : Int) :
    2 * (fpNum num e (q + 1) * fpDen den e q) = fpNum num e q * fpDen den e (q + 1) := by
  have hp : 2 * (pow2Up (e - (q + 1)) * pow2Up (q - e)) = pow2Up (e - q) * pow2Up (q + 1 - e) := by
    simp only [pow2Up, ← Nat.pow_add, ← Nat.pow_succ']
    congr 1
    omega
  calc 2 * (num * pow2Up (e - (q + 1)) * (den * pow2Up (q - e)))
      = num * den * (2 * (pow2Up (e - (q + 1)) * pow2Up (q - e))) := by ac_rfl
    _ = num * den * (pow2Up (e - q) * pow2Up (q + 1 - e)) := by rw [hp]
    _ = num * pow2Up (e - q) * (den * pow2Up (q + 1 - e)) := by ac_rfl

/-- Two bits of guard: in the first unit tried the quotient has 53 or 54 bits. -/
theorem fpFirstUnit {num den : Nat} (hn : num ≠ 0) (hd : den ≠ 0) (e : Int) :
    2 ^ 52 * fpDen den e ((num.log2 : Int) - den.log2 + e - 53)
        ≤ fpNum num e ((num.log2 : Int) - den.log2 + e - 53)
    ∧ fpNum num e ((num.log2 : Int) - den.log2 + e - 53)
        < 2 ^ 54 * fpDen den e ((num.log2 : Int) - den.log2 + e - 53) := by
  have n1 := Nat.log2_self_le hn
  have n2 := @Nat.lt_log2_self num
  have d1 := Nat.log2_self_le hd
  have d2 := @Nat.lt_log2_self den
  simp only [fpNum, fpDen, pow2Up]
  generalize hx : (e - ((num.log2 : Int) - den.log2 + e - 53)).toNat = x
  generalize hy : ((num.log2 : Int) - den.log2 + e - 53 - e).toNat = y
  have hxy : num.log2 + x = den.log2 + y + 53 := by omega
  constructor
  · calc 2 ^ 52 * (den * 2 ^ y) ≤ 2 ^ 52 * (2 ^ (den.log2 + 1) * 2 ^ y) :=
          Nat.mul_le_mul_left _ (Nat.mul_le_mul_right _ (Nat.le_of_lt d2))
      _ = 2 ^ (num.log2 + x) := by
          rw [hxy, ← Nat.pow_add, ← Nat.pow_add]; congr 1; omega
      _ = 2 ^ num.log2 * 2 ^ x := Nat.pow_add _ _ _
      _ ≤ num * 2 ^ x := Nat.mul_le_mul_right _ n1
  · calc num * 2 ^ x < 2 ^ (num.log2 + 1) * 2 ^ x :=
          Nat.mul_lt_mul_of_pos_right n2 (Nat.pow_pos (by omega))
      _ = 2 ^ 54 * (2 ^ den.log2 * 2 ^ y) := by
          rw [← Nat.pow_add, ← Nat.pow_add, ← Nat.pow_add]; congr 1; omega
      _ ≤ 2 ^ 54 * (den * 2 ^ y) := Nat.mul_le_mul_left _ (Nat.mul_le_mul_right _ d1)

theorem fpUlpExp_eq (num den : Nat) (e : Int) :
    fpUlpExp num den e =
      max (if fpNum num e ((num.log2 : Int) - den.log2 + e - 53)
            / fpDen den e ((num.log2 : Int) - den.log2 + e - 53) < 2 ^ 53
          then (num.log2 : Int) - den.log2 + e - 53 else (num.log2 : Int) - den.log2 + e - 53 + 1)
        fpMinExp := rfl

/-- The last place: the quotient there is below 2^53, at least 2^52 unless the place is the least. -/
theorem fpUlpExp_spec {num den : Nat} (hn : num ≠ 0) (hd : den ≠ 0) (e : Int) :
    fpMinExp ≤ fpUlpExp num den e
    ∧ fpNum num e (fpUlpExp num den e) < 2 ^ 53 * fpDen den e (fpUlpExp num den e)
    ∧ (fpUlpExp num den e = fpMinExp
      ∨ 2 ^ 52 * fpDen den e (fpUlpExp num den e) ≤ fpNum num e (fpUlpExp num den e)) := by
  obtain ⟨h1, h2⟩ := fpFirstUnit hn hd e
  have hdp : 0 < den := Nat.pos_of_ne_zero hd
  rw [fpUlpExp_eq]
  generalize (num.log2 : Int) - den.log2 + e - 53 = q at h1 h2 ⊢
  have hq := fpDen_pos hdp e q
  have hq1 := fpDen_pos hdp e (q + 1)
  have key : ∃ r, (if fpNum num e q / fpDen den e q < 2 ^ 53 then q else q + 1) = r
      ∧ fpNum num e r < 2 ^ 53 * fpDen den e r ∧ 2 ^ 52 * fpDen den e r ≤ fpNum num e r := by
    split
    · next hk => exact ⟨q, rfl, (Nat.div_lt_iff_lt_mul hq).1 hk, h1⟩
    · next hk =>
      have hk' : 2 ^ 53 * fpDen den e q ≤ fpNum num e q :=
        (Nat.le_div_iff_mul_le hq).1 (Nat.le_of_not_lt hk)
      have hs := fpNum_mul_fpDen_succ num den e q
      refine ⟨q + 1, rfl, ?_, ?_⟩
      · apply Nat.lt_of_mul_lt_mul_left (a := 2 * fpDen den e q)
        calc 2 * fpDen den e q * fpNum num e (q + 1)
            = 2 * (fpNum num e (q + 1) * fpDen den e q) := by ac_rfl
          _ = fpNum num e q * fpDen den e (q + 1) := hs
          _ < 2 ^ 54 * fpDen den e q * fpDen den e (q + 1) := Nat.mul_lt_mul_of_pos_right h2 hq1
          _ = 2 * fpDen den e q * (2 ^ 53 * fpDen den e (q + 1)) := by
            rw [show (2 : Nat) ^ 54 = 2 * 2 ^ 53 by rfl]; ac_rfl
      · refine Nat.le_of_mul_le_mul_left (c := 2 * fpDen den e q) ?_ (by omega)
        calc 2 * fpDen den e q * (2 ^ 52 * fpDen den e (q + 1))
            = 2 ^ 53 * fpDen den e q * fpDen den e (q + 1) := by
              rw [show (2 : Nat) ^ 53 = 2 * 2 ^ 52 by rfl]; ac_rfl
          _ ≤ fpNum num e q * fpDen den e (q + 1) := Nat.mul_le_mul_right _ hk'
          _ = 2 * (fpNum num e (q + 1) * fpDen den e q) := hs.symm
          _ = 2 * fpDen den e q * fpNum num e (q + 1) := by ac_rfl
  obtain ⟨r, hr, hlt, hge⟩ := key
  rw [hr]
  refine ⟨Int.le_max_right _ _, ?_, ?_⟩
  · apply Nat.lt_of_mul_lt_mul_left (a := fpDen den e r)
    have hm := fpDen_pos hdp e (max r fpMinExp)
    calc fpDen den e r * fpNum num e (max r fpMinExp)
        = fpNum num e (max r fpMinExp) * fpDen den e r := Nat.mul_comm _ _
      _ ≤ fpNum num e r * fpDen den e (max r fpMinExp) :=
          fpNum_mul_fpDen_le num den e r _ (Int.le_max_left _ _)
      _ < 2 ^ 53 * fpDen den e r * fpDen den e (max r fpMinExp) := Nat.mul_lt_mul_of_pos_right hlt hm
      _ = fpDen den e r * (2 ^ 53 * fpDen den e (max r fpMinExp)) := by ac_rfl
  · by_cases h : r ≤ fpMinExp
    · exact .inl (Int.max_eq_right h)
    · rw [Int.max_eq_left (by omega)]
      exact .inr hge

theorem roundHalfEven_le {n d k : Nat} (hd : 0 < d) (h : n < k * d) : roundHalfEven n d ≤ k := by
  have : n / d < k := (Nat.div_lt_iff_lt_mul hd).2 h
  simp only [roundHalfEven]
  split <;> omega

theorem le_roundHalfEven {n d k : Nat} (hd : 0 < d) (h : k * d ≤ n) : k ≤ roundHalfEven n d := by
  have : k ≤ n / d := (Nat.le_div_iff_mul_le hd).2 h
  simp only [roundHalfEven]
  split <;> omega

/-- A multiple of the divisor needs no rounding. -/
theorem roundHalfEven_exact {d : Nat} (hd : 0 < d) (k : Nat) : roundHalfEven (k * d) d = k := by
  simp [roundHalfEven, Nat.mul_div_cancel _ hd]
  omega

/-- A rounded significand in place: carried to the next place where it passes 53 bits, infinity where
the place passes the greatest. -/
def fpFinish (neg : Bool) (m : Nat) (q : Int) : Fp :=
  if fpMaxExp < (if m = 2 ^ 53 then q + 1 else q) then .inf neg
  else .fin neg (if m = 2 ^ 53 then 2 ^ 52 else m) (if m = 2 ^ 53 then q + 1 else q)

theorem fpRound_eq (neg : Bool) (num den : Nat) (e : Int) (hn : num ≠ 0) :
    fpRound neg num den e =
      fpFinish neg (roundHalfEven (fpNum num e (fpUlpExp num den e)) (fpDen den e (fpUlpExp num den e)))
        (fpUlpExp num den e) := by
  rw [fpRound, if_neg hn]
  rfl

theorem fpFinish_canonical (neg : Bool) {m : Nat} {q : Int} (h1 : fpMinExp ≤ q) (hm : m ≤ 2 ^ 53)
    (hl : q = fpMinExp ∨ 2 ^ 52 ≤ m) : fpCanonical (fpFinish neg m q) = true := by
  unfold fpFinish
  by_cases h : m = 2 ^ 53
  · simp only [h, if_true]
    split
    · rfl
    · simp only [fpCanonical, Bool.and_eq_true, Bool.or_eq_true, decide_eq_true_eq]
      omega
  · simp only [h, if_false]
    split
    · rfl
    · simp only [fpCanonical, Bool.and_eq_true, Bool.or_eq_true, decide_eq_true_eq]
      omega

/-- Rounding answers a value of the format. -/
theorem fpRound_canonical (neg : Bool) (num : Nat) {den : Nat} (hd : den ≠ 0) (e : Int) :
    fpCanonical (fpRound neg num den e) = true := by
  by_cases hn : num = 0
  · subst hn
    cases neg <;> rfl
  · rw [fpRound_eq _ _ _ _ hn]
    obtain ⟨h1, h2, h3⟩ := fpUlpExp_spec hn hd e
    have hq := fpDen_pos (Nat.pos_of_ne_zero hd) e (fpUlpExp num den e)
    exact fpFinish_canonical _ h1 (roundHalfEven_le hq h2) (h3.imp id (le_roundHalfEven hq))

theorem fpZero_canonical (neg : Bool) : fpCanonical (fpZero neg) = true := by
  cases neg <;> decide

theorem fpNeg_canonical {a : Fp} (h : fpCanonical a = true) : fpCanonical (fpNeg a) = true := by
  cases a <;> exact h

theorem fp64Add_canonical {a b : Fp} (ha : fpCanonical a = true) (hb : fpCanonical b = true) :
    fpCanonical (fp64Add a b) = true := by
  cases a <;> cases b <;> simp only [fp64Add]
  all_goals first
    | exact ha
    | exact hb
    | rfl
    | (split <;> rfl)
    | skip
  unfold fpAddFin
  simp only
  split
  · exact fpZero_canonical _
  · exact fpRound_canonical _ _ (by omega) _

theorem fp64Sub_canonical {a b : Fp} (ha : fpCanonical a = true) (hb : fpCanonical b = true) :
    fpCanonical (fp64Sub a b) = true :=
  fp64Add_canonical ha (fpNeg_canonical hb)

theorem fp64Mul_canonical (a b : Fp) : fpCanonical (fp64Mul a b) = true := by
  cases a <;> cases b <;> simp only [fp64Mul]
  all_goals first
    | rfl
    | (split <;> rfl)
    | exact fpRound_canonical _ _ (by omega) _

theorem fp64Div_canonical {a b q : Fp} (h : fp64Div a b = some q) : fpCanonical q = true := by
  cases a <;> cases b <;> simp only [fp64Div] at h
  all_goals first
    | (cases h; rfl)
    | skip
  all_goals
    split at h
    · cases h
    · cases h
      first
        | rfl
        | exact fpRound_canonical _ _ (by assumption) _

theorem fp64FromInt_canonical (i : Int) : fpCanonical (fp64FromInt i) = true :=
  fpRound_canonical _ _ (by omega) _

end Sys2Proof.Machine
end

