-- ==== Sys2Proof/Laws/Exec.lean ====
section
/-!
SUPPORT. Everything an instruction can do, said once (30_encoding.md R140): it answers a next state,
reached by accesses of the pipeline and then either completed or halted by a fault; and what the
cycle around it adds.
-/

namespace Sys2Proof.Machine

open Sys2Proof

/-- The halted bit and the fault record are as before, or those of HALT. -/
def State.StopsBy (u : State) (halted : Bool) (fault : Option FaultRec) : Prop :=
  (halted = u.halted ∧ fault = u.fault) ∨ (halted = true ∧ fault = none)

/-- `t` is `u` completed at `pc` with these flags, FP stack and engine control bits; no completion
records a fault. -/
def State.Completed (u t : State) (st : List Fp) : Prop :=
  ∃ flags halted fault suspend answered pc, u.StopsBy halted fault
    ∧ t = { u with
        flags := flags, fst := st, halted := halted, fault := fault, suspend := suspend
        answered := answered }.complete pc

/-- What an instruction leaves: it completed, with an FP stack as good as before, or it faulted. -/
def Performs (s t : State) : Prop :=
  (∃ u st, Accesses s u ∧ u.Completed t st
    ∧ (FpStackOk s.params.fpCfg s.fst → FpStackOk s.params.fpCfg st))
  ∨ (∃ u f, Accesses s u ∧ t = u.haltWith s f)

theorem Accesses.fst {s t : State} (h : Accesses s t) : t.fst = s.fst := by
  have := congrArg State.fst h.outsideMemory
  exact this

/-- A completion that keeps the FP stack. -/
theorem Performs.completes {s u t : State} {answered : Bool} (h : Accesses s u) (flags : Word) (halted : Bool)
    (fault : Option FaultRec) (suspend : Suspend) (pc : Word) (hs : u.StopsBy halted fault)
    (ht : t = { u with
        flags := flags, halted := halted, fault := fault, suspend := suspend
        answered := answered }.complete pc) :
    Performs s t :=
  .inl ⟨u, u.fst, h, ⟨flags, halted, fault, suspend, answered, pc, hs, ht⟩, fun h' => by rw [h.fst]; exact h'⟩

/-- A rule that goes on after an access. -/
theorem Res.orHalt_performs {α : Type} {s : State} {r : Res α}
    {k : α → State → Host.Outcome State Fault Refusal}
    (ht : ∀ f u, r = .trap f u → Accesses s u)
    (hk : ∀ v u, r = .ok v u → ∃ t, k v u = .next t ∧ Performs s t) :
    ∃ t, r.orHalt s k = .next t ∧ Performs s t := by
  cases r with
  | ok v u => exact hk v u rfl
  | trap f u => exact ⟨_, rfl, .inr ⟨u, f, ht f u rfl, rfl⟩⟩

theorem State.loadInto_performs (s : State) (d : RegIdx) (a : Word) (w : Width) :
    ∃ t, s.loadInto d a w = .next t ∧ Performs s t :=
  Res.orHalt_performs (fun _ _ h => State.load_trap_accesses h) fun _ u h =>
    ⟨_, rfl, .completes (.tail (State.load_accesses h) (.reg _ _ _)) u.flags u.halted u.fault u.suspend
      _ (.inl ⟨rfl, rfl⟩) rfl⟩

theorem State.storeFrom_performs (s : State) (d : RegIdx) (a : Word) (w : Width) :
    ∃ t, s.storeFrom d a w = .next t ∧ Performs s t :=
  Res.orHalt_performs (fun _ _ h => State.store_trap_accesses h) fun _ u h =>
    ⟨_, rfl, .completes (State.store_accesses h) u.flags u.halted u.fault u.suspend _ (.inl ⟨rfl, rfl⟩) rfl⟩

theorem State.aluDone_performs (s : State) (d : RegIdx) (r f : Word) :
    ∃ t, s.aluDone d r f = .next t ∧ Performs s t :=
  ⟨_, rfl, .completes (AccessStep.reg s d r).once f s.halted s.fault s.suspend _ (.inl ⟨rfl, rfl⟩) rfl⟩

theorem State.jumpIf_performs (s : State) (c : Bool) (imm : Half) :
    ∃ t, s.jumpIf c imm = .next t ∧ Performs s t :=
  ⟨_, rfl, .completes (.refl s) s.flags s.halted s.fault s.suspend _ (.inl ⟨rfl, rfl⟩) rfl⟩

theorem State.fpFault_performs (s : State) (f : FaultRec) :
    ∃ t, s.fpFault f = .next t ∧ Performs s t :=
  ⟨_, rfl, .inr ⟨s, f, .refl s, rfl⟩⟩

/-! The operations of FPCFG keep the format. -/

theorem fpFromInt_canonical {cfg : FpCfg} (h : cfg = .binary64) (i : Int) :
    fpCanonical (fpFromInt cfg i) = true := by
  subst h
  exact fp64FromInt_canonical i

theorem State.fpBinary_performs (s : State) (op : Fp → Fp → Option Fp)
    (hop : ∀ a b q, op a b = some q → s.params.fpCfg = .binary64 → fpCanonical a = true →
      fpCanonical b = true → fpCanonical q = true) :
    ∃ t, s.fpBinary op = .next t ∧ Performs s t := by
  unfold State.fpBinary
  split
  · next b a rest heq =>
    split
    · exact s.fpFault_performs _
    · next q hq =>
      refine ⟨_, rfl, .inl ⟨s, q :: rest, .refl s, ⟨s.flags, s.halted, s.fault, s.suspend, s.answered, s.nextPc, .inl ⟨rfl, rfl⟩, rfl⟩, ?_⟩⟩
      intro h
      rw [heq] at h
      refine ⟨by have := h.1; simp only [List.length_cons] at this ⊢; omega, fun hc v hv => ?_⟩
      have hall := h.2 hc
      simp only [List.mem_cons] at hv
      rcases hv with rfl | hv
      · exact hop _ _ _ hq hc (hall _ (by simp)) (hall _ (by simp))
      · exact hall _ (by simp [hv])
  · exact s.fpFault_performs _

theorem execFpush_performs (d : RegIdx) (s : State) :
    ∃ t, execFpush d s = .next t ∧ Performs s t := by
  unfold execFpush
  split
  · exact s.fpFault_performs _
  · next hd =>
    refine ⟨_, rfl, .inl ⟨s, _, .refl s, ⟨s.flags, s.halted, s.fault, s.suspend, s.answered, s.nextPc, .inl ⟨rfl, rfl⟩, rfl⟩, ?_⟩⟩
    intro h
    refine ⟨by simp only [List.length_cons, State.fdepth] at hd ⊢; omega, fun hc v hv => ?_⟩
    simp only [List.mem_cons] at hv
    rcases hv with rfl | hv
    · exact fpFromInt_canonical hc _
    · exact h.2 hc _ hv

theorem execFpop_performs (d : RegIdx) (s : State) :
    ∃ t, execFpop d s = .next t ∧ Performs s t := by
  unfold execFpop
  split
  · exact s.fpFault_performs _
  · next v rest heq =>
    split
    · exact s.fpFault_performs _
    · next r hr =>
      refine ⟨_, rfl, .inl ⟨s.writeReg d r, rest, (AccessStep.reg s d r).once,
        ⟨s.flags, s.halted, s.fault, s.suspend, s.answered, s.nextPc, .inl ⟨rfl, rfl⟩, rfl⟩, ?_⟩⟩
      intro h
      rw [heq] at h
      exact ⟨by have := h.1; simp only [List.length_cons] at this; omega,
        fun hc v hv => h.2 hc v (by simp [hv])⟩

theorem State.trapEnter_performs (s : State) (n : Half) :
    ∃ t, s.trapEnter n = .next t ∧ Performs s t :=
  Res.orHalt_performs (fun _ _ h => State.push32_trap_accesses h) fun _ _ h1 =>
    Res.orHalt_performs (fun _ _ h => (State.push32_accesses h1).trans (State.push32_trap_accesses h))
      fun _ u h2 =>
        ⟨_, rfl, .completes ((State.push32_accesses h1).trans (State.push32_accesses h2)) _ u.halted
          u.fault u.suspend _ (.inl ⟨rfl, rfl⟩) rfl⟩

theorem State.trapReturn_performs (s : State) :
    ∃ t, s.trapReturn = .next t ∧ Performs s t :=
  Res.orHalt_performs (fun _ _ h => State.pop32_trap_accesses h) fun _ _ h1 =>
    Res.orHalt_performs (fun _ _ h => (State.pop32_accesses h1).trans (State.pop32_trap_accesses h))
      fun _ u h2 =>
        ⟨_, rfl, .completes ((State.pop32_accesses h1).trans (State.pop32_accesses h2)) _ u.halted
          u.fault u.suspend _ (.inl ⟨rfl, rfl⟩) rfl⟩

theorem execPush_performs (d : RegIdx) (s : State) :
    ∃ t, execPush d s = .next t ∧ Performs s t :=
  Res.orHalt_performs (fun _ _ h => State.push32_trap_accesses h) fun _ u h =>
    ⟨_, rfl, .completes (State.push32_accesses h) u.flags u.halted u.fault u.suspend _ (.inl ⟨rfl, rfl⟩) rfl⟩

theorem execPop_performs (d : RegIdx) (s : State) :
    ∃ t, execPop d s = .next t ∧ Performs s t :=
  Res.orHalt_performs (fun _ _ h => State.pop32_trap_accesses h) fun v u h =>
    ⟨_, rfl, .completes (.tail (State.pop32_accesses h) (.reg u d v)) u.flags u.halted u.fault
      u.suspend _ (.inl ⟨rfl, rfl⟩) rfl⟩

theorem execCall_performs (imm : Half) (s : State) :
    ∃ t, execCall imm s = .next t ∧ Performs s t :=
  Res.orHalt_performs (fun _ _ h => State.push32_trap_accesses h) fun _ u h =>
    ⟨_, rfl, .completes (State.push32_accesses h) u.flags u.halted u.fault u.suspend _ (.inl ⟨rfl, rfl⟩) rfl⟩

theorem execRet_performs (s : State) : ∃ t, execRet s = .next t ∧ Performs s t :=
  Res.orHalt_performs (fun _ _ h => State.pop32_trap_accesses h) fun _ u h =>
    ⟨_, rfl, .completes (State.pop32_accesses h) u.flags u.halted u.fault u.suspend _ (.inl ⟨rfl, rfl⟩) rfl⟩

/-- Every instruction answers a next state, and `Performs` says everything that state can be. -/
theorem exec_performs (i : Instr) (s : State) : ∃ t, exec i s = .next t ∧ Performs s t := by
  have plain : ∀ flags suspend answered pc, Performs s
      ({ s with flags := flags, suspend := suspend, answered := answered }.complete pc) :=
    fun flags suspend answered pc =>
      .completes (.refl s) flags s.halted s.fault suspend pc (.inl ⟨rfl, rfl⟩) rfl
  cases i with
  | halt => exact ⟨_, rfl, .completes (.refl s) s.flags true none s.suspend s.pc (.inr ⟨rfl, rfl⟩) rfl⟩
  | nop => exact ⟨_, rfl, plain s.flags s.suspend s.answered _⟩
  | loadi d imm => exact s.aluDone_performs d _ s.flags
  | mov d r => exact s.aluDone_performs d _ s.flags
  | load | loadb | ldr | ldrb => exact s.loadInto_performs _ _ _
  | store | storeb | str | strb => exact s.storeFrom_performs _ _ _
  | add | sub | adc | sbc | mul | div | mod | and | or | xor | not | shl | shr | rol | ror =>
    exact s.aluDone_performs _ _ _
  | cmp => exact ⟨_, rfl, plain _ s.suspend s.answered _⟩
  | jmp => exact ⟨_, rfl, plain s.flags s.suspend s.answered _⟩
  | jz | jnz | jn | jnn | jc | jnc | jo | jno => exact s.jumpIf_performs _ _
  | call imm => exact execCall_performs imm s
  | ret => exact execRet_performs s
  | push d => exact execPush_performs d s
  | pop d => exact execPop_performs d s
  | int n => exact s.trapEnter_performs n
  | iret => exact s.trapReturn_performs
  | syscall => exact ⟨_, rfl, plain s.flags (.syscall s.syscallRequest) false _⟩
  | yield => exact ⟨_, rfl, plain s.flags .yield s.answered _⟩
  | fpush d => exact execFpush_performs d s
  | fpop d => exact execFpop_performs d s
  | fadd =>
    refine s.fpBinary_performs (fun a b => some (fpAdd s.params.fpCfg a b)) fun a b q h hc ha hb => ?_
    cases h
    rw [hc]
    exact fp64Add_canonical ha hb
  | fsub =>
    refine s.fpBinary_performs (fun a b => some (fpSub s.params.fpCfg a b)) fun a b q h hc ha hb => ?_
    cases h
    rw [hc]
    exact fp64Sub_canonical ha hb
  | fmul =>
    refine s.fpBinary_performs (fun a b => some (fpMul s.params.fpCfg a b)) fun a b q h hc ha hb => ?_
    cases h
    rw [hc]
    exact fp64Mul_canonical a b
  | fdiv =>
    refine s.fpBinary_performs _ fun a b q h hc ha hb => ?_
    rw [hc] at h
    exact fp64Div_canonical h

/-- The instruction cycle answers a next state: that of an instruction, or a halt at the fetch or at
decode, settled (30_encoding.md R140, 60_exceptions.md R402). -/
theorem State.engineStep_performs (s : State) :
    ∃ u t, Accesses s u ∧ s.engineStep = .next (settle s t)
      ∧ ((∃ i, exec i u = .next t ∧ Performs u t) ∨ ∃ f, t = u.haltWith s f) := by
  unfold State.engineStep
  cases hf : s.fetch with
  | trap f u => exact ⟨u, _, State.load_trap_accesses hf, rfl, .inr ⟨f, rfl⟩⟩
  | ok w u =>
    simp only
    cases hd : decodeWord s.params.opcodeMap s.params.admitDecided w with
    | error e => exact ⟨u, _, State.load_accesses hf, rfl, .inr ⟨_, rfl⟩⟩
    | ok i =>
      obtain ⟨t, ht, hp⟩ := exec_performs i u
      exact ⟨u, t, State.load_accesses hf, by simp only [ht, settleOutcome], .inl ⟨i, ht, hp⟩⟩

end Sys2Proof.Machine
end

