-- ==== Sys2Proof/Laws/Flags.lean ====
section
/-!
SUPPORT. The laws of the flag word: what writing a named bit leaves in every bit, and what each flag
computation of the ALU leaves.
-/

namespace Sys2Proof.Machine

open Sys2Proof

/-- Writing a named bit writes that bit and no other. -/
theorem getLsbD_setFlag (f : Word) (b : Flag) (v : Bool) (k : Nat) (hk : k < 32) :
    (setFlag f b v).getLsbD k = if k = flagPos b then v else f.getLsbD k := by
  have hp : flagPos b < 7 := by cases b <;> decide
  simp only [setFlag, BitVec.getLsbD_or, BitVec.getLsbD_and, BitVec.getLsbD_not,
    BitVec.getLsbD_shiftLeft, BitVec.getLsbD_setWidth, BitVec.getLsbD_ofBool, BitVec.getLsbD_one]
  by_cases h : k = flagPos b
  · subst h; simp [hk]
  · by_cases h2 : k < flagPos b
    · simp [h, h2, hk]
    · simp [h, h2, hk, show ¬k - flagPos b = 0 by omega]

theorem getFlag_setFlag (f : Word) (b x : Flag) (v : Bool) :
    getFlag (setFlag f b v) x = if x = b then v else getFlag f x := by
  have hc : flagPos x < 32 := by cases x <;> decide
  have : flagPos x = flagPos b ↔ x = b := by cases x <;> cases b <;> decide
  simp [getFlag, getLsbD_setFlag f b v _ hc, this]

@[simp] theorem getFlag_setFlag_self (f : Word) (b : Flag) (v : Bool) :
    getFlag (setFlag f b v) b = v := by
  simp [getFlag_setFlag]

/-- What setZN leaves in every bit. -/
theorem getLsbD_setZN (f r : Word) (k : Nat) (hk : k < 32) :
    (setZN f r).getLsbD k =
      if k = 0 then r == 0 else if k = 1 then r.msb else f.getLsbD k := by
  simp only [setZN, getLsbD_setFlag _ _ _ _ hk, flagPos]
  by_cases h0 : k = 0
  · simp [h0]
  · by_cases h1 : k = 1 <;> simp [h0, h1]

theorem flagsZN_become (f r : Word) :
    FlagsBecome f (flagsZN f r) (r == 0) r.msb (getFlag f .c) (getFlag f .v) := by
  intro k hk
  rw [flagsZN, getLsbD_setZN _ _ _ hk]
  by_cases h2 : k = 2
  · simp [h2, getFlag, flagPos]
  · by_cases h3 : k = 3
    · simp [h3, getFlag, flagPos]
    · simp [h2, h3]

theorem flagsZNCV_become (f : Word) (x : ArithResult) :
    FlagsBecome f (flagsZNCV f x) (x.r == 0) x.r.msb x.c x.v := by
  intro k hk
  simp only [flagsZNCV, setCV, getLsbD_setFlag _ _ _ _ hk, getLsbD_setZN _ _ _ hk, flagPos]
  by_cases h0 : k = 0
  · simp [h0]
  · by_cases h1 : k = 1
    · simp [h1]
    · by_cases h2 : k = 2
      · simp [h2]
      · by_cases h3 : k = 3 <;> simp [h0, h1, h2, h3]

theorem flagsDiv_become (f r : Word) (z : Bool) :
    FlagsBecome f (flagsDiv f r z) (r == 0) r.msb (getFlag f .c) z := by
  intro k hk
  simp only [flagsDiv, getLsbD_setFlag _ _ _ _ hk, getLsbD_setZN _ _ _ hk, flagPos]
  by_cases h0 : k = 0
  · simp [h0]
  · by_cases h1 : k = 1
    · simp [h1]
    · by_cases h2 : k = 2
      · simp [h2, getFlag, flagPos]
      · by_cases h3 : k = 3 <;> simp [h0, h1, h2, h3]

/-! The results of AddC and SubB in closed form. -/

@[simp] theorem addC_r (a b : Word) : (addC a b false).r = a + b := by
  apply BitVec.eq_of_toNat_eq
  simp [addC]

@[simp] theorem subB_r (a b : Word) : (subB a b false).r = a - b := by
  apply BitVec.eq_of_toNat_eq
  have ha := a.isLt
  have hb := b.isLt
  simp only [subB, BitVec.toNat_ofInt, BitVec.toNat_sub, Bool.toNat_false, Int.natCast_pow]
  omega

end Sys2Proof.Machine
end

