-- ==== Sys2Proof/Laws/Scheduler.lean ====
section
/-!
SUPPORT. What the scheduler's operations do to the thread table (60_exceptions.md R440 to R451): each
keeps `SchedulerInv`, and each keeps the total of counted instructions.
-/

namespace Sys2Proof.Machine

open Sys2Proof

/-! Reading a changed thread table. -/

theorem Assoc.get_map {α : Type} (m : List (Nat × α)) (g : α → α) (k : Nat) :
    Assoc.get (m.map fun e => (e.1, g e.2)) k = (Assoc.get m k).map g := by
  induction m with
  | nil => rfl
  | cons e rest ih =>
    simp only [List.map_cons, Assoc.get]
    split <;> simp [ih]

theorem Assoc.rising_map {α : Type} {m : List (Nat × α)} (g : α → α) (h : Assoc.Rising m) :
    Assoc.Rising (m.map fun e => (e.1, g e.2)) := by
  simpa [Assoc.Rising, List.pairwise_map] using h

/-- `isReady` is a ready record. -/
theorem isReady_iff {threads : List (Nat × Thread)} {id : Nat} :
    isReady threads id = true ↔ ∃ t, Assoc.get threads id = some t ∧ t.state = .ready := by
  unfold isReady
  cases Assoc.get threads id with
  | none => simp
  | some t => simp

/-- The first ready thread of the queue, and what is after it (60_exceptions.md R442). -/
theorem popReady_some {threads : List (Nat × Thread)} {q rest : List Nat} {id : Nat}
    (h : popReady threads q = some (id, rest)) :
    ∃ skipped, q = skipped ++ id :: rest ∧ (∀ j ∈ skipped, isReady threads j = false)
      ∧ isReady threads id = true := by
  induction q with
  | nil => cases h
  | cons j tail ih =>
    simp only [popReady] at h
    split at h
    · next hj =>
      cases h
      exact ⟨[], rfl, by simp, hj⟩
    · next hj =>
      obtain ⟨skipped, h1, h2, h3⟩ := ih h
      refine ⟨j :: skipped, by simp [h1], ?_, h3⟩
      intro k hk
      simp only [List.mem_cons] at hk
      rcases hk with rfl | hk
      · simpa using hj
      · exact h2 k hk

theorem popReady_none {threads : List (Nat × Thread)} {q : List Nat} (h : popReady threads q = none) :
    ∀ j ∈ q, isReady threads j = false := by
  induction q with
  | nil => simp
  | cons j tail ih =>
    simp only [popReady] at h
    split at h
    · cases h
    · next hj =>
      intro k hk
      simp only [List.mem_cons] at hk
      rcases hk with rfl | hk
      · simpa using hj
      · exact ih h k hk

/-- schedule_next dispatches a ready thread of the queue, or leaves the queue empty
(60_exceptions.md R442). -/
theorem State.scheduleNext_cases (s : State) :
    (∃ id rest t, popReady s.threads s.readyQueue = some (id, rest) ∧ Assoc.get s.threads id = some t
      ∧ t.state = .ready ∧ s.scheduleNext = (some id, s.dispatch id t rest))
    ∨ (popReady s.threads s.readyQueue = none ∧ s.scheduleNext = (none, { s with readyQueue := [] })) := by
  unfold State.scheduleNext
  cases h : popReady s.threads s.readyQueue with
  | none => exact .inr ⟨rfl, rfl⟩
  | some r =>
    obtain ⟨id, rest⟩ := r
    obtain ⟨skipped, _, _, hr⟩ := popReady_some h
    obtain ⟨t, ht, hs⟩ := isReady_iff.1 hr
    exact .inl ⟨id, rest, t, rfl, ht, hs, by simp only [ht]⟩

/-! `SchedulerInv` as a statement about reading the thread table. -/

/-- `SchedulerInv` over what it depends on. -/
def SchedOk (threads : List (Nat × Thread)) (nextId : Nat) (queue : List Nat) (running : Option Nat) :
    Prop :=
  Assoc.Rising threads
  ∧ (∀ id t, Assoc.get threads id = some t → id < nextId)
  ∧ (∀ id ∈ queue, id < nextId)
  ∧ (∀ id t, Assoc.get threads id = some t → (t.state = .running ↔ running = some id))
  ∧ (∀ id, running = some id → ∃ t, Assoc.get threads id = some t)
  ∧ (∀ id t, Assoc.get threads id = some t → t.state = .blocked → t.wake.isSome = true)
  ∧ (∀ id t, Assoc.get threads id = some t → t.state ≠ .terminated)

theorem State.schedulerInv_iff (s : State) :
    s.SchedulerInv ↔ SchedOk s.threads s.nextId s.readyQueue s.running := by
  unfold State.SchedulerInv SchedOk
  constructor
  · rintro ⟨h1, h2, h3, h4, h5, h6, h7⟩
    refine ⟨h1, fun id t h => h2 _ (Assoc.mem_of_get h), h3, fun id t h => h4 _ (Assoc.mem_of_get h),
      fun id h => ?_, fun id t h => h6 _ (Assoc.mem_of_get h), fun id t h => h7 _ (Assoc.mem_of_get h)⟩
    obtain ⟨e, he, rfl⟩ := h5 id h
    exact ⟨e.2, Assoc.get_of_mem h1 he⟩
  · rintro ⟨h1, h2, h3, h4, h5, h6, h7⟩
    refine ⟨h1, fun e h => h2 _ _ (Assoc.get_of_mem h1 h), h3, fun e h => h4 _ _ (Assoc.get_of_mem h1 h),
      fun id h => ?_, fun e h => h6 _ _ (Assoc.get_of_mem h1 h), fun e h => h7 _ _ (Assoc.get_of_mem h1 h)⟩
    obtain ⟨t, ht⟩ := h5 id h
    exact ⟨_, Assoc.mem_of_get ht, rfl⟩

/-- A state with the same scheduler fields. -/
theorem State.SchedulerInv.congr {s t : State} (h : s.SchedulerInv) (h1 : t.threads = s.threads)
    (h2 : t.nextId = s.nextId) (h3 : t.readyQueue = s.readyQueue) (h4 : t.running = s.running) :
    t.SchedulerInv := by
  rw [State.schedulerInv_iff] at h ⊢
  rwa [h1, h2, h3, h4]

theorem State.SchedulerInv.countInstruction {s : State} (h : s.SchedulerInv) :
    s.countInstruction.SchedulerInv := by
  rw [State.schedulerInv_iff] at h ⊢
  obtain ⟨h1, h2, h3, h4, h5, h6, h7⟩ := h
  simp only [State.countInstruction_threads, State.countInstruction_nextId,
    State.countInstruction_readyQueue, State.countInstruction_running, State.countedThreads,
    State.runningThread]
  cases hr : s.running with
  | none => exact ⟨h1, h2, h3, by simpa [hr] using h4, by simp, h6, h7⟩
  | some r =>
    simp only [Option.bind_some]
    cases hg : Assoc.get s.threads r with
    | none => exact absurd (h5 r hr) (by simp [hg])
    | some t =>
      simp only
      refine ⟨Assoc.rising_put _ _ h1, ?_, h3, ?_, ?_, ?_, ?_⟩ <;> intro id
      · intro u hu
        rw [Assoc.get_put] at hu
        split at hu
        · next e => subst e; exact h2 _ _ hg
        · exact h2 _ _ hu
      · intro u hu
        rw [Assoc.get_put] at hu
        split at hu
        · next e => subst e; cases hu; simpa [hr] using h4 _ _ hg
        · simpa [hr] using h4 _ _ hu
      · intro e
        cases e
        exact ⟨_, Assoc.get_put_self _ _ _⟩
      · intro u hu
        rw [Assoc.get_put] at hu
        split at hu
        · next e => subst e; cases hu; exact h6 _ t hg
        · exact h6 _ _ hu
      · intro u hu
        rw [Assoc.get_put] at hu
        split at hu
        · next e => subst e; cases hu; exact h7 _ t hg
        · exact h7 _ _ hu

theorem State.SchedulerInv.createThread {s : State} (h : s.SchedulerInv) (pc : Word) (p : Nat) :
    (s.createThread pc p).SchedulerInv := by
  rw [State.schedulerInv_iff] at h ⊢
  obtain ⟨h1, h2, h3, h4, h5, h6, h7⟩ := h
  have hfresh : Assoc.get s.threads s.nextId = none := by
    cases hg : Assoc.get s.threads s.nextId with
    | none => rfl
    | some t => exact absurd (h2 _ _ hg) (Nat.lt_irrefl _)
  have hrun : s.running ≠ some s.nextId := fun e => by
    obtain ⟨t, ht⟩ := h5 _ e
    simp [hfresh] at ht
  simp only [State.createThread]
  refine ⟨Assoc.rising_put _ _ h1, ?_, ?_, ?_, ?_, ?_, ?_⟩ <;> intro id
  · intro u hu
    rw [Assoc.get_put] at hu
    split at hu
    · omega
    · exact Nat.lt_succ_of_lt (h2 _ _ hu)
  · intro hm
    simp only [List.mem_append, List.mem_singleton] at hm
    rcases hm with hm | rfl
    · exact Nat.lt_succ_of_lt (h3 _ hm)
    · omega
  · intro u hu
    rw [Assoc.get_put] at hu
    split at hu
    · next e => subst e; cases hu; simp [freshThread, hrun]
    · exact h4 _ _ hu
  · intro e
    obtain ⟨t, ht⟩ := h5 _ e
    by_cases hid : id = s.nextId
    · subst hid; exact ⟨_, Assoc.get_put_self _ _ _⟩
    · exact ⟨t, by rw [Assoc.get_put_ne _ _ _ _ hid]; exact ht⟩
  · intro u hu
    rw [Assoc.get_put] at hu
    split at hu
    · cases hu; simp [freshThread]
    · exact h6 _ _ hu
  · intro u hu
    rw [Assoc.get_put] at hu
    split at hu
    · cases hu; simp [freshThread]
    · exact h7 _ _ hu

/-- The thread that was running is given a state that is not `running`, and none runs. -/
theorem SchedOk.leave {threads : List (Nat × Thread)} {nextId : Nat} {queue : List Nat} {r : Nat}
    (h : SchedOk threads nextId queue (some r)) (f : Thread → Thread)
    (hf : ∀ t, (f t).state ≠ .running ∧ ((f t).state = .blocked → (f t).wake.isSome = true)
      ∧ (f t).state ≠ .terminated) {queue' : List Nat} (hq : ∀ id ∈ queue', id ∈ queue ∨ id = r) :
    SchedOk (Assoc.update threads r f) nextId queue' none := by
  obtain ⟨h1, h2, h3, h4, h5, h6, h7⟩ := h
  refine ⟨Assoc.rising_update _ _ h1, ?_, ?_, ?_, by simp, ?_, ?_⟩ <;> intro id
  · intro u hu
    rw [Assoc.get_update] at hu
    split at hu
    · next e =>
      subst e
      obtain ⟨t, ht⟩ := h5 _ rfl
      exact h2 _ _ ht
    · exact h2 _ _ hu
  · intro hm
    rcases hq _ hm with hm | rfl
    · exact h3 _ hm
    · obtain ⟨t, ht⟩ := h5 _ rfl
      exact h2 _ _ ht
  · intro u hu
    rw [Assoc.get_update] at hu
    split at hu
    · obtain ⟨t, _, rfl⟩ := Option.map_eq_some_iff.1 hu
      simp [(hf t).1]
    · next e =>
      have hne : (some r : Option Nat) ≠ some id := fun e' => e (Option.some.inj e').symm
      simp [mt (h4 _ _ hu).1 hne]
  · intro u hu
    rw [Assoc.get_update] at hu
    split at hu
    · obtain ⟨t, _, rfl⟩ := Option.map_eq_some_iff.1 hu
      exact (hf t).2.1
    · exact h6 _ _ hu
  · intro u hu
    rw [Assoc.get_update] at hu
    split at hu
    · obtain ⟨t, _, rfl⟩ := Option.map_eq_some_iff.1 hu
      exact (hf t).2.2
    · exact h7 _ _ hu

theorem State.SchedulerInv.yieldCurrent {s : State} (h : s.SchedulerInv) :
    s.yieldCurrent.SchedulerInv := by
  unfold State.yieldCurrent
  cases hr : s.running with
  | none => exact h
  | some r =>
    rw [State.schedulerInv_iff] at h ⊢
    rw [hr] at h
    exact h.leave _ (fun t => by simp) (by simp)

theorem State.SchedulerInv.block {s : State} (h : s.SchedulerInv) (d : Nat) :
    (s.block d).SchedulerInv := by
  unfold State.block
  cases hr : s.running with
  | none => exact h
  | some r =>
    rw [State.schedulerInv_iff] at h ⊢
    rw [hr] at h
    exact h.leave _ (fun t => by simp) (fun _ h => .inl h)

theorem State.SchedulerInv.terminate {s : State} (h : s.SchedulerInv) (r : Nat) :
    (s.terminate r).SchedulerInv := by
  rw [State.schedulerInv_iff] at h ⊢
  obtain ⟨h1, h2, h3, h4, h5, h6, h7⟩ := h
  simp only [State.terminate]
  have back : ∀ id t, Assoc.get (Assoc.erase s.threads r) id = some t →
      id ≠ r ∧ Assoc.get s.threads id = some t := by
    intro id t ht
    rw [Assoc.get_erase] at ht
    split at ht
    · cases ht
    · exact ⟨by assumption, ht⟩
  refine ⟨Assoc.rising_erase _ h1, fun id t ht => h2 _ _ (back _ _ ht).2, h3, fun id t ht => ?_,
    fun id e => ?_, fun id t ht => h6 _ _ (back _ _ ht).2, fun id t ht => h7 _ _ (back _ _ ht).2⟩
  · obtain ⟨hne, hg⟩ := back _ _ ht
    rw [h4 _ _ hg]
    split
    · next e => simp [e, Ne.symm hne]
    · rfl
  · split at e
    · cases e
    · next hne =>
      obtain ⟨t, ht⟩ := h5 _ e
      refine ⟨t, ?_⟩
      rw [Assoc.get_erase, if_neg (fun hid => hne (by rw [e, hid])), ht]

theorem State.SchedulerInv.scheduleNext {s : State} (h : s.SchedulerInv) (hr : s.running = none) :
    s.scheduleNext.2.SchedulerInv := by
  rcases s.scheduleNext_cases with ⟨id, rest, t, hp, hg, hs, he⟩ | ⟨_, he⟩
  · rw [he]
    rw [State.schedulerInv_iff] at h ⊢
    obtain ⟨h1, h2, h3, h4, h5, h6, h7⟩ := h
    obtain ⟨skipped, hq, _, _⟩ := popReady_some hp
    refine ⟨Assoc.rising_put _ _ h1, ?_, ?_, ?_, ?_, ?_, ?_⟩ <;> intro j
    · intro u hu
      simp only [State.dispatch, State.restore_threads, State.restore_nextId] at hu ⊢
      rw [Assoc.get_put] at hu
      split at hu
      · next e => subst e; exact h2 _ _ hg
      · exact h2 _ _ hu
    · intro hm
      exact h3 _ (by rw [hq]; simp only [List.mem_append, List.mem_cons]; exact .inr (.inr hm))
    · intro u hu
      simp only [State.dispatch, State.restore_threads, State.restore_running] at hu ⊢
      rw [Assoc.get_put] at hu
      split at hu
      · next e => subst e; cases hu; simp
      · next e =>
        have := h4 _ _ hu
        simp only [hr, reduceCtorEq, iff_false] at this
        simp [this, Ne.symm e]
    · intro e
      simp only [State.dispatch, State.restore_running, Option.some.injEq] at e
      subst e
      exact ⟨_, Assoc.get_put_self _ _ _⟩
    · intro u hu
      simp only [State.dispatch, State.restore_threads] at hu
      rw [Assoc.get_put] at hu
      split at hu
      · cases hu; simp
      · exact h6 _ _ hu
    · intro u hu
      simp only [State.dispatch, State.restore_threads] at hu
      rw [Assoc.get_put] at hu
      split at hu
      · cases hu; simp
      · exact h7 _ _ hu
  · rw [he]
    rw [State.schedulerInv_iff] at h ⊢
    obtain ⟨h1, h2, h3, h4, h5, h6, h7⟩ := h
    exact ⟨h1, h2, by simp, h4, h5, h6, h7⟩

/-! Waking (60_exceptions.md R445, R450). -/

theorem insertIdx_perm {l : List Nat} {n : Nat} (a : Nat) (h : n ≤ l.length) :
    (l.insertIdx n a).Perm (a :: l) := by
  induction n generalizing l with
  | zero => exact .refl _
  | succ n ih =>
    cases l with
    | nil => simp at h
    | cons b rest => exact ((ih (by simpa using h)).cons b).trans (.swap a b rest)

/-- A free order has each id exactly as often as it was given. -/
theorem freeOrder_perm (ids : List Nat) (k : Nat) : (freeOrder ids k).Perm ids := by
  induction ids generalizing k with
  | nil => exact .refl _
  | cons j rest ih =>
    have h := Nat.mod_lt (Config.wakePosition k) (show 0 < rest.length + 1 by omega)
    exact (insertIdx_perm j (by have := (ih (k + 1)).length_eq; omega)).trans ((ih (k + 1)).cons j)

theorem mem_freeOrder {ids : List Nat} {k id : Nat} : id ∈ freeOrder ids k ↔ id ∈ ids :=
  (freeOrder_perm ids k).mem_iff

/-- A woken record. -/
def Thread.wakened (now : Nat) (t : Thread) : Thread :=
  if t.due now then { t with state := .ready } else t

theorem State.unblockDue_threads (s : State) :
    s.unblockDue.threads = s.threads.map fun e => (e.1, e.2.wakened s.readClock.now) := by
  simp only [State.unblockDue, State.readClock_threads]
  apply List.map_congr_left
  intro e _
  unfold Thread.wakened
  split <;> rfl

@[simp] theorem State.unblockDue_running (s : State) : s.unblockDue.running = s.running := rfl
@[simp] theorem State.unblockDue_nextId (s : State) : s.unblockDue.nextId = s.nextId := rfl
@[simp] theorem State.unblockDue_now (s : State) : s.unblockDue.now = s.readClock.now := rfl


theorem State.mem_unblockDue_queue {s : State} {id : Nat} :
    id ∈ s.unblockDue.readyQueue
      ↔ id ∈ s.readyQueue ∨ ∃ t, (id, t) ∈ s.threads ∧ t.due s.readClock.now = true := by
  simp only [State.unblockDue, State.readClock_readyQueue, State.readClock_threads, List.mem_append,
    mem_freeOrder, dueIds, List.mem_map, List.mem_filter]
  constructor
  · rintro (h | ⟨e, ⟨he, hd⟩, rfl⟩)
    · exact .inl h
    · exact .inr ⟨e.2, he, hd⟩
  · rintro (h | ⟨t, ht, hd⟩)
    · exact .inl h
    · exact .inr ⟨_, ⟨ht, hd⟩, rfl⟩

theorem State.SchedulerInv.unblockDue {s : State} (h : s.SchedulerInv) :
    s.unblockDue.SchedulerInv := by
  have hq : ∀ id, id ∈ s.unblockDue.readyQueue → id < s.nextId := by
    intro id hid
    rcases State.mem_unblockDue_queue.1 hid with hid | ⟨t, ht, _⟩
    · exact h.2.2.1 _ hid
    · exact h.2.1 _ ht
  rw [State.schedulerInv_iff] at h ⊢
  obtain ⟨h1, h2, h3, h4, h5, h6, h7⟩ := h
  rw [State.unblockDue_threads]
  have back : ∀ id u, Assoc.get (s.threads.map fun e => (e.1, e.2.wakened s.readClock.now)) id = some u →
      ∃ t, Assoc.get s.threads id = some t ∧ u = t.wakened s.readClock.now := by
    intro id u hu
    rw [Assoc.get_map] at hu
    obtain ⟨t, ht, rfl⟩ := Option.map_eq_some_iff.1 hu
    exact ⟨t, ht, rfl⟩
  refine ⟨Assoc.rising_map _ h1, fun id u hu => ?_, hq, fun id u hu => ?_, fun id e => ?_,
    fun id u hu => ?_, fun id u hu => ?_⟩
  · obtain ⟨t, ht, _⟩ := back _ _ hu
    exact h2 _ _ ht
  · obtain ⟨t, ht, rfl⟩ := back _ _ hu
    rw [State.unblockDue_running, ← h4 _ _ ht]
    unfold Thread.wakened
    split
    · next hd =>
      simp only [Thread.due, Bool.and_eq_true, beq_iff_eq] at hd
      simp [hd.1]
    · rfl
  · obtain ⟨t, ht⟩ := h5 _ e
    exact ⟨_, by rw [Assoc.get_map, ht]; rfl⟩
  · obtain ⟨t, ht, rfl⟩ := back _ _ hu
    unfold Thread.wakened
    split
    · simp
    · exact h6 _ _ ht
  · obtain ⟨t, ht, rfl⟩ := back _ _ hu
    unfold Thread.wakened
    split
    · simp
    · exact h7 _ _ ht

/-! Counting (10_state.md R45, 60_exceptions.md R446, R451). -/

theorem instretSum_put_fresh {m : List (Nat × Thread)} {k : Nat} (v : Thread)
    (h : Assoc.get m k = none) : instretSum (Assoc.put m k v) = instretSum m + v.instret := by
  induction m with
  | nil => simp [Assoc.put, instretSum]
  | cons e rest ih =>
    simp only [Assoc.get] at h
    split at h
    · cases h
    · next hne =>
      have hne' : ¬ k = e.1 := fun e' => hne e'.symm
      simp only [Assoc.put, hne', if_false]
      split
      · simp only [instretSum, List.map_cons, List.sum_cons]; omega
      · have := ih h
        simp only [instretSum, List.map_cons, List.sum_cons] at this ⊢
        omega

theorem instretSum_put {m : List (Nat × Thread)} (hm : Assoc.Rising m) {k : Nat} {w : Thread}
    (v : Thread) (h : Assoc.get m k = some w) :
    instretSum (Assoc.put m k v) + w.instret = instretSum m + v.instret := by
  induction m with
  | nil => cases h
  | cons e rest ih =>
    have hk := Assoc.mem_of_get h
    simp only [Assoc.get] at h
    simp only [Assoc.put]
    split at h
    · next he =>
      cases h
      subst he
      simp only [Nat.lt_irrefl, if_false, if_true, instretSum, List.map_cons, List.sum_cons]
      omega
    · next he =>
      have hlt : e.1 < k := (List.pairwise_cons.1 hm).1 _ (Assoc.mem_of_get h)
      simp only [Nat.not_lt.2 (Nat.le_of_lt hlt), Nat.ne_of_gt hlt, if_false]
      have := ih (List.pairwise_cons.1 hm).2 h
      simp only [instretSum, List.map_cons, List.sum_cons] at this ⊢
      omega

theorem instretSum_update {m : List (Nat × Thread)} (hm : Assoc.Rising m) (k : Nat) (f : Thread → Thread)
    (hf : ∀ t, (f t).instret = t.instret) : instretSum (Assoc.update m k f) = instretSum m := by
  unfold Assoc.update
  cases hg : Assoc.get m k with
  | none => rfl
  | some w =>
    have := instretSum_put hm (f w) hg
    rw [hf] at this
    simpa using this

theorem instretSum_map (m : List (Nat × Thread)) (g : Thread → Thread)
    (hg : ∀ t, (g t).instret = t.instret) :
    instretSum (m.map fun e => (e.1, g e.2)) = instretSum m := by
  simp [instretSum, Function.comp_def, hg]

theorem instretSum_erase {m : List (Nat × Thread)} (hm : Assoc.Rising m) (k : Nat) :
    instretSum (Assoc.erase m k) + ((Assoc.get m k).map Thread.instret).getD 0 = instretSum m := by
  induction m with
  | nil => rfl
  | cons e rest ih =>
    have ih := ih (List.pairwise_cons.1 hm).2
    simp only [Assoc.get]
    by_cases he : e.1 = k
    · have hrest : Assoc.get rest k = none := by
        cases hg : Assoc.get rest k with
        | none => rfl
        | some t =>
          have := (List.pairwise_cons.1 hm).1 _ (Assoc.mem_of_get hg)
          simp only at this
          omega
      simp only [hrest, Option.map_none, Option.getD_none, Nat.add_zero] at ih
      simp only [Assoc.erase, Assoc.keep, he, List.filter_cons, bne_self_eq_false, if_true, if_false,
        Option.map_some, Option.getD_some, Bool.false_eq_true]
      simp only [Assoc.erase, Assoc.keep] at ih
      rw [ih]
      simp only [instretSum, List.map_cons, List.sum_cons]
      omega
    · have hb : (e.1 != k) = true := by simpa using he
      simp only [Assoc.erase, Assoc.keep, List.filter_cons, hb, if_true, he, if_false]
      simp only [Assoc.erase, Assoc.keep] at ih
      simp only [instretSum, List.map_cons, List.sum_cons] at ih ⊢
      omega

/-- A state with the same counts. -/
theorem State.CountInv.congr {s t : State} (h : s.CountInv) (h1 : t.threads = s.threads)
    (h2 : t.totalInstret = s.totalInstret) (h3 : t.retired = s.retired) : t.CountInv := by
  unfold State.CountInv at h ⊢
  rwa [h1, h2, h3]

theorem State.CountInv.countInstruction {s : State} (h : s.CountInv) : s.countInstruction.CountInv := by
  obtain ⟨h1, h2⟩ := h
  simp only [State.CountInv, State.countInstruction_threads, State.countInstruction_totalInstret,
    State.countInstruction_retired, State.countedThreads, State.runningThread]
  cases hr : s.running with
  | none => simpa using ⟨h1, h2⟩
  | some r =>
    simp only [Option.bind_some]
    cases hg : Assoc.get s.threads r with
    | none => simpa using ⟨h1, h2⟩
    | some t =>
      refine ⟨Assoc.rising_put _ _ h1, ?_⟩
      have := instretSum_put h1 { t with slice := t.slice + 1, instret := t.instret + 1 } hg
      simp only [Option.isSome_some, Bool.toNat_true] at this ⊢
      omega

/-- Creation keeps the counts where the new id is not in the table. -/
theorem State.CountInv.createThread {s : State} (h : s.CountInv) (hs : s.SchedulerInv) (pc : Word)
    (p : Nat) : (s.createThread pc p).CountInv := by
  have hfresh : Assoc.get s.threads s.nextId = none := by
    cases hg : Assoc.get s.threads s.nextId with
    | none => rfl
    | some t => exact absurd (hs.2.1 _ (Assoc.mem_of_get hg)) (Nat.lt_irrefl _)
  refine ⟨Assoc.rising_put _ _ h.1, ?_⟩
  have := instretSum_put_fresh (freshThread s.nextId pc p) hfresh
  have h2 := h.2
  have h0 : (freshThread s.nextId pc p).instret = 0 := rfl
  simp only [State.createThread]
  omega

theorem State.CountInv.yieldCurrent {s : State} (h : s.CountInv) : s.yieldCurrent.CountInv := by
  unfold State.yieldCurrent
  cases hr : s.running with
  | none => exact h
  | some r =>
    exact ⟨Assoc.rising_update _ _ h.1, by
      have := instretSum_update h.1 r (fun t => { t with ctx := s.context, state := .ready }) (fun _ => rfl)
      have h2 := h.2
      simp only at this ⊢
      omega⟩

theorem State.CountInv.block {s : State} (h : s.CountInv) (d : Nat) : (s.block d).CountInv := by
  unfold State.block
  cases hr : s.running with
  | none => exact h
  | some r =>
    exact ⟨Assoc.rising_update _ _ h.1, by
      have := instretSum_update h.1 r (fun t =>
        { t with ctx := s.context, state := .blocked, wake := some (s.readClock.now + d) }) (fun _ => rfl)
      have h2 := h.2
      simp only [State.readClock_totalInstret, State.readClock_retired] at this ⊢
      omega⟩

theorem State.CountInv.terminate {s : State} (h : s.CountInv) (r : Nat) : (s.terminate r).CountInv := by
  refine ⟨Assoc.rising_erase _ h.1, ?_⟩
  have h1 := instretSum_erase h.1 r
  have h2 := h.2
  simp only [State.terminate]
  cases hg : Assoc.get s.threads r with
  | none =>
    simp only [hg, Option.map_none, Option.getD_none, Nat.add_zero] at h1
    simp only [Option.map_none, Option.toList_none, List.nil_append, h1]
    exact h2
  | some t =>
    simp only [hg, Option.map_some, Option.getD_some] at h1
    simp only [Option.map_some, Option.toList_some, List.singleton_append, List.map_cons, List.sum_cons]
    omega

theorem State.CountInv.scheduleNext {s : State} (h : s.CountInv) : s.scheduleNext.2.CountInv := by
  rcases s.scheduleNext_cases with ⟨id, rest, t, _, hg, _, he⟩ | ⟨_, he⟩
  · rw [he]
    refine ⟨Assoc.rising_put _ _ h.1, ?_⟩
    have := instretSum_put h.1 { t with state := .running, slice := 0 } hg
    have h2 := h.2
    simp only [State.dispatch, State.restore_threads, State.restore_totalInstret, State.restore_retired]
      at this ⊢
    omega
  · rw [he]
    exact h

theorem State.CountInv.unblockDue {s : State} (h : s.CountInv) : s.unblockDue.CountInv := by
  refine ⟨?_, ?_⟩
  · rw [State.unblockDue_threads]
    exact Assoc.rising_map _ h.1
  · rw [State.unblockDue_threads, instretSum_map]
    · exact h.2
    · intro t
      unfold Thread.wakened
      split <;> rfl

end Sys2Proof.Machine
end

