-- ==== Sys2Proof/Laws/Invariants.lean ====
section
/-!
SUPPORT. What each shared operation keeps of the invariants of Safety.lean: the accesses of an
instruction, its completion or halt, the settling of a fault, and the host's and the kernel's acts.
-/

namespace Sys2Proof.Machine

open Sys2Proof

/-! The fields that no operation of an instruction writes. -/

/-- The memory size, the paging bit, the regions, the registrations, the vector table and the
parameters (10_state.md R36, 20_memory.md R101). -/
def State.control (s : State) :
    Nat × Bool × List Region × List MmioRange × List (Nat × Word) × Params :=
  (s.memSize, s.pagingEnabled, s.regions, s.mmio, s.ivt, s.params)

theorem AccessStep.control {s t : State} (h : AccessStep s t) : t.control = s.control := by
  cases h <;> rfl

theorem Accesses.control {s t : State} (h : Accesses s t) : t.control = s.control := by
  induction h with
  | refl => rfl
  | tail _ hs ih => exact hs.control.trans ih

theorem Performs.control {s t : State} (h : Performs s t) : t.control = s.control := by
  rcases h with ⟨u, st, ha, ⟨_, _, _, _, _, _, _, rfl⟩, _⟩ | ⟨u, f, ha, rfl⟩
  · exact ha.control
  · exact ha.control

theorem settle_cases (pre post : State) :
    settle pre post = post ∨ settle pre post = settleFaulted pre post := by
  unfold settle
  split
  · exact .inr rfl
  · exact .inl rfl

theorem settle_control (pre post : State) : (settle pre post).control = post.control := by
  rcases settle_cases pre post with h | h <;> rw [h] <;> rfl

theorem Accesses.params {s t : State} (h : Accesses s t) : t.params = s.params :=
  congrArg (fun c => c.2.2.2.2.2) h.control

theorem Accesses.memSize {s t : State} (h : Accesses s t) : t.memSize = s.memSize :=
  congrArg (fun c => c.1) h.control

/-! Memory (10_state.md R37). -/

/-- The memory after reset is in its one form, and so is every memory an access, a host write or a
settled fault leaves (below). -/
theorem State.reset_memory_wf : Memory.Wf State.reset.mem :=
  Memory.wf_nil

/-- A state with the same memory. -/
theorem State.MemoryInv.congr {s t : State} (h : s.MemoryInv) (h1 : t.mem = s.mem)
    (h2 : t.memSize = s.memSize) : t.MemoryInv := by
  unfold State.MemoryInv at h ⊢
  rwa [h1, h2]

theorem AccessStep.memoryInv {s t : State} (h : AccessStep s t) (hi : s.MemoryInv) : t.MemoryInv := by
  cases h with
  | alloc vpn => exact ⟨memZero_wf _ _ hi.1, memZero_below _ _ hi.2.1, hi.2.2⟩
  | cacheRead | device | reg => exact hi
  | write a p w v hb => exact ⟨memWrite_wf _ _ _ hi.1, memWrite_below _ _ hi.2.1 hb, hi.2.2⟩

theorem Accesses.memoryInv {s t : State} (h : Accesses s t) (hi : s.MemoryInv) : t.MemoryInv :=
  h.keeps (fun _ _ => AccessStep.memoryInv) hi

theorem Performs.memoryInv {s t : State} (h : Performs s t) (hi : s.MemoryInv) : t.MemoryInv := by
  rcases h with ⟨u, st, ha, ⟨_, _, _, _, _, _, _, rfl⟩, _⟩ | ⟨u, f, ha, rfl⟩
  · exact ha.memoryInv hi
  · exact ha.memoryInv hi

theorem settle_memoryInv {pre post : State} (h : pre.MemoryInv) (h' : post.MemoryInv)
    (hs : post.memSize = pre.memSize) : (settle pre post).MemoryInv := by
  rcases settle_cases pre post with e | e <;> rw [e]
  · exact h'
  · unfold settleFaulted State.MemoryInv
    simp only
    by_cases hw : keepsWrites pre post = true
    · rw [if_pos hw]; exact h'
    · rw [if_neg hw, hs]
      unfold undoneMem
      split
      · exact ⟨memZero_wf _ _ h.1, memZero_below _ _ h.2.1, h.2.2⟩
      · exact h

theorem State.setPixel_memory (s : State) (x y : Int) (c : Nat) :
    (s.setPixel x y c).mem = s.mem ∧ (s.setPixel x y c).memSize = s.memSize := by
  unfold State.setPixel
  split <;> exact ⟨rfl, rfl⟩

/-- A property of states that every pixel written keeps is kept by a shape. -/
theorem State.drawShape_keeps {P : State → Prop} (hP : ∀ s x y c, P s → P (State.setPixel s x y c))
    {s : State} (c : Nat) (h : P { s with draws := s.draws + 1 }) : P (s.drawShape c) := by
  unfold State.drawShape
  generalize ({ s with draws := s.draws + 1 } : State) = t at h ⊢
  generalize Config.shapePixels s.draws = l
  induction l generalizing t with
  | nil => exact h
  | cons p rest ih => exact ih _ (hP _ _ _ _ h)

/-- A property of states that every allowed host action keeps is kept by the kernel's acts. -/
theorem State.kernelActs_keeps {P : State → Prop}
    (hP : ∀ s op, op.kernelMay = true → P s → P (State.host s op)) {s : State} (r : KernelResponse)
    (h : P s) : P (s.kernelActs r) := by
  unfold State.kernelActs
  have hall : ∀ op ∈ r.acts.filter HostOp.kernelMay, op.kernelMay = true := fun op ho =>
    (List.mem_filter.1 ho).2
  generalize r.acts.filter HostOp.kernelMay = l at hall
  induction l generalizing s with
  | nil => exact h
  | cons op rest ih =>
    exact ih (hP _ _ (hall op (by simp)) h) fun o ho => hall o (by simp [ho])

theorem State.scheduleNext_memory (s : State) :
    s.scheduleNext.2.mem = s.mem ∧ s.scheduleNext.2.memSize = s.memSize := by
  rcases s.scheduleNext_cases with ⟨id, rest, t, _, _, _, he⟩ | ⟨_, he⟩ <;> rw [he] <;> exact ⟨rfl, rfl⟩

theorem State.yieldCurrent_memory (s : State) :
    s.yieldCurrent.mem = s.mem ∧ s.yieldCurrent.memSize = s.memSize := by
  unfold State.yieldCurrent
  split <;> exact ⟨rfl, rfl⟩

theorem State.block_memory (s : State) (d : Nat) :
    (s.block d).mem = s.mem ∧ (s.block d).memSize = s.memSize := by
  unfold State.block
  split <;> exact ⟨rfl, rfl⟩

theorem State.host_memoryInv {s : State} (op : HostOp) (h : s.MemoryInv) : (s.host op).MemoryInv := by
  cases op with
  | writeBytes addr bytes =>
    simp only [State.host, State.hostWrite]
    split
    · next hb => exact ⟨memWriteBytes_wf _ _ h.1, memWriteBytes_below _ h.2.1 hb, h.2.2⟩
    · exact h
  | expand required =>
    exact ⟨h.1, fun c hc => Nat.lt_of_lt_of_le (h.2.1 c hc) (le_expandedSize _ _),
      expandedSize_le _ _ h.2.2⟩
  | setPixel x y c => exact h.congr (s.setPixel_memory x y c).1 (s.setPixel_memory x y c).2
  | drawShape c =>
    exact State.drawShape_keeps
      (fun t x y c ht => State.MemoryInv.congr ht (t.setPixel_memory x y c).1 (t.setPixel_memory x y c).2) c h
  | scheduleNext => exact h.congr s.scheduleNext_memory.1 s.scheduleNext_memory.2
  | yieldCurrent => exact h.congr s.yieldCurrent_memory.1 s.yieldCurrent_memory.2
  | block d => exact h.congr (s.block_memory d).1 (s.block_memory d).2
  | registerRegion | unregisterRegion | registerMmio | unregisterMmio | setPaging | installVector
  | removeVector | setPc | createThread | preempt | unblockDue | terminate | startRun | startSched =>
    exact h

/-! Pages (20_memory.md R86). -/

/-- A state with the same pages. -/
theorem State.PagesInv.congr {s t : State} (h : s.PagesInv) (h1 : t.pageTable = s.pageTable)
    (h2 : t.nextFreePPage = s.nextFreePPage) : t.PagesInv := by
  unfold State.PagesInv at h ⊢
  rwa [h1, h2]

theorem Assoc.map_snd_put_nodup {α : Type} {m : List (Nat × α)} {k : Nat} {v : α}
    (h : (m.map Prod.snd).Nodup) (hv : ∀ e ∈ m, e.2 ≠ v) : ((Assoc.put m k v).map Prod.snd).Nodup := by
  induction m with
  | nil => simp [Assoc.put]
  | cons e rest ih =>
    simp only [List.map_cons, List.nodup_cons, List.mem_map, not_exists, not_and] at h
    have hr := ih h.2 fun x hx => hv x (by simp [hx])
    simp only [Assoc.put]
    split
    · simp only [List.map_cons, List.nodup_cons, List.mem_cons, List.mem_map, not_or, not_exists, not_and]
      exact ⟨⟨fun e' => hv e (by simp) e'.symm, fun x hx e' => hv x (by simp [hx]) e'⟩, h⟩
    · split
      · simp only [List.map_cons, List.nodup_cons, List.mem_map, not_exists, not_and]
        exact ⟨fun x hx e' => hv x (by simp [hx]) e', h.2⟩
      · simp only [List.map_cons, List.nodup_cons, List.mem_map, not_exists, not_and]
        refine ⟨fun x hx e' => ?_, hr⟩
        rcases Assoc.mem_put hx with rfl | hx
        · exact hv e (by simp) e'.symm
        · exact h.1 x hx e'

theorem AccessStep.pagesInv {s t : State} (h : AccessStep s t) (hi : s.PagesInv) : t.PagesInv := by
  cases h with
  | alloc vpn =>
    obtain ⟨h1, h2, h3⟩ := hi
    refine ⟨Assoc.rising_put _ _ h1, fun e he => ?_, Assoc.map_snd_put_nodup h3 fun e he e' => ?_⟩
    · rcases Assoc.mem_put he with rfl | he
      · exact Nat.lt_succ_self _
      · exact Nat.lt_succ_of_lt (h2 e he)
    · have := h2 e he
      omega
  | cacheRead | device | reg | write => exact hi

theorem Accesses.pagesInv {s t : State} (h : Accesses s t) (hi : s.PagesInv) : t.PagesInv :=
  h.keeps (fun _ _ => AccessStep.pagesInv) hi

theorem Performs.pagesInv {s t : State} (h : Performs s t) (hi : s.PagesInv) : t.PagesInv := by
  rcases h with ⟨u, st, ha, ⟨_, _, _, _, _, _, _, rfl⟩, _⟩ | ⟨u, f, ha, rfl⟩
  · exact ha.pagesInv hi
  · exact ha.pagesInv hi

theorem settle_pagesInv {pre post : State} (h : pre.PagesInv) (h' : post.PagesInv) :
    (settle pre post).PagesInv := by
  rcases settle_cases pre post with e | e <;> rw [e]
  · exact h'
  · unfold settleFaulted State.PagesInv
    simp only
    by_cases hk : keepsPages pre post = true
    · rw [if_pos hk, if_pos hk]; exact h'
    · rw [if_neg hk, if_neg hk]; exact h

theorem State.setPixel_pages (s : State) (x y : Int) (c : Nat) :
    (s.setPixel x y c).pageTable = s.pageTable ∧ (s.setPixel x y c).nextFreePPage = s.nextFreePPage := by
  unfold State.setPixel
  split <;> exact ⟨rfl, rfl⟩

theorem State.host_pages (s : State) (op : HostOp) :
    (s.host op).pageTable = s.pageTable ∧ (s.host op).nextFreePPage = s.nextFreePPage := by
  cases op with
  | writeBytes addr bytes =>
    simp only [State.host, State.hostWrite]
    split <;> exact ⟨rfl, rfl⟩
  | setPixel x y c => exact s.setPixel_pages x y c
  | drawShape c =>
    exact State.drawShape_keeps
      (P := fun t => t.pageTable = s.pageTable ∧ t.nextFreePPage = s.nextFreePPage)
      (fun t x y c ht => ⟨(t.setPixel_pages x y c).1.trans ht.1, (t.setPixel_pages x y c).2.trans ht.2⟩)
      c ⟨rfl, rfl⟩
  | scheduleNext =>
    simp only [State.host]
    rcases s.scheduleNext_cases with ⟨id, rest, t, _, _, _, he⟩ | ⟨_, he⟩ <;> rw [he] <;> exact ⟨rfl, rfl⟩
  | yieldCurrent =>
    simp only [State.host, State.yieldCurrent]
    split <;> exact ⟨rfl, rfl⟩
  | block d =>
    simp only [State.host, State.block]
    split <;> exact ⟨rfl, rfl⟩
  | expand | registerRegion | unregisterRegion | registerMmio | unregisterMmio | setPaging
  | installVector | removeVector | setPc | createThread | preempt | unblockDue | terminate | startRun
  | startSched => exact ⟨rfl, rfl⟩

/-! The cache (10_state.md R40). -/

/-- A state with the same cache and parameters. -/
theorem State.CacheInv.congr {s t : State} (h : s.CacheInv) (h1 : t.cache = s.cache)
    (h2 : t.params = s.params) : t.CacheInv := by
  unfold State.CacheInv at h ⊢
  rwa [h1, h2]

theorem Assoc.rising_eraseIdx {α : Type} {m : List (Nat × α)} (i : Nat) (h : Assoc.Rising m) :
    Assoc.Rising (m.eraseIdx i) :=
  List.Pairwise.sublist (List.eraseIdx_sublist _ _) h

theorem State.cacheRoom_ok {s : State} (hi : s.CacheInv) (hc : 1 ≤ s.params.cacheCapacity) :
    Assoc.Rising s.cacheRoom ∧ s.cacheRoom.length + 1 ≤ s.params.cacheCapacity := by
  unfold State.cacheRoom
  split
  · next hf =>
    refine ⟨Assoc.rising_eraseIdx _ hi.1, ?_⟩
    have hl : 0 < s.cache.length := by omega
    have := Nat.mod_lt (Config.evictChoice s.draws) hl
    have h2 := hi.2
    rw [List.length_eraseIdx, if_pos this]
    omega
  · next hf => exact ⟨hi.1, by omega⟩

theorem State.cacheRead_cacheInv {s : State} (a v : Word) (hi : s.CacheInv)
    (hc : 1 ≤ s.params.cacheCapacity) : (s.cacheRead a v).CacheInv := by
  unfold State.CacheInv
  simp only [State.cacheRead_cache, State.cacheRead_params]
  by_cases hh : s.cacheHolds a = true
  · simp only [hh, if_true]
    refine ⟨Assoc.rising_put _ _ hi.1, ?_⟩
    obtain ⟨w, hw⟩ := Option.isSome_iff_exists.1 hh
    rw [Assoc.length_put_of_get hi.1 v hw]
    exact hi.2
  · simp only [hh, Bool.false_eq_true, if_false]
    obtain ⟨h1, h2⟩ := State.cacheRoom_ok hi hc
    exact ⟨Assoc.rising_put _ _ h1, Nat.le_trans (Assoc.length_put_le _ _ _) h2⟩

theorem State.cacheInvalidate_cacheInv {s : State} (a : Word) (hi : s.CacheInv) :
    (s.cacheInvalidate a).CacheInv :=
  ⟨Assoc.rising_erase _ hi.1, Nat.le_trans (List.length_filter_le _ _) hi.2⟩

theorem AccessStep.cacheInv {s t : State} (h : AccessStep s t)
    (hi : s.CacheInv ∧ 1 ≤ s.params.cacheCapacity) : t.CacheInv ∧ 1 ≤ t.params.cacheCapacity := by
  cases h with
  | alloc | device | reg => exact hi
  | cacheRead a v => exact ⟨State.cacheRead_cacheInv a v hi.1 hi.2, hi.2⟩
  | write a p w v hb => exact ⟨State.cacheInvalidate_cacheInv (s := { s with mem := memWrite s.mem p w v }) a hi.1, hi.2⟩

theorem Accesses.cacheInv {s t : State} (h : Accesses s t) (hi : s.CacheInv)
    (hc : 1 ≤ s.params.cacheCapacity) : t.CacheInv :=
  (h.keeps (fun _ _ => AccessStep.cacheInv) ⟨hi, hc⟩).1

theorem Performs.cacheInv {s t : State} (h : Performs s t) (hi : s.CacheInv)
    (hc : 1 ≤ s.params.cacheCapacity) : t.CacheInv := by
  rcases h with ⟨u, st, ha, ⟨_, _, _, _, _, _, _, rfl⟩, _⟩ | ⟨u, f, ha, rfl⟩
  · exact ha.cacheInv hi hc
  · exact ha.cacheInv hi hc

theorem settle_cacheInv {pre post : State} (h' : post.CacheInv) : (settle pre post).CacheInv := by
  rcases settle_cases pre post with e | e <;> rw [e] <;> exact h'

/-! The parameters. -/

theorem State.setPixel_params (s : State) (x y : Int) (c : Nat) :
    (s.setPixel x y c).params = s.params ∧ (s.setPixel x y c).cache = s.cache := by
  unfold State.setPixel
  split <;> exact ⟨rfl, rfl⟩

theorem State.host_params (s : State) (op : HostOp) :
    (s.host op).params = s.params ∧ (s.host op).cache = s.cache := by
  cases op with
  | writeBytes addr bytes =>
    simp only [State.host, State.hostWrite]
    split <;> exact ⟨rfl, rfl⟩
  | setPixel x y c => exact s.setPixel_params x y c
  | drawShape c =>
    exact State.drawShape_keeps (P := fun t => t.params = s.params ∧ t.cache = s.cache)
      (fun t x y c ht => ⟨(t.setPixel_params x y c).1.trans ht.1, (t.setPixel_params x y c).2.trans ht.2⟩)
      c ⟨rfl, rfl⟩
  | scheduleNext =>
    simp only [State.host]
    rcases s.scheduleNext_cases with ⟨id, rest, t, _, _, _, he⟩ | ⟨_, he⟩ <;> rw [he] <;> exact ⟨rfl, rfl⟩
  | yieldCurrent =>
    simp only [State.host, State.yieldCurrent]
    split <;> exact ⟨rfl, rfl⟩
  | block d =>
    simp only [State.host, State.block]
    split <;> exact ⟨rfl, rfl⟩
  | expand | registerRegion | unregisterRegion | registerMmio | unregisterMmio | setPaging
  | installVector | removeVector | setPc | createThread | preempt | unblockDue | terminate | startRun
  | startSched => exact ⟨rfl, rfl⟩

/-! The scheduler and the FP stacks. -/

theorem Accesses.threads {s t : State} (h : Accesses s t) :
    t.threads = s.threads ∧ t.nextId = s.nextId ∧ t.readyQueue = s.readyQueue ∧ t.running = s.running
    ∧ t.totalInstret = s.totalInstret ∧ t.retired = s.retired := by
  induction h with
  | refl => exact ⟨rfl, rfl, rfl, rfl, rfl, rfl⟩
  | tail _ hs ih => cases hs <;> exact ih

theorem Performs.schedulerInv {s t : State} (h : Performs s t) (hi : s.SchedulerInv) :
    t.SchedulerInv := by
  rcases h with ⟨u, st, ha, ⟨fl, hl, ft, sp, an, pc, _, rfl⟩, _⟩ | ⟨u, f, ha, rfl⟩
  · obtain ⟨h1, h2, h3, h4, _, _⟩ := ha.threads
    have hu : State.SchedulerInv
        { { u with flags := fl, fst := st, halted := hl, fault := ft, suspend := sp, answered := an } with pc := pc } :=
      hi.congr h1 h2 h3 h4
    exact hu.countInstruction
  · obtain ⟨h1, h2, h3, h4, _, _⟩ := ha.threads
    exact hi.congr h1 h2 h3 h4

theorem Performs.countInv {s t : State} (h : Performs s t) (hi : s.CountInv) : t.CountInv := by
  rcases h with ⟨u, st, ha, ⟨fl, hl, ft, sp, an, pc, _, rfl⟩, _⟩ | ⟨u, f, ha, rfl⟩
  · obtain ⟨h1, _, _, _, h5, h6⟩ := ha.threads
    have hu : State.CountInv
        { { u with flags := fl, fst := st, halted := hl, fault := ft, suspend := sp, answered := an } with pc := pc } :=
      hi.congr h1 h5 h6
    exact hu.countInstruction
  · obtain ⟨h1, _, _, _, h5, h6⟩ := ha.threads
    exact hi.congr h1 h5 h6

/-- Counting changes no saved context. -/
theorem State.countedThreads_ctx {s : State} {e : Nat × Thread} (h : e ∈ s.countedThreads) :
    ∃ e' ∈ s.threads, e'.2.ctx = e.2.ctx := by
  unfold State.countedThreads at h
  split at h
  · next id t hr ht =>
    rcases Assoc.mem_put h with rfl | h
    · refine ⟨(id, t), Assoc.mem_of_get ?_, rfl⟩
      simpa [State.runningThread, hr] using ht
    · exact ⟨e, h, rfl⟩
  · exact ⟨e, h, rfl⟩

theorem Performs.fpInv {s t : State} (h : Performs s t) (hi : s.FpInv) : t.FpInv := by
  rcases h with ⟨u, st, ha, ⟨fl, hl, ft, sp, an, pc, _, rfl⟩, hst⟩ | ⟨u, f, ha, rfl⟩
  · have hp := ha.params
    refine ⟨?_, fun e he => ?_⟩
    · simp only [State.complete_fst, State.complete_params, hp]
      exact hst hi.1
    · obtain ⟨e', he', hctx⟩ := State.countedThreads_ctx he
      have := hi.2 e' (by simpa only [ha.threads.1] using he')
      simp only [State.complete_params, hp]
      rwa [hctx] at this
  · refine ⟨?_, fun e he => ?_⟩
    · simp only [State.haltWith_params, ha.params]
      exact hi.1
    · simp only [State.haltWith_params, ha.params]
      exact hi.2 e (by simpa only [State.haltWith_threads, ha.threads.1] using he)

end Sys2Proof.Machine
end

