-- ==== Sys2Proof/Laws/PerInstr.lean ====
section
/-!
SUPPORT. Statements for all instructions, one lemma for each constructor.
-/

namespace Sys2Proof.Laws.OpcodeByte

open Sys2Proof

/-- The default OPCODE_MAP gives the instruction's operation an opcode byte, and that byte spells no
other operation (30_encoding.md R132). -/
def Statement (i : Instr) : Prop :=
  ∃ b, OpcodeMap.default.byteOf i.opcode = some b ∧ OpcodeMap.default.opcodeOf b = some i.opcode

theorem halt : Statement .halt :=
  ⟨0x00#8, rfl, rfl⟩

theorem nop : Statement .nop :=
  ⟨0x01#8, rfl, rfl⟩

theorem loadi (d : RegIdx) (imm : Half) : Statement (.loadi d imm) :=
  ⟨0x02#8, rfl, rfl⟩

theorem mov (d s : RegIdx) : Statement (.mov d s) :=
  ⟨0x03#8, rfl, rfl⟩

theorem load (d : RegIdx) (imm : Half) : Statement (.load d imm) :=
  ⟨0x04#8, rfl, rfl⟩

theorem store (d : RegIdx) (imm : Half) : Statement (.store d imm) :=
  ⟨0x05#8, rfl, rfl⟩

theorem loadb (d : RegIdx) (imm : Half) : Statement (.loadb d imm) :=
  ⟨0x06#8, rfl, rfl⟩

theorem storeb (d : RegIdx) (imm : Half) : Statement (.storeb d imm) :=
  ⟨0x07#8, rfl, rfl⟩

theorem ldr (d s : RegIdx) (imm : Half) : Statement (.ldr d s imm) :=
  ⟨0x08#8, rfl, rfl⟩

theorem str (d s : RegIdx) (imm : Half) : Statement (.str d s imm) :=
  ⟨0x09#8, rfl, rfl⟩

theorem ldrb (d s : RegIdx) (imm : Half) : Statement (.ldrb d s imm) :=
  ⟨0x0A#8, rfl, rfl⟩

theorem strb (d s : RegIdx) (imm : Half) : Statement (.strb d s imm) :=
  ⟨0x0B#8, rfl, rfl⟩

theorem add (d : RegIdx) (b : Src) : Statement (.add d b) :=
  ⟨0x10#8, rfl, rfl⟩

theorem sub (d : RegIdx) (b : Src) : Statement (.sub d b) :=
  ⟨0x11#8, rfl, rfl⟩

theorem adc (d : RegIdx) (b : Src) : Statement (.adc d b) :=
  ⟨0x12#8, rfl, rfl⟩

theorem sbc (d : RegIdx) (b : Src) : Statement (.sbc d b) :=
  ⟨0x13#8, rfl, rfl⟩

theorem mul (d : RegIdx) (b : Src) : Statement (.mul d b) :=
  ⟨0x14#8, rfl, rfl⟩

theorem div (d : RegIdx) (b : Src) : Statement (.div d b) :=
  ⟨0x15#8, rfl, rfl⟩

theorem mod (d : RegIdx) (b : Src) : Statement (.mod d b) :=
  ⟨0x16#8, rfl, rfl⟩

theorem cmp (d : RegIdx) (b : Src) : Statement (.cmp d b) :=
  ⟨0x17#8, rfl, rfl⟩

theorem and (d : RegIdx) (b : Src) : Statement (.and d b) :=
  ⟨0x18#8, rfl, rfl⟩

theorem or (d : RegIdx) (b : Src) : Statement (.or d b) :=
  ⟨0x19#8, rfl, rfl⟩

theorem xor (d : RegIdx) (b : Src) : Statement (.xor d b) :=
  ⟨0x1A#8, rfl, rfl⟩

theorem not (d : RegIdx) : Statement (.not d) :=
  ⟨0x1B#8, rfl, rfl⟩

theorem shl (d : RegIdx) (b : Src) : Statement (.shl d b) :=
  ⟨0x1C#8, rfl, rfl⟩

theorem shr (d : RegIdx) (b : Src) : Statement (.shr d b) :=
  ⟨0x1D#8, rfl, rfl⟩

theorem rol (d : RegIdx) (b : Src) : Statement (.rol d b) :=
  ⟨0x1E#8, rfl, rfl⟩

theorem ror (d : RegIdx) (b : Src) : Statement (.ror d b) :=
  ⟨0x1F#8, rfl, rfl⟩

theorem jmp (imm : Half) : Statement (.jmp imm) :=
  ⟨0x20#8, rfl, rfl⟩

theorem jz (imm : Half) : Statement (.jz imm) :=
  ⟨0x21#8, rfl, rfl⟩

theorem jnz (imm : Half) : Statement (.jnz imm) :=
  ⟨0x22#8, rfl, rfl⟩

theorem jn (imm : Half) : Statement (.jn imm) :=
  ⟨0x23#8, rfl, rfl⟩

theorem jnn (imm : Half) : Statement (.jnn imm) :=
  ⟨0x24#8, rfl, rfl⟩

theorem jc (imm : Half) : Statement (.jc imm) :=
  ⟨0x25#8, rfl, rfl⟩

theorem jnc (imm : Half) : Statement (.jnc imm) :=
  ⟨0x26#8, rfl, rfl⟩

theorem jo (imm : Half) : Statement (.jo imm) :=
  ⟨0x27#8, rfl, rfl⟩

theorem jno (imm : Half) : Statement (.jno imm) :=
  ⟨0x28#8, rfl, rfl⟩

theorem call (imm : Half) : Statement (.call imm) :=
  ⟨0x29#8, rfl, rfl⟩

theorem ret : Statement .ret :=
  ⟨0x2A#8, rfl, rfl⟩

theorem push (d : RegIdx) : Statement (.push d) :=
  ⟨0x30#8, rfl, rfl⟩

theorem pop (d : RegIdx) : Statement (.pop d) :=
  ⟨0x31#8, rfl, rfl⟩

theorem int (imm : Half) : Statement (.int imm) :=
  ⟨0x40#8, rfl, rfl⟩

theorem iret : Statement .iret :=
  ⟨0x41#8, rfl, rfl⟩

theorem syscall : Statement .syscall :=
  ⟨0x42#8, rfl, rfl⟩

theorem yield : Statement .yield :=
  ⟨0x43#8, rfl, rfl⟩

theorem fpush (d : RegIdx) : Statement (.fpush d) :=
  ⟨0x50#8, rfl, rfl⟩

theorem fpop (d : RegIdx) : Statement (.fpop d) :=
  ⟨0x51#8, rfl, rfl⟩

theorem fadd : Statement .fadd :=
  ⟨0x52#8, rfl, rfl⟩

theorem fsub : Statement .fsub :=
  ⟨0x53#8, rfl, rfl⟩

theorem fmul : Statement .fmul :=
  ⟨0x54#8, rfl, rfl⟩

theorem fdiv : Statement .fdiv :=
  ⟨0x55#8, rfl, rfl⟩

end Sys2Proof.Laws.OpcodeByte
end

