-- ==== Sys2Proof/Laws/Stack.lean ====
section
/-!
SUPPORT. What the integer stack's accesses leave (00_scope.md R14), and what a touched state still has of
the state before.
-/

namespace Sys2Proof.Machine

open Sys2Proof

/-- A touched state differs from the one before in memory and pages alone. -/
theorem State.Touched.eq {s u : State} {a : Word} (h : s.Touched a u) :
    u = { s with mem := u.mem, pageTable := u.pageTable, nextFreePPage := u.nextFreePPage } := by
  rcases h with rfl | ⟨p, h⟩
  · rfl
  · rcases State.translate_cases h with ⟨_, _, rfl⟩ | ⟨_, _, _, _, rfl⟩ | ⟨_, _, _, _, rfl⟩ <;> rfl

/-- So does the state in which an access reaches its bytes. -/
theorem State.Reaches.eq {s s1 : State} {a : Word} {w : Width} {k : AccessKind} {p : Nat}
    (h : s.Reaches a w k p s1) :
    s1 = { s with mem := s1.mem, pageTable := s1.pageTable, nextFreePPage := s1.nextFreePPage } :=
  State.Touched.eq (a := a) (.inr ⟨p, h.2.1⟩)

/-- A halt in a touched state changes nothing else. -/
theorem State.Touched.haltWith {s u : State} {a : Word} (h : s.Touched a u) (f : FaultRec) :
    u.haltWith s f = u.haltedBy f := by
  rw [h.eq]
  rfl

theorem State.store_regs {s t : State} {a : Word} {w : Width} {v : Word} {u : Unit}
    (h : s.store a w v = .ok u t) : t.regs = s.regs := by
  have e : t.outsideMemory.regs = s.outsideMemory.regs := by rw [State.store_outsideMemory h]
  exact e

theorem State.load_regs {s t : State} {a : Word} {w : Width} {k : AccessKind} {v : Word}
    (h : s.load a w k = .ok v t) : t.regs = s.regs := by
  have e : t.outsideMemory.regs = s.outsideMemory.regs := by rw [State.load_outsideMemory h]
  exact e

/-- Push32 moves R14 down by 4 and changes nothing else outside memory. -/
theorem State.push32_outside {s t : State} {v : Word} {u : Unit} (h : s.push32 v = .ok u t) :
    t.outsideMemory =
      { s.outsideMemory with regs := s.regsWith spIndex (s.readReg spIndex - 4#32) } := by
  obtain ⟨s1, h1, rfl⟩ := State.push32_ok h
  rw [← State.store_outsideMemory h1]
  simp only [State.regsWith, ← State.store_regs h1]
  rfl

/-- Pop32 moves R14 up by 4 and changes nothing else outside memory. -/
theorem State.pop32_outside {s t : State} {v : Word} (h : s.pop32 = .ok v t) :
    t.outsideMemory =
      { s.outsideMemory with regs := s.regsWith spIndex (s.readReg spIndex + 4#32) } := by
  obtain ⟨s1, h1, rfl⟩ := State.pop32_ok h
  rw [← State.load_outsideMemory h1]
  simp only [State.regsWith, ← State.load_regs h1]
  rfl

/-- Push32 where the word below R14 is plain memory. -/
theorem State.push32_of_plainWord {s : State} (v : Word)
    (h : s.PlainWord (s.readReg spIndex - 4#32) .store) :
    s.push32 v = .ok () ((s.writePlain (s.readReg spIndex - 4#32) (s.readReg spIndex - 4#32).toNat .word
      v).writeReg spIndex (s.readReg spIndex - 4#32)) := by
  simp only [State.push32, State.store_of_reaches v (State.reaches_of_plainWord h)]

/-- Pop32 where the word at R14 is plain memory. -/
theorem State.pop32_of_plainWord {s : State} (h : s.PlainWord (s.readReg spIndex) .load) :
    s.pop32 = .ok (memRead s.mem (s.readReg spIndex).toNat .word)
      ((s.cacheRead (s.readReg spIndex) (memRead s.mem (s.readReg spIndex).toNat .word)).writeReg spIndex
        (s.readReg spIndex + 4#32)) := by
  simp only [State.pop32, State.load_of_reaches (State.reaches_of_plainWord h)]

/-- Whether a word is plain depends on the regions, the registrations, the paging bit, the size and the
parameters alone. -/
theorem State.PlainWord.congr {s t : State} {a : Word} {k : AccessKind} (h : s.PlainWord a k)
    (h1 : t.regions = s.regions) (h2 : t.mmio = s.mmio) (h3 : t.pagingEnabled = s.pagingEnabled)
    (h4 : t.memSize = s.memSize) (h5 : t.params = s.params) : t.PlainWord a k := by
  have hn : t.neededBit k = s.neededBit k := by cases k <;> simp only [State.neededBit, h5]
  obtain ⟨⟨a1, a2, a3⟩, a4, a5⟩ := h
  refine ⟨⟨a1, ?_, ?_⟩, by rw [h3, a4], by rw [h4]; exact a5⟩
  · simpa only [State.permits, h1, hn] using a2
  · simpa only [State.mmioAt, h2] using a3

end Sys2Proof.Machine
end

