-- ==== Sys2Proof/Laws/Step.lean ====
section
/-!
SUPPORT. Everything a step of the machine can do, said once (30_encoding.md R140, R141, 44_system.md R291,
R293, 60_exceptions.md R447).
-/

namespace Sys2Proof.Machine

open Sys2Proof

/-- What the driver does in one step, with the condition under which it does it. -/
inductive DriverAct (s t : State) : Prop where
  /-- Under `run` the engine takes a step. -/
  | runEngine (hd : s.driver = .run) (hh : s.halted = false) (hs : s.suspend = .none)
      (ht : s.engineStep = .next t)
  /-- In the driver loop the running thread takes a step. -/
  | threadEngine (id : Nat) (hd : s.driver = .sched) (hr : s.running = some id) (hh : s.halted = false)
      (hs : s.suspend = .none) (hp : s.preemptsNow = false)
      (ht : s.engineStep = .next t)
  /-- The kernel responds to a SYSCALL, under `run` once. -/
  | kernel (q : SyscallRequest) (hd : s.driver = .sched ∨ (s.driver = .run ∧ s.answered = false))
      (hh : s.halted = false) (hs : s.suspend = .syscall q) (ht : t = s.kernelRespond)
  /-- `run` goes on after a yield or a quota stop. -/
  | resume (hd : s.driver = .run) (hh : s.halted = false) (hs : s.suspend = .yield ∨ s.suspend = .quota)
      (ht : t = { s with suspend := .none })
  /-- No thread runs: wake the due ones and dispatch. -/
  | dispatch (hd : s.driver = .sched) (hr : s.running = none)
      (hn : s.unblockDue.scheduleNext.1 ≠ none ∨ t.someBlocked = true)
      (ht : t = s.unblockDue.scheduleNext.2)
  /-- The running thread's engine has halted. -/
  | terminate (id : Nat) (hd : s.driver = .sched) (hr : s.running = some id) (hh : s.halted = true)
      (ht : t = s.terminate id)
  /-- A preemption is chosen. -/
  | preempt (id : Nat) (hd : s.driver = .sched) (hr : s.running = some id) (hh : s.halted = false)
      (hs : s.suspend = .none) (hp : s.preemptsNow = true) (ht : t = s.preempt)
  /-- The running thread yields, of its own will or preempted. -/
  | yield (id : Nat) (hd : s.driver = .sched) (hr : s.running = some id) (hh : s.halted = false)
      (hs : s.suspend = .yield ∨ s.suspend = .quota) (ht : t = s.yieldCurrent)

/-- Everything a step that answers a next state can have done. -/
theorem step_cases {s t : State} (h : step s = .next t) : DriverAct s t := by
  simp only [step, State.driverStep] at h
  split at h
  · cases h
  · next hd =>
    simp only [State.runStep] at h
    split at h
    · cases h
    · next hh =>
      have hh : s.halted = false := by simpa using hh
      split at h
      · next hs => exact .runEngine hd hh hs h
      · next q hs =>
        split at h
        · cases h
        · next ha => cases h; exact .kernel q (.inr ⟨hd, by simpa using ha⟩) hh hs rfl
      · next hs => cases h; exact .resume hd hh (.inl hs) rfl
      · next hs => cases h; exact .resume hd hh (.inr hs) rfl
  · next hd =>
    simp only [State.schedStep] at h
    split at h
    · next hr =>
      simp only [State.dispatchStep] at h
      split at h
      · next id u hu => cases h; exact .dispatch hd hr (.inl (by simp [hu])) (by rw [hu])
      · next u hu =>
        split at h
        · next hb => cases h; exact .dispatch hd hr (.inr hb) (by rw [hu])
        · cases h
    · next id hr =>
      simp only [State.threadStep] at h
      split at h
      · next hh => cases h; exact .terminate id hd hr hh rfl
      · next hh =>
        have hh : s.halted = false := by simpa using hh
        split at h
        · next hs =>
          split at h
          · next hp => cases h; exact .preempt id hd hr hh hs hp rfl
          · next hp => exact .threadEngine id hd hr hh hs (by simpa using hp) h
        · next q hs => cases h; exact .kernel q (.inl hd) hh hs rfl
        · next hs => cases h; exact .yield id hd hr hh (.inl hs) rfl
        · next hs => cases h; exact .yield id hd hr hh (.inr hs) rfl

end Sys2Proof.Machine
end

