-- ==== Sys2Proof/Tests/Slice0.lean ====
section
/-!
SUPPORT. Tests. Expected results are the vectors of 95_test_vectors.md, named in each comment, or a hand
calculation from the rule named there; then, for each statement with hypotheses, states and operands that
meet them, clause by clause.
-/

namespace Sys2Proof.Tests

open Sys2Proof Sys2Proof.Machine

/-! Well-formedness (30_encoding.md R126): a register operand of an RX instruction is not R15. -/

theorem test_wf_refuses_r15_as_rx_operand :
    ([.add 0 (.reg 15), .sub 0 (.reg 15), .adc 0 (.reg 15), .sbc 0 (.reg 15), .mul 0 (.reg 15), .div 0 (.reg 15), .mod 0 (.reg 15), .cmp 0 (.reg 15), .and 0 (.reg 15), .or 0 (.reg 15), .xor 0 (.reg 15), .shl 0 (.reg 15), .shr 0 (.reg 15), .rol 0 (.reg 15), .ror 0 (.reg 15)] : List Instr).all (fun i => !i.wf) = true := by decide

theorem test_wf_accepts_other_rx_operands :
    ([.add 15 (.reg 14), .sub 15 (.reg 14), .adc 15 (.reg 14), .sbc 15 (.reg 14), .mul 15 (.reg 14), .div 15 (.reg 14), .mod 15 (.reg 14), .cmp 15 (.reg 14), .and 15 (.reg 14), .or 15 (.reg 14), .xor 15 (.reg 14), .shl 15 (.reg 14), .shr 15 (.reg 14), .rol 15 (.reg 14), .ror 15 (.reg 14),
      .add 0 (.imm 0), .mov 1 15, .ldr 15 15 0] : List Instr).all Instr.wf = true := by decide

/-! Decoding: a word of every row of 30_encoding.md R132, written out from R121 and R124. -/

/-- The words decode, under the default numbering, to the instructions. -/
def spells (rows : List (Nat × Instr)) : Bool :=
  rows.all fun r => decodeTableWord 32 r.1 == some r.2

theorem test_decode_system_and_moves :
    spells [(0x00000000, .halt), (0x01000000, .nop), (0x02207FFF, .loadi 2 0x7FFF), (0x031F0000, .mov 1 15),
      (0x40000005, .int 5), (0x41000000, .iret), (0x42000000, .syscall), (0x43000000, .yield)] = true := by decide

theorem test_decode_loads_and_stores :
    spells [(0x04300800, .load 3 0x800), (0x05100804, .store 1 0x804), (0x06200801, .loadb 2 0x801), (0x07200802, .storeb 2 0x802),
      (0x08650004, .ldr 6 5 4), (0x09650008, .str 6 5 8), (0x0A050000, .ldrb 0 5 0), (0x0B050003, .strb 0 5 3),
      (0x30E00000, .push 14), (0x31400000, .pop 4)] = true := by decide

theorem test_decode_alu :
    spells [(0x10010000, .add 0 (.reg 1)), (0x111F0001, .sub 1 (.imm 1)), (0x12020000, .adc 0 (.reg 2)), (0x13020000, .sbc 0 (.reg 2)),
      (0x140F0003, .mul 0 (.imm 3)), (0x15010000, .div 0 (.reg 1)), (0x16010000, .mod 0 (.reg 1)), (0x170FFFFF, .cmp 0 (.imm 0xFFFF))] = true := by decide

theorem test_decode_logic_and_shifts :
    spells [(0x180F00FF, .and 0 (.imm 0xFF)), (0x190F8000, .or 0 (.imm 0x8000)), (0x1A000000, .xor 0 (.reg 0)), (0x1B000000, .not 0),
      (0x1C0F001F, .shl 0 (.imm 31)), (0x1D010000, .shr 0 (.reg 1)), (0x1E0F0001, .rol 0 (.imm 1)), (0x1F0F0001, .ror 0 (.imm 1))] = true := by decide

theorem test_decode_control_transfer :
    spells [(0x20000040, .jmp 0x40), (0x21000020, .jz 0x20), (0x22000008, .jnz 8), (0x23000100, .jn 0x100),
      (0x24000100, .jnn 0x100), (0x25000030, .jc 0x30), (0x26000030, .jnc 0x30), (0x27000200, .jo 0x200),
      (0x28000200, .jno 0x200), (0x29000020, .call 0x20), (0x2A000000, .ret)] = true := by decide

theorem test_decode_fp_stack :
    spells [(0x50100000, .fpush 1), (0x51200000, .fpop 2), (0x52000000, .fadd), (0x53000000, .fsub),
      (0x54000000, .fmul), (0x55000000, .fdiv)] = true := by decide

/-- E2, E3, E4: unused fields are ignored, and the sentinel is one of the RX form alone. -/
theorem test_decode_unused_fields_and_sentinel :
    spells [(0x00FFFFFF, .halt), (0x101F0000, .add 1 (.imm 0)), (0x031F0000, .mov 1 15)] = true := by decide

/-- E5, E6: bytes the numbering leaves unassigned. -/
theorem test_decode_unassigned :
    decodeWord OpcodeMap.default true 0x0C000000 = .error (.unassignedOpcode 0x0C)
    ∧ decodeWord OpcodeMap.default true 0xFF000000 = .error (.unassignedOpcode 0xFF) := ⟨rfl, rfl⟩

/-- E7: a `decided` operation where ADMIT_DECIDED is false. -/
theorem test_decode_not_admitted :
    decodeWord OpcodeMap.default false 0x14010000 = .error (.notAdmitted .mul) := rfl

/-- E8: bytes 05 00 00 02 are LOADI R0,5, and three bytes are no instruction. -/
theorem test_decode_bytes :
    decode OpcodeMap.default true [0x05, 0x00, 0x00, 0x02, 0xAA] = .ok (.loadi 0 5, [0xAA])
    ∧ decode OpcodeMap.default true [0x05, 0x00, 0x00] = .error .truncated := ⟨rfl, rfl⟩

/-- S3: the encoder's words. -/
theorem test_encode :
    encode OpcodeMap.default (.div 0 (.reg 1)) = some 0x15010000
    ∧ packFields 0xDE 0xA 0xD 0xBEEF = 0xDEADBEEF := by decide

/-! One instruction at a time: the word is placed at pc and the machine takes one step. -/

/-- A reset machine with these registers, flags and pc. -/
def start (regs : List (RegIdx × Word)) (flags : Word) (pc : Word) : State :=
  regs.foldl (fun s r => s.writeReg r.1 r.2) { State.reset with flags := flags, pc := pc }

/-- The machine with bytes in memory. -/
def holding (s : State) (a : Nat) (bytes : List Byte) : State :=
  s.host (.writeBytes a bytes)

/-- The machine with its parameters changed. -/
def under (s : State) (f : Params → Params) : State :=
  { s with params := f s.params }

/-- What `f` sees after one step that runs the word `w`. -/
def ran {α : Type} (s : State) (w : Nat) (f : State → α) : Option α :=
  match step (s.withFetchWord 32 w) with
  | .next t => some (f t)
  | _ => none

/-- What `f` sees after the meaning of one instruction. -/
def did {α : Type} (s : State) (i : Instr) (f : State → α) : Option α :=
  match exec i s with
  | .next t => some (f t)
  | _ => none

/-- Bytes of the store. -/
def bytesAt (s : State) (a n : Nat) : List Byte :=
  (List.range n).map fun k => s.byteAt (a + k)

/-- Register 0, the flag word and the pc. -/
def r0FlagsPc (s : State) : Word × Word × Word :=
  (s.readReg 0, s.flags, s.pc)

/-! Register data movement. -/

/-- M2. -/
theorem test_loadi_sign_extends :
    ran (start [] 0 0) 0x02208000 (fun t => (t.readReg 2, t.pc)) = some (0xFFFF8000, 4) := by decide

/-- M4. -/
theorem test_loadi_keeps_flags :
    ran (start [] 1 0) 0x02000005 r0FlagsPc = some (5, 1, 4) := by decide

/-- M5. -/
theorem test_mov_r15 :
    ran (start [(15, 9)] 0 0) 0x031F0000 (fun t => (t.readReg 1, t.readReg 15)) = some (9, 9) := by decide

/-! Loads, stores and the stack. -/

/-- L1. -/
theorem test_load :
    ran (holding (start [] 0 0) 0x800 [0x78, 0x56, 0x34, 0x12]) 0x04300800 (fun t => t.readReg 3) = some 0x12345678 := by decide

/-- L5. -/
theorem test_load_misaligned :
    ran (start [(3, 9)] 0 0x20) 0x04300802 (fun t => (t.fault, t.halted, t.readReg 3, t.pc))
      = some (some (.misalignedAccess 0x20 0x802 .load), true, 9, 0x20) := by decide

/-- L2. -/
theorem test_store :
    ran (start [(1, 0xCAFEBABE)] 0 0) 0x05100804 (fun t => bytesAt t 0x803 6) = some [0, 0xBE, 0xBA, 0xFE, 0xCA, 0] := by decide

/-- Region (0x800, 16, PERM_READ): S6 with a word. -/
theorem test_store_read_only :
    ran (({ start [(1, 0x55)] 0 0x10 with regions := [⟨0x800, 16, 1⟩] } : State)) 0x0510080C (fun t => (t.fault, bytesAt t 0x80C 1))
      = some (some (.protectionViolation 0x10 0x80C .store), [0]) := by decide

/-- L3. -/
theorem test_loadb_zero_extends :
    ran (holding (start [] 0 0) 0x801 [0x80]) 0x06200801 (fun t => t.readReg 2) = some 0x80 := by decide

/-- L7, in a store of 0x2000 bytes. -/
theorem test_loadb_last_byte :
    ran (holding ({ start [] 0 0 with memSize := 0x2000 } : State) 0x1FFF [0x7F]) 0x06301FFF (fun t => t.readReg 3) = some 0x7F := by decide

/-- L4. -/
theorem test_storeb :
    ran (start [(2, 0x12345678)] 0 0) 0x07200802 (fun t => bytesAt t 0x800 4) = some [0, 0, 0x78, 0] := by decide

/-- S6. -/
theorem test_storeb_read_only :
    ran (holding ({ start [(1, 0x55)] 0 0x10 with regions := [⟨0x800, 16, 1⟩] } : State) 0x800 [0xAA]) 0x07100800
      (fun t => (t.fault, t.halted, t.pc, bytesAt t 0x800 1))
      = some (some (.protectionViolation 0x10 0x800 .store), true, 0x10, [0xAA]) := by decide

/-- L8: the word of the instruction itself stands at 0 here. -/
theorem test_ldr_wraps :
    did (holding (start [(5, 0xFFFFFFFC)] 0 0x40) 0 [1, 2, 3, 4]) (.ldr 6 5 4) (fun t => t.readReg 6) = some 0x04030201 := by decide

/-- L9. -/
theorem test_ldr_base_is_destination :
    ran (holding (start [(5, 0x800)] 0 0) 0x800 [0x10, 0, 0, 0]) 0x08550000 (fun t => t.readReg 5) = some 0x10 := by decide

/-- L10. -/
theorem test_str :
    ran (start [(5, 0x800), (6, 7)] 0 0) 0x09650008 (fun t => bytesAt t 0x808 4) = some [7, 0, 0, 0] := by decide

/-- L11. -/
theorem test_ldrb :
    ran (holding (start [(5, 0x801)] 0 0) 0x801 [0x41]) 0x0A050000 (fun t => t.readReg 0) = some 0x41 := by decide

/-- L12. -/
theorem test_strb :
    ran (start [(5, 0x800), (0, 0x141)] 0 0) 0x0B050003 (fun t => bytesAt t 0x802 3) = some [0, 0x41, 0] := by decide

/-- L14. -/
theorem test_push_r14 :
    ran (start [(14, 0x1000)] 0 0) 0x30E00000 (fun t => (bytesAt t 0xFFC 4, t.readReg 14)) = some ([0, 0x10, 0, 0], 0xFFC) := by decide

/-- L16. -/
theorem test_push_from_reset :
    ran (start [] 0 0) 0x30100000 (fun t => (t.fault, t.readReg 14)) = some (some (.outOfRangeAccess 0 0xFFFFFFFC .store), 0) := by decide

/-- L15. -/
theorem test_pop_r14 :
    ran (holding (start [(14, 0xFFC)] 0 0) 0xFFC [0, 8, 0, 0]) 0x31E00000 (fun t => t.readReg 14) = some 0x800 := by decide

/-- L18, in a store of 0x2000 bytes. -/
theorem test_pop_out_of_range :
    ran ({ start [(14, 0x2000), (1, 3)] 0 0 with memSize := 0x2000 } : State) 0x31100000 (fun t => (t.fault, t.readReg 1, t.readReg 14))
      = some (some (.outOfRangeAccess 0 0x2000 .load), 3, 0x2000) := by decide

/-! Integer ALU. The flag word is Z + 2N + 4C + 8V. -/

/-- A1, with C and V set before: they stay. -/
theorem test_add_wraps :
    ran (start [(0, 0xFFFFFFFF), (1, 1)] 0xC 0) 0x10010000 r0FlagsPc = some (0, 0xD, 4) := by decide

/-- A3. -/
theorem test_add_sets_cv :
    ran (under (start [(0, 0x7FFFFFFF)] 0 0) fun p => { p with addSubSetCV := true }) 0x100F0001 r0FlagsPc = some (0x80000000, 0xA, 4) := by decide

/-- A6. -/
theorem test_sub_borrows :
    ran (start [(0, 0)] 0 0) 0x110F0001 r0FlagsPc = some (0xFFFFFFFF, 2, 4) := by decide

/-- A6 with ADD_SUB_SET_CV: the borrow out (42_integer_alu.md R201). -/
theorem test_sub_sets_cv :
    ran (under (start [(0, 0)] 0 0) fun p => { p with addSubSetCV := true }) 0x110F0001 r0FlagsPc = some (0xFFFFFFFF, 6, 4) := by decide

/-- A10. -/
theorem test_adc_carry_and_overflow :
    ran (start [(0, 0x80000000), (2, 0x80000000)] 0 0) 0x12020000 r0FlagsPc = some (0, 0xD, 4) := by decide

/-- A11. -/
theorem test_adc_carry_in :
    ran (start [(0, 0x80000000), (2, 0xFFFFFFFF)] 4 0) 0x12020000 r0FlagsPc = some (0x80000000, 6, 4) := by decide

/-- A12. -/
theorem test_sbc_borrow_in :
    ran (start [(0, 0), (2, 0)] 4 0) 0x13020000 r0FlagsPc = some (0xFFFFFFFF, 6, 4) := by decide

/-- A14. -/
theorem test_sbc_overflow :
    ran (start [(0, 0x7FFFFFFF), (2, 0xFFFFFFFF)] 0 0) 0x13020000 r0FlagsPc = some (0x80000000, 0xE, 4) := by decide

/-- A16. -/
theorem test_mul :
    ran (start [(0, 0x12345678), (1, 0x9ABCDEF0)] 0 0) 0x14010000 r0FlagsPc = some (0x242D2080, 0, 4) := by decide

/-- A17. -/
theorem test_mul_imm :
    ran (start [(0, 0xFFFFFFFE)] 0 0) 0x140F0003 r0FlagsPc = some (0xFFFFFFFA, 2, 4) := by decide

/-- A19, in the three modes. -/
theorem test_div_modes :
    [DivMode.unsigned, .signedTrunc, .signedFloor].map (fun m =>
      ran (under (start [(0, 0xFFFFFFF9), (1, 2)] 0 0) fun p => { p with divMode := m }) 0x15010000 r0FlagsPc)
      = [some (0x7FFFFFFC, 0, 4), some (0xFFFFFFFD, 2, 4), some (0xFFFFFFFC, 2, 4)] := by decide

/-- S5. -/
theorem test_div_by_zero :
    ran (start [(0, 1234), (1, 0)] 0 0) 0x15010000 r0FlagsPc = some (0, 9, 4) := by decide

/-- A24, in the three modes. -/
theorem test_mod_modes :
    [DivMode.unsigned, .signedTrunc, .signedFloor].map (fun m =>
      ran (under (start [(0, 7), (1, 0xFFFFFFFE)] 0 0) fun p => { p with divMode := m }) 0x16010000 (fun t => t.readReg 0))
      = [some 7, some 1, some 0xFFFFFFFF] := by decide

/-- A25, in the three modes. -/
theorem test_mod_least_by_minus_one :
    [DivMode.unsigned, .signedTrunc, .signedFloor].map (fun m =>
      ran (under (start [(0, 0x80000000), (1, 0xFFFFFFFF)] 0 0) fun p => { p with divMode := m }) 0x16010000 (fun t => t.readReg 0))
      = [some 0x80000000, some 0, some 0] := by decide

/-- A29. -/
theorem test_cmp_signed_less :
    ran (start [(0, 0x80000000)] 0 0) 0x170F0001 r0FlagsPc = some (0x80000000, 8, 4) := by decide

/-- A31. -/
theorem test_cmp_overflow_and_borrow :
    ran (start [(0, 0x7FFFFFFF), (1, 0x80000000)] 0 0) 0x17010000 r0FlagsPc = some (0x7FFFFFFF, 0xE, 4) := by decide

/-- A33. -/
theorem test_and_sign_extends :
    ran (start [(0, 0x1234FFFF)] 0 0) 0x180FFF00 r0FlagsPc = some (0x1234FF00, 0, 4) := by decide

/-- A34. -/
theorem test_or_sign_extends :
    ran (start [(0, 0)] 0 0) 0x190F8000 r0FlagsPc = some (0xFFFF8000, 2, 4) := by decide

/-- A35. -/
theorem test_xor_self :
    ran (start [(0, 0x5555)] 0 0) 0x1A000000 r0FlagsPc = some (0, 1, 4) := by decide

/-- A36. -/
theorem test_not :
    ran (start [(0, 0xFFFFFFFF)] 0 0) 0x1B000000 r0FlagsPc = some (0, 1, 4) := by decide

/-- A39. -/
theorem test_shl_amount_modulo_32 :
    ran (start [(0, 1)] 0 0) 0x1C0F0021 r0FlagsPc = some (2, 0, 4) := by decide

/-- A46. -/
theorem test_shl_by_zero_keeps_cv :
    ran (start [(0, 0x12345678)] 0xC 0) 0x1C0F0000 r0FlagsPc = some (0x12345678, 0xC, 4) := by decide

/-- A40. -/
theorem test_shr :
    ran (start [(0, 0x80000001), (1, 1)] 0 0) 0x1D010000 r0FlagsPc = some (0x40000000, 0, 4) := by decide

/-- A41. -/
theorem test_shr_amount_modulo_32 :
    ran (start [(0, 1)] 0 0) 0x1D0F0021 r0FlagsPc = some (0, 1, 4) := by decide

/-- A42. -/
theorem test_rol :
    ran (start [(0, 0x80000001)] 0 0) 0x1E0F0001 r0FlagsPc = some (3, 0, 4) := by decide

/-- A43. -/
theorem test_rol_amount_modulo_32 :
    ran (start [(0, 1)] 0 0) 0x1E0F0021 r0FlagsPc = some (2, 0, 4) := by decide

/-- A44. -/
theorem test_ror :
    ran (start [(0, 0x80000001)] 0 0) 0x1F0F0001 r0FlagsPc = some (0xC0000000, 2, 4) := by decide

/-- A45. -/
theorem test_ror_amount_modulo_32 :
    ran (start [(0, 1)] 0 0) 0x1F0F0021 r0FlagsPc = some (0x80000000, 2, 4) := by decide

/-- A5. -/
theorem test_imm_zext :
    ran (under (start [(0, 5)] 0 0) fun p => { p with immAluExt := .zext }) 0x100FFFFF r0FlagsPc = some (0x10004, 0, 4) := by decide

/-! Control transfer. -/

/-- J2: the target is not checked. -/
theorem test_jmp :
    ran (start [] 0 0x10) 0x20000042 (fun t => (t.pc, t.flags)) = some (0x42, 0) := by decide

/-- J3. -/
theorem test_jz_taken :
    ran (start [] 1 8) 0x21000020 (fun t => (t.pc, t.flags)) = some (0x20, 1) := by decide

/-- J4. -/
theorem test_jz_not_taken :
    ran (start [] 0 8) 0x21000020 (fun t => (t.pc, t.flags)) = some (0xC, 0) := by decide

/-- J5. -/
theorem test_jnz :
    ran (start [] 0 8) 0x22000020 (fun t => (t.pc, t.flags)) = some (0x20, 0) := by decide

/-- J6. -/
theorem test_jn :
    ran (start [] 2 8) 0x23000100 (fun t => (t.pc, t.flags)) = some (0x100, 2) := by decide

/-- J7. -/
theorem test_jnn :
    ran (start [] 2 8) 0x24000100 (fun t => (t.pc, t.flags)) = some (0xC, 2) := by decide

/-- J8. -/
theorem test_jc :
    ran (start [] 6 8) 0x25000030 (fun t => (t.pc, t.flags)) = some (0x30, 6) := by decide

/-- J9. -/
theorem test_jnc :
    ran (start [] 4 8) 0x26000030 (fun t => (t.pc, t.flags)) = some (0xC, 4) := by decide

/-- J10. -/
theorem test_jo :
    ran (start [] 9 8) 0x27000200 (fun t => (t.pc, t.flags)) = some (0x200, 9) := by decide

/-- J11. -/
theorem test_jno :
    ran (start [] 8 8) 0x28000200 (fun t => (t.pc, t.flags)) = some (0xC, 8) := by decide

/-- J12. -/
theorem test_call :
    ran (start [(14, 0x1000)] 0 0xC) 0x29000020 (fun t => (bytesAt t 0xFFC 4, t.readReg 14, t.pc)) = some ([0x10, 0, 0, 0], 0xFFC, 0x20) := by decide

/-- J13. -/
theorem test_call_misaligned_stack :
    ran (start [(14, 0x1001)] 0 0xC) 0x29000020 (fun t => (t.fault, t.readReg 14, t.pc, t.halted))
      = some (some (.misalignedAccess 0xC 0xFFD .store), 0x1001, 0xC, true) := by decide

/-- J14. -/
theorem test_ret :
    ran (holding (start [(14, 0xFFC)] 0 0) 0xFFC [0x10, 0, 0, 0]) 0x2A000000 (fun t => (t.pc, t.readReg 14)) = some (0x10, 0x1000) := by decide

/-! System instructions. -/

/-- Y1. -/
theorem test_halt :
    ran (start [] 0 0xC) 0x00000000 (fun t => (t.halted, t.pc, t.fault)) = some (true, 0xC, none) := by decide

/-- Y2. -/
theorem test_nop :
    ran (start [] 5 0) 0x01000000 r0FlagsPc = some (0, 5, 4) := by decide

/-- Y3. -/
theorem test_int_with_handler :
    ran ({ start [(14, 0x1000)] 0x13 4 with ivt := [(5, 0x40)] } : State) 0x40000005
      (fun t => (bytesAt t 0xFF8 8, t.readReg 14, t.flags, t.pc))
      = some ([0x13, 0, 0, 0, 8, 0, 0, 0], 0xFF8, 3, 0x40) := by decide

/-- Y7: nothing but memory may keep a trace. -/
theorem test_int_second_push_faults :
    ran ({ start [(14, 0x1FFC)] 0 4 with regions := [⟨0x1FF4, 4, 1⟩] } : State) 0x40000001
      (fun t => (t.fault, t.readReg 14, t.flags, t.pc, t.halted))
      = some (some (.protectionViolation 4 0x1FF4 .store), 0x1FFC, 0, 4, true) := by decide

/-- Y5. -/
theorem test_iret :
    ran (holding (start [(14, 0xFF8)] 0 0) 0xFF8 [0x0F, 0, 0, 0, 0x20, 0, 0, 0]) 0x41000000
      (fun t => (t.flags, t.pc, t.readReg 14)) = some (0x1F, 0x20, 0x1000) := by decide

/-- Y6. -/
theorem test_iret_restores_reserved_bits :
    ran (holding (start [(14, 0xFF8)] 0 0) 0xFF8 [0xE0, 0xFF, 0xFF, 0xFF, 0x20, 0, 0, 0]) 0x41000000
      (fun t => t.flags) = some 0xFFFFFFF0 := by decide

/-- Y8. -/
theorem test_syscall :
    ran (start [(0, 1), (1, 0x800), (2, 7), (3, 9)] 0 0x10) 0x42000000 (fun t => (t.pc, t.suspend))
      = some (0x14, .syscall ⟨1, 0x800, 7, 9⟩) := by decide

/-- Y9. -/
theorem test_yield :
    ran (start [] 0 0x20) 0x43000000 (fun t => (t.pc, t.suspend)) = some (0x24, .yield) := by decide

/-! The FP stack: 1.5 is 3 * 2^51 in units of 2^-52, 2.0 is 2^52 in units of 2^-51, and so on. -/

/-- The binary64 value num / 2^k. -/
def half (neg : Bool) (num k : Nat) : Fp :=
  fpRound neg num (2 ^ k) 0

/-- F1. -/
theorem test_fpush :
    ran ({ start [(1, 3), (2, 77)] 0 0 with fst := [] } : State) 0x50100000 (fun t => t.fst) = some [.fin false (3 * 2 ^ 51) (-51)] := by decide

/-- F3. -/
theorem test_fpush_full :
    ran ({ start [(1, 3), (2, 77)] 0 0 with fst := List.replicate 8 (fpZero false) } : State) 0x50100000 (fun t => (t.fault, t.fst.length)) = some (some (.stackOverflow 0), 8) := by decide

/-- F5: -2.9 is the binary64 number next to -29/10. -/
theorem test_fpop_truncates :
    ran ({ start [(1, 3), (2, 77)] 0 0 with fst := [fpRound true 29 10 0] } : State) 0x51200000 (fun t => (t.readReg 2, t.fst)) = some (0xFFFFFFFE, []) := by decide

/-- F7. -/
theorem test_fpop_nan :
    ran ({ start [(1, 3), (2, 77)] 0 0 with fst := [.nan] } : State) 0x51200000 (fun t => (t.fault, t.readReg 2, t.fst)) = some (some (.fpError 0), 77, [.nan]) := by decide

/-- F8. -/
theorem test_fadd :
    ran ({ start [(1, 3), (2, 77)] 0 0 with fst := [half false 2 0, half false 3 1] } : State) 0x52000000 (fun t => t.fst) = some [half false 7 1] := by decide

/-- F9. -/
theorem test_fadd_underflow :
    ran ({ start [(1, 3), (2, 77)] 0 0 with fst := [half false 2 0] } : State) 0x52000000 (fun t => (t.fault, t.fst)) = some (some (.stackUnderflow 0), [half false 2 0]) := by decide

/-- F10. -/
theorem test_fsub :
    ran ({ start [(1, 3), (2, 77)] 0 0 with fst := [half false 2 0, half false 5 0] } : State) 0x53000000 (fun t => t.fst) = some [half false 3 0] := by decide

/-- F11. -/
theorem test_fmul :
    ran ({ start [(1, 3), (2, 77)] 0 0 with fst := [half false 2 0, half false 3 1] } : State) 0x54000000 (fun t => t.fst) = some [half false 3 0] := by decide

/-- F12. -/
theorem test_fdiv :
    ran ({ start [(1, 3), (2, 77)] 0 0 with fst := [half false 2 0, half false 7 0] } : State) 0x55000000 (fun t => t.fst) = some [half false 7 1] := by decide

/-- F13. -/
theorem test_fdiv_by_zero :
    ran ({ start [(1, 3), (2, 77)] 0 0 with fst := [half false 0 0, half false 7 0] } : State) 0x55000000 (fun t => (t.fault, t.fst.length)) = some (some (.fpError 0), 2) := by decide

/-- 45_fp_stack.md R311: 2^53 + 1 is a tie that goes down to 2^53 and 2^53 + 3 one that goes up to 2^53 + 4. -/
theorem test_fp_ties_to_even :
    fpRound false (2 ^ 53 + 1) 1 0 = .fin false (2 ^ 52) 1 ∧ fpRound false (2 ^ 53 + 3) 1 0 = .fin false (2 ^ 52 + 2) 1 := by decide

/-- The least power beyond the format, and the least subnormal number. -/
theorem test_fp_overflow_and_subnormal :
    fpRound true 1 1 1024 = .inf true ∧ fpRound false 1 1 (-1074) = .fin false 1 (-1074) := by decide

/-! The memory subsystem. -/

/-- X10. -/
theorem test_fetch_misaligned :
    (match ({ start [] 0 2 with driver := .run } : State).engineStep with
      | .next t => (t.fault, t.halted)
      | _ => (none, false)) = (some (.misalignedAccess 2 2 .fetch), true) := by decide

/-- X11. -/
theorem test_unassigned_opcode_halts :
    ran (start [] 0 0x10) 0xFF000000 (fun t => (t.fault, t.pc)) = some (some (.unimplementedOpcode 0x10 0xFF000000), 0x10) := by decide

/-- The state of T1: paging on over four pages of 0x1000 bytes, pages from 2 free. -/
def paged : State :=
  { start [(1, 0xAABBCCDD)] 0 0 with memSize := 0x4000, pagingEnabled := true, nextFreePPage := 2 }

/-- T1. -/
theorem test_page_allocated :
    did paged (.store 1 0x5004) (fun t => (t.pageTable, t.nextFreePPage, bytesAt t 0x2004 4)) = some ([(5, 2)], 3, [0xDD, 0xCC, 0xBB, 0xAA]) := by decide

/-- T4. -/
theorem test_page_not_to_be_had :
    did { paged with nextFreePPage := 4 } (.loadb 2 0x9000) (fun t => (t.fault, t.pageTable)) = some (some (.outOfMemory 0 0x9000 .load), []) := by decide

/-- Two overlapping MMIO registrations, the first the winner (V10). -/
def devices : State :=
  { start [(1, 0x5A), (5, 0x10080)] 0 0 with mmio := [⟨0x10000, 0x100, 1⟩, ⟨0x10080, 0x100, 2⟩] }

/-- V10. -/
theorem test_mmio_earliest_wins :
    did devices (.strb 1 5 0) (fun t => t.deviceLog) = some [⟨1, 0x80, .byte, some 0x5A⟩] := by decide

/-- V8, with LDR: no fault, and the cache is not touched. -/
theorem test_mmio_needs_no_memory :
    did devices (.ldr 1 5 4) (fun t => (t.fault, t.cache, t.deviceLog)) = some (none, [], [⟨1, 0x84, .word, none⟩]) := by decide

/-- V4, V5, V6. -/
theorem test_protection_covers_every_byte :
    (({ start [] 0 0 with regions := [⟨0x802, 1, 0⟩] } : State).permits 0x800 .word .load = false)
    ∧ (({ start [] 0 0 with regions := [⟨0x800, 16, 3⟩, ⟨0x808, 8, 1⟩] } : State).permits 0x808 .word .store = false)
    ∧ (({ start [] 0 0 with regions := [⟨0x800, 16, 0⟩] } : State).accessFault 0x801 .word .load = some (.misalignedAccess 0 0x801 .load)) := by decide

/-- K1 to K3: the cache after a miss, after a hit, and after a write that removes the entry. -/
def afterMiss : State := (start [] 0 0).cacheRead 0x800 0
@[inherit_doc afterMiss] def afterHit : State := afterMiss.cacheRead 0x800 0
@[inherit_doc afterMiss] def afterWrite : State := afterHit.writePlain 0x800 0x800 .word 9

/-- K1 to K4. -/
theorem test_cache_counts :
    (afterMiss.cacheMisses, afterMiss.cache, afterHit.cacheHits) = (1, [(0x800, 0)], 1)
    ∧ (afterWrite.cache, (afterWrite.cacheRead 0x800 9).cacheMisses) = ([], 2)
    ∧ ((afterWrite.cacheRead 0x800 9).writePlain 0x804 0x804 .word 1).cache = [(0x800, 9)] := by decide

/-- X1, X2, X3. -/
theorem test_expand :
    expandedSize 0x1000 0x1001 = 0x2000 ∧ expandedSize 0x1000 0x5000 = 0x8000 ∧ expandedSize 0x1000 0x100 = 0x1000 := by decide

/-- S1. -/
theorem test_host_register_out_of_range :
    ((start [] 0 0).hostWriteReg 7 0x100000005).toOption.map (fun t => t.readReg 7) = some 5
    ∧ ((start [] 0 0).hostWriteReg 16 1).toOption = none := by decide

/-! The scheduler. -/

/-- The state of X13: two threads, created in this order. -/
def twoThreads : State :=
  (State.reset.createThread 0x100 3).createThread 0x200 1

/-- X13, X14. -/
theorem test_create_and_dispatch :
    (twoThreads.readyQueue, twoThreads.scheduleNext.1, twoThreads.scheduleNext.2.pc, twoThreads.scheduleNext.2.readyQueue)
      = ([0, 1], some 0, 0x100, [1]) := rfl

/-- X15. -/
theorem test_terminated_is_skipped :
    ({ twoThreads.terminate 1 with readyQueue := [1, 0] } : State).scheduleNext.1 = some 0 := rfl

/-- 60_exceptions.md R443. -/
theorem test_yield_goes_to_the_tail :
    twoThreads.scheduleNext.2.yieldCurrent.readyQueue = [1, 0] := rfl
/-! Witnesses: for each statement with hypotheses, a state and operands that meet them, clause by clause. -/

/-- Plain memory everywhere: paging off, no region, no device; R14 and R5 in range. -/
def plain : State :=
  { start [(14, 0x1000), (1, 7), (5, 0x800)] 0 0 with driver := .run }

theorem plain_admits (a : Word) (w : Width) (k : AccessKind) (h : misaligned a w = false) :
    plain.Admits a w k :=
  ⟨h, by simp [State.permits, plain, start, State.reset, State.resetWith, State.writeReg], rfl⟩

theorem plain_reaches (a : Word) (w : Width) (k : AccessKind) (h : misaligned a w = false)
    (hs : a.toNat + w.bytes ≤ 65536) : plain.Reaches a w k a.toNat plain :=
  ⟨plain_admits a w k h, rfl, hs⟩

theorem plain_word (a : Word) (k : AccessKind) (h : misaligned a .word = false)
    (hs : a.toNat + 4 ≤ 65536) : plain.PlainWord a k :=
  ⟨plain_admits a .word k h, rfl, hs⟩

/-- A region that forbids everything from 0x800 to 0x1000. -/
def guarded : State :=
  { plain with regions := [⟨0x800, 0x800, 0⟩] }

/-- A device over the same range. -/
def device : State :=
  { plain with mmio := [⟨0x800, 0x800, 1⟩] }

theorem device_reaches (a : Word) (w : Width) (k : AccessKind) (h : misaligned a w = false)
    (hr : device.mmioAt a = some ⟨0x800, 0x800, 1⟩) : device.ReachesDevice a w k ⟨0x800, 0x800, 1⟩ :=
  ⟨h, by simp [State.permits, device, plain, start, State.reset, State.resetWith, State.writeReg], hr⟩

theorem test_witness_DecodeEncodeEveryInstruction :
    OpcodeMap.default.Unambiguous ∧ (Instr.add 15 (.reg 14)).wf = true
    ∧ encode OpcodeMap.default (.add 15 (.reg 14)) = some 0x10FE0000 := by decide

theorem test_witness_OpcodeTableDecodes :
    (OpcodeMap.default.map Prod.fst).all (fun b => opField (packFields b 15 15 0xFFFF) == b) = true
    ∧ (OpcodeMap.default.map Prod.fst).length = 51 := by decide

theorem test_witness_UnusedFieldsAreIgnored :
    opField 0x1012FFFF = opField 0x10120000
    ∧ ∀ op, OpcodeMap.default.opcodeOf (opField 0x1012FFFF) = some op →
      (formOf op).agree 0x1012FFFF 0x10120000 := by
  refine ⟨by decide, fun op h => ?_⟩
  obtain rfl : Opcode.add = op := Option.some.inj h
  exact ⟨rfl, rfl, fun h => absurd h (by decide)⟩

theorem test_witness_SentinelSelectsTheImmediate :
    formOf .ror = .rx ∧ formOf .mov = .rr ∧ formOf .strb = .rb := ⟨rfl, rfl, rfl⟩

theorem test_witness_IllegalOpcodeIsAHardStop :
    plain.Reaches plain.pc .word .fetch 0 plain ∧
    (holding plain 0 [0, 0, 0, 0xFF]).Reaches 0 .word .fetch 0 (holding plain 0 [0, 0, 0, 0xFF])
    ∧ decodeWord OpcodeMap.default true ((holding plain 0 [0, 0, 0, 0xFF]).valueAt 0 .word)
      = .error (.unassignedOpcode 0xFF)
    ∧ (holding plain 0 [0, 0, 0, 0xFF]).pagingEnabled = false :=
  ⟨plain_reaches 0 .word .fetch rfl (by decide), ⟨⟨rfl, rfl, rfl⟩, rfl, by decide⟩, rfl, rfl⟩

theorem test_witness_InstructionWordsAreLittleEndian :
    plain.Reaches plain.pc .word .fetch 0 plain := plain_reaches 0 .word .fetch rfl (by decide)

theorem test_witness_StepRunsTheDecodedInstruction_run :
    plain.driver = .run ∧ plain.halted = false ∧ plain.suspend = .none
    ∧ plain.Reaches plain.pc .word .fetch 0 plain
    ∧ decodeWord plain.params.opcodeMap plain.params.admitDecided (memRead plain.mem 0 .word) = .ok .halt :=
  ⟨rfl, rfl, rfl, plain_reaches 0 .word .fetch rfl (by decide), rfl⟩

/-- A thread dispatched under the driver loop, at the start of its slice. -/
def dispatched : State :=
  { (plain.createThread 0 0).scheduleNext.2 with driver := .sched }

theorem test_witness_StepRunsTheDecodedInstruction_sched :
    dispatched.driver = .sched ∧ dispatched.running = some 0 ∧ dispatched.halted = false
    ∧ dispatched.suspend = .none ∧ dispatched.preemptsNow = false
    ∧ dispatched.Reaches dispatched.pc .word .fetch 0 dispatched
    ∧ decodeWord dispatched.params.opcodeMap dispatched.params.admitDecided
      (memRead dispatched.mem 0 .word) = .ok .halt :=
  ⟨rfl, rfl, rfl, rfl, rfl, ⟨⟨rfl, rfl, rfl⟩, rfl, by decide⟩, rfl⟩

/-- A fault that is no out-of-range access, and an out-of-range access whose translation takes no page. -/
theorem test_witness_FetchFaultForcesACleanHalt :
    (start [] 0 2).accessFault 2 .word .fetch = some (.misalignedAccess 2 2 .fetch)
    ∧ (∀ a k, FaultRec.misalignedAccess 2 2 .fetch ≠ .outOfRangeAccess 2 a k)
    ∧ (start [] 0 0x10000).accessFault 0x10000 .word .fetch = some (.outOfRangeAccess 0x10000 0x10000 .fetch)
    ∧ ∀ p u, (start [] 0 0x10000).translate 0x10000 = some (p, u) → u = start [] 0 0x10000 :=
  ⟨by decide, fun _ _ h => (nomatch h), by decide, fun _ _ h => (Prod.mk.inj (Option.some.inj h)).2.symm⟩

theorem test_witness_RunRepeatsStep :
    { plain with halted := true }.halted = true ∧ { plain with suspend := .yield }.suspend ≠ .none
    ∧ plain.halted = false ∧ plain.suspend = .none ∧ (∃ t, plain.engineStep = .next t)
    ∧ State.run 0 plain = .next (.budget, plain) :=
  ⟨rfl, by decide, rfl, rfl, ⟨_, rfl⟩, rfl⟩

/-- The kernel's response took the engine's thread away: `run` has nothing to step (30_encoding.md R141, I28). -/
theorem test_run_stuck_when_response_took_the_thread :
    step { plain with suspend := .syscall ⟨1, 2, 3, 4⟩, answered := true } = .fault .engineSuspended := rfl

theorem test_witness_DriverLoopAct :
    State.reset.driver = .off
    ∧ ({ plain with halted := true }.driver = .run ∧ { plain with halted := true }.halted = true)
    ∧ (plain.halted = false ∧ { plain with suspend := .quota }.suspend = .quota)
    ∧ ({ plain with suspend := .syscall ⟨1, 2, 3, 4⟩ }.suspend = .syscall ⟨1, 2, 3, 4⟩ ∧ plain.answered = false)
    ∧ (dispatched.driver = .sched ∧ dispatched.running = some 0)
    ∧ { dispatched with running := none }.running = none :=
  ⟨rfl, ⟨rfl, rfl⟩, ⟨rfl, rfl⟩, ⟨rfl, rfl⟩, ⟨rfl, rfl⟩, rfl⟩

theorem test_witness_ShiftAndRotateResults : 0 < 1 ∧ 1 < 32 ∧ 0 < 31 ∧ 31 < 32 := by decide

theorem test_witness_AddThenSubRestores :
    Src.reg 1 ≠ .reg 0 ∧ Src.imm 0 ≠ .reg 0 := by decide

theorem test_witness_LoadsFollowTheirRules_forms :
    loadForm plain (.load 1 0x800) = some (1, 0x800, .word)
    ∧ loadForm plain (.loadb 1 0x800) = some (1, 0x800, .byte)
    ∧ loadForm plain (.ldr 1 5 0) = some (1, 0x800, .word)
    ∧ loadForm plain (.ldrb 1 5 1) = some (1, 0x801, .byte) := by decide

theorem test_witness_LoadsFollowTheirRules_clauses :
    guarded.accessFault 0x800 .word .load = some (.protectionViolation 0 0x800 .load)
    ∧ plain.accessFault 0x801 .word .load = some (.misalignedAccess 0 0x801 .load)
    ∧ plain.Reaches 0xFFFC .word .load 0xFFFC plain ∧ plain.Reaches 0xFFFF .byte .load 0xFFFF plain
    ∧ device.ReachesDevice 0x800 .word .load ⟨0x800, 0x800, 1⟩ :=
  ⟨by decide, by decide, plain_reaches 0xFFFC .word .load rfl (by decide),
    plain_reaches 0xFFFF .byte .load rfl (by decide), device_reaches 0x800 .word .load rfl (by decide)⟩

theorem test_witness_StoresFollowTheirRules_forms :
    storeForm plain (.store 1 0x800) = some (1, 0x800, .word)
    ∧ storeForm plain (.storeb 1 0x800) = some (1, 0x800, .byte)
    ∧ storeForm plain (.str 1 5 0) = some (1, 0x800, .word)
    ∧ storeForm plain (.strb 1 5 1) = some (1, 0x801, .byte) := by decide

theorem test_witness_StoresFollowTheirRules_clauses :
    guarded.accessFault 0xFFF .byte .store = some (.protectionViolation 0 0xFFF .store)
    ∧ plain.accessFault 0x10000 .word .store = some (.outOfRangeAccess 0 0x10000 .store)
    ∧ plain.Reaches 0xFFFC .word .store 0xFFFC plain ∧ plain.Reaches 0xFFFF .byte .store 0xFFFF plain
    ∧ device.ReachesDevice 0xFFF .byte .store ⟨0x800, 0x800, 1⟩ :=
  ⟨by decide, by decide, plain_reaches 0xFFFC .word .store rfl (by decide),
    plain_reaches 0xFFFF .byte .store rfl (by decide), device_reaches 0xFFF .byte .store rfl (by decide)⟩

theorem test_witness_AccessFaultsInOrder :
    (∃ u, plain.load 0x801 .word .load = .trap (.misalignedAccess 0 0x801 .load) u)
    ∧ ∃ u, plain.store 0x10000 .word 0 = .trap (.outOfRangeAccess 0 0x10000 .store) u :=
  ⟨⟨_, rfl⟩, ⟨_, rfl⟩⟩

theorem test_witness_ReadOnlyRegionKeepsItsBytes :
    firstAccess guarded (.push 1) = some (.store, 0xFFC, .word) ∧ (0xFFC#32).toNat % 4 = 0
    ∧ (⟨0x800, 0x800, 0⟩ : Region) ∈ guarded.regions ∧ 3 < Width.bytes .word
    ∧ 0x800 ≤ (0xFFC#32).toNat + 3 ∧ (0xFFC#32).toNat + 3 < 0x800 + 0x800
    ∧ Nat.testBit 0 guarded.params.permWrite = false := by decide

theorem test_witness_TranslationRule :
    plain.pagingEnabled = false ∧ paged.pagingEnabled = true
    ∧ Assoc.get { paged with pageTable := [(5, 2)] }.pageTable (0x5FFC / paged.params.pageSize) = some 2
    ∧ Assoc.get paged.pageTable 5 = none
    ∧ { paged with nextFreePPage := 4 }.memSize < (4 + 1) * paged.params.pageSize
    ∧ (3 + 1) * paged.params.pageSize ≤ { paged with nextFreePPage := 3 }.memSize := by decide

theorem test_witness_TranslationRule_admits :
    { paged with nextFreePPage := 4 }.Admits 0x5000 .word .fetch
    ∧ { paged with nextFreePPage := 4 }.Admits 0x5000 .word .store := ⟨⟨rfl, rfl, rfl⟩, ⟨rfl, rfl, rfl⟩⟩

theorem test_witness_DataWordsAreLittleEndian : (3 : Nat) < 4 ∧ (8 : Nat) + 4 ≤ 12 ∧ (7 : Nat) < 8 := by
  decide

theorem test_witness_LoadReturnsTheLastStore :
    (∀ g ∈ { plain with regions := [⟨0, 16, 3⟩] }.regions, g.perm.testBit plain.params.permRead = true)
    ∧ plain.Reaches (BitVec.setWidth 32 (0xFFFC : Half)) .word .store 0xFFFC plain
    ∧ plain.Reaches (BitVec.setWidth 32 (0xFFFF : Half)) .byte .store 0xFFFF plain :=
  ⟨by decide, plain_reaches 0xFFFC .word .store rfl (by decide),
    plain_reaches 0xFFFF .byte .store rfl (by decide)⟩

/-- A cache of sixteen entries, as many as it may hold. -/
def cached : State :=
  { plain with cache := (List.range 16).map fun k => (4 * k, 0) }

theorem test_witness_CacheBookkeeping :
    Assoc.get cached.cache (60#32).toNat = some 0
    ∧ (Assoc.get plain.cache 64 = none ∧ plain.cache.length < plain.params.cacheCapacity)
    ∧ (Assoc.Rising cached.cache ∧ Assoc.get cached.cache (64#32).toNat = none
      ∧ cached.params.cacheCapacity ≤ cached.cache.length ∧ 0 < cached.cache.length) := by decide

theorem test_witness_CacheNeverChangesAResult :
    cached = { plain with cache := cached.cache, cacheHits := cached.cacheHits, cacheMisses := cached.cacheMisses }
    ∧ (∃ v t, plain.load 60 .word .load = .ok v t)
    ∧ (∃ f t, plain.load 61 .word .load = .trap f t)
    ∧ (∃ v t, plain.store 60 .word 5 = .ok v t) ∧ ∃ f t, plain.store 61 .word 5 = .trap f t :=
  ⟨rfl, ⟨_, _, rfl⟩, ⟨_, _, rfl⟩, ⟨_, _, rfl⟩, ⟨_, _, rfl⟩⟩

theorem test_witness_MmioDispatch :
    device.ReachesDevice 0x800 .word .fetch ⟨0x800, 0x800, 1⟩
    ∧ device.ReachesDevice 0xFFC .word .store ⟨0x800, 0x800, 1⟩ ∧ device.mmioAt 0x1000 = none :=
  ⟨device_reaches 0x800 .word .fetch rfl (by decide), device_reaches 0xFFC .word .store rfl (by decide),
    by decide⟩

theorem test_witness_PushAndPopFollowTheirRules :
    plain.readReg 14#4 - 4#32 = 0xFFC
    ∧ guarded.accessFault 0xFFC .word .store = some (.protectionViolation 0 0xFFC .store)
    ∧ plain.Reaches 0xFFC .word .store 0xFFC plain ∧ device.ReachesDevice 0xFFC .word .store ⟨0x800, 0x800, 1⟩
    ∧ { guarded with regions := [⟨0x1003, 1, 0⟩] }.accessFault 0x1000 .word .load
      = some (.protectionViolation 0 0x1000 .load)
    ∧ plain.Reaches 0x1000 .word .load 0x1000 plain
    ∧ { device with mmio := [⟨0x1000, 1, 1⟩] }.ReachesDevice 0x1000 .word .load ⟨0x1000, 1, 1⟩ :=
  ⟨by decide, by decide, plain_reaches 0xFFC .word .store rfl (by decide),
    device_reaches 0xFFC .word .store rfl (by decide), by decide,
    plain_reaches 0x1000 .word .load rfl (by decide), ⟨by decide, by decide, by decide⟩⟩

theorem test_witness_PushesThenPopsReverse :
    [14#4, 1#4].length = [2#4, 3#4].length ∧ [2#4, 3#4].Nodup ∧ 14#4 ∉ [2#4, 3#4]
    ∧ [14#4, 1#4].length ≤ 2 ^ 30
    ∧ (∀ k, k < 2 → plain.PlainWord (plain.readReg 14#4 - BitVec.ofNat 32 (4 * (k + 1))) .store
      ∧ plain.PlainWord (plain.readReg 14#4 - BitVec.ofNat 32 (4 * (k + 1))) .load) := by
  refine ⟨rfl, by decide, by decide, by decide, fun k hk => ?_⟩
  obtain rfl | rfl : k = 0 ∨ k = 1 := by omega
  · exact ⟨plain_word 0xFFC .store rfl (by decide), plain_word 0xFFC .load rfl (by decide)⟩
  · exact ⟨plain_word 0xFF8 .store rfl (by decide), plain_word 0xFF8 .load rfl (by decide)⟩

/-- CALL and RET meet the clauses of the push and the pop above. -/
theorem test_witness_CallAndRetFollowTheirRules :
    plain.readReg 14#4 = 0x1000
    ∧ guarded.accessFault (guarded.readReg 14#4 - 4#32) .word .store = some (.protectionViolation 0 0xFFC .store)
    ∧ device.mmioAt (device.readReg 14#4 - 4#32) = some ⟨0x800, 0x800, 1⟩ := by decide

theorem test_witness_IntFollowsItsRule :
    guarded.accessFault (guarded.readReg 14#4 - 4#32) .word .store = some (.protectionViolation 0 0xFFC .store)
    ∧ (∃ s1, { plain with regions := [⟨0xFF8, 4, 0⟩] }.push32 4 = .ok () s1
      ∧ s1.accessFault 0xFF8 .word .store = some (.protectionViolation 0 0xFF8 .store))
    ∧ (∃ s1 s2, plain.push32 4 = .ok () s1 ∧ s1.push32 plain.flags = .ok () s2)
    ∧ plain.PlainWord (plain.readReg 14#4 - 4#32) .store ∧ plain.PlainWord (plain.readReg 14#4 - 8#32) .store :=
  ⟨by decide, ⟨_, rfl, rfl⟩, ⟨_, _, rfl, rfl⟩, plain_word 0xFFC .store rfl (by decide),
    plain_word 0xFF8 .store rfl (by decide)⟩

theorem test_witness_IretFollowsItsRule :
    { plain with regions := [⟨0x1000, 4, 0⟩] }.accessFault 0x1000 .word .load
      = some (.protectionViolation 0 0x1000 .load)
    ∧ (∃ fl s1, { plain with regions := [⟨0x1004, 4, 0⟩] }.pop32 = .ok fl s1
      ∧ s1.accessFault 0x1004 .word .load = some (.protectionViolation 0 0x1004 .load))
    ∧ (∃ fl s1 pc s2, plain.pop32 = .ok fl s1 ∧ s1.pop32 = .ok pc s2)
    ∧ plain.PlainWord (plain.readReg 14#4) .load ∧ plain.PlainWord (plain.readReg 14#4 + 4#32) .load :=
  ⟨by decide, ⟨_, _, rfl, rfl⟩, ⟨_, _, _, _, rfl, rfl⟩, plain_word 0x1000 .load rfl (by decide),
    plain_word 0x1004 .load rfl (by decide)⟩

/-- A handler that has changed another register meets the premises beside INT's own state. -/
theorem test_witness_IretReturnsFromInt :
    plain.PlainWord (plain.readReg 14#4 - 4#32) .store ∧ plain.PlainWord (plain.readReg 14#4 - 8#32) .store
    ∧ plain.PlainWord (plain.readReg 14#4 - 4#32) .load ∧ plain.PlainWord (plain.readReg 14#4 - 8#32) .load
    ∧ ∃ t, exec (.int 0) plain = .next t ∧ (t.writeReg 0 9).mem = t.mem
      ∧ (t.writeReg 0 9).readReg 14#4 = t.readReg 14#4 :=
  ⟨plain_word 0xFFC .store rfl (by decide), plain_word 0xFF8 .store rfl (by decide),
    plain_word 0xFFC .load rfl (by decide), plain_word 0xFF8 .load rfl (by decide), ⟨_, rfl, rfl, rfl⟩⟩

theorem test_witness_FpushAndFpopResults :
    plain.fst = [] ∧ { plain with fst := [.nan] }.fst = [.nan] ∧ fpToInt .binary64 .nan = none
    ∧ fpToInt .binary64 (half true 5 1) = some 0xFFFFFFFE := by decide

theorem test_witness_FpArithmeticResults :
    plain.fst.length < 2 ∧ { plain with fst := [fpZero false, .nan] }.fst = [fpZero false, .nan]
    ∧ fpDiv .binary64 .nan (fpZero false) = none
    ∧ fpDiv .binary64 (half false 7 0) (half false 2 0) = some (half false 7 1) := by decide

theorem test_witness_IntegerCrossesTheFpStack :
    plain.params.fpCfg = .binary64 ∧ { plain with fst := List.replicate 7 .nan }.fst.length < 8 := by decide

/-- A tie, a NaN quotient and a zero divisor, the tie a quarter unit below a power of two and an exact value
further below it, the greatest finite number, and the midpoint above it, which is infinite. -/
theorem test_witness_FpRoundsToNearestEven :
    fpRound false (2 ^ 54 + 1) 2 1 = .fin false (2 ^ 52) 2
    ∧ fpDiv .binary64 .nan (fpZero true) = none ∧ fpDiv .binary64 .nan (half false 1 0) = some .nan
    ∧ fpRound false (2 ^ 54 - 1) 4 0 = .fin false (2 ^ 52) 0
    ∧ fpRound false (2 ^ 55 - 3) 8 0 = .fin false (2 ^ 53 - 1) (-1)
    ∧ fpRound false (2 ^ 53 - 1) 1 971 = .fin false (2 ^ 53 - 1) 971
    ∧ fpRound false (2 ^ 54 - 1) 1 970 = .inf false := by decide

theorem test_witness_FaultCommitsNothing :
    plain.fault = none ∧ ∃ t, { plain with pc := 2 }.engineStep = .next t ∧
      t.fault = some (.misalignedAccess 2 2 .fetch) :=
  ⟨rfl, _, rfl, rfl⟩

theorem test_witness_OnlyTheHostWritesControlState : ∃ t, plain.engineStep = .next t := ⟨_, rfl⟩

/-- One witness for each clause: a completed NOP, INT, CMP, ADD and DIV. -/
theorem test_witness_FlagBitsWritten :
    (∃ t, exec .nop plain = .next t) ∧ (∃ t, exec (.int 0) plain = .next t) ∧ (∃ t, exec (.cmp 0 (.reg 1)) plain = .next t)
    ∧ (∃ t, exec (.add 0 (.reg 1)) plain = .next t) ∧ (∃ t, exec (.div 0 (.reg 1)) plain = .next t)
    ∧ plain.params.addSubSetCV = false ∧ Opcode.nop ∉ [Opcode.adc, .sbc, .cmp]
    ∧ formOf .nop ≠ .rx ∧ (31 : Nat) < 32 :=
  ⟨⟨_, rfl⟩, ⟨_, rfl⟩, ⟨_, rfl⟩, ⟨_, rfl⟩, ⟨_, rfl⟩, rfl, by decide, by decide, by decide⟩

theorem test_witness_CompletedInstructionsAreCounted :
    (∃ th t, dispatched.fault = none ∧ dispatched.running = some 0
      ∧ Assoc.get dispatched.threads 0 = some th ∧ dispatched.engineStep = .next t ∧ t.fault = none)
    ∧ ∃ t, { dispatched with pc := 2 }.engineStep = .next t ∧ t.fault ≠ none :=
  ⟨⟨_, _, rfl, rfl, rfl, rfl, rfl⟩, ⟨_, rfl, fun h => (nomatch h)⟩⟩

/-- The queue holds a thread that is gone, then a ready one; and one running thread. -/
theorem test_witness_SchedulerOperations :
    { twoThreads with readyQueue := [7, 1] }.readyQueue = [7] ++ 1 :: []
    ∧ (∀ j ∈ [7], ∀ u, Assoc.get twoThreads.threads j = some u → u.state ≠ .ready)
    ∧ (∃ th, Assoc.get twoThreads.threads 1 = some th ∧ th.state = .ready)
    ∧ (∀ j ∈ State.reset.readyQueue, ∀ u, Assoc.get State.reset.threads j = some u → u.state ≠ .ready)
    ∧ ∃ th, dispatched.running = some 0 ∧ Assoc.get dispatched.threads 0 = some th := by
  refine ⟨rfl, fun j hj u h => ?_, ⟨_, rfl, rfl⟩, fun j hj => (nomatch hj), ⟨_, rfl, rfl⟩⟩
  obtain rfl : j = 7 := by simpa using hj
  cases h

/-- A thread blocked until `wake`, under the driver loop. -/
def sleeping (wake : Nat) : State :=
  { plain with
    driver := .sched
    threads := [(0, { freshThread 0 0 0 with state := .blocked, wake := some wake })] }

/-- The deadline has come, whatever the clock reads; and it has not come, one unit ahead of the clock. -/
theorem test_witness_SleepersWaitForTheirDeadline_wake :
    0 ≤ (sleeping 0).unblockDue.now
    ∧ (sleeping 0).unblockDue.now < (sleeping ((sleeping 0).unblockDue.now + 1)).unblockDue.now + 1 :=
  ⟨Nat.zero_le _, Nat.lt_succ_self _⟩

/-- A thread that is not blocked, an id with no record, and a table with a sleeper that keeps the invariant. -/
theorem test_witness_SleepersWaitForTheirDeadline_others :
    (∃ th, Assoc.get twoThreads.threads 0 = some th ∧ th.state ≠ .blocked)
    ∧ Assoc.get (sleeping 0).threads 1 = none ∧ ({ sleeping 0 with nextId := 1 } : State).SchedulerInv := by
  refine ⟨⟨_, rfl, by decide⟩, rfl, by decide, ?_, ?_, ?_, ?_, ?_, ?_⟩ <;> decide

theorem test_witness_SleepersWaitForTheirDeadline_dispatch :
    (sleeping 0).driver = .sched ∧ (sleeping 0).running = none
    ∧ ∃ t, step (sleeping 0) = .next t ∧ t.running = some 0 := by
  refine ⟨rfl, rfl, ?_⟩
  simp [step, State.driverStep, sleeping, State.schedStep, plain, start, State.reset, State.resetWith,
    State.writeReg, State.dispatchStep, State.unblockDue, State.readClock, Thread.due, freshThread,
    dueIds, freeOrder, Nat.mod_one, State.scheduleNext, popReady, isReady, Assoc.get, State.dispatch,
    State.restore]

theorem test_witness_HostRegisterAccess :
    0 < 16 ∧ 15 < 16 ∧ (15 : Nat) ≠ 0 ∧ 16 ≤ 16 ∧ plain.fault = none ∧ ∃ t, plain.engineStep = .next t :=
  ⟨by decide, by decide, by decide, by decide, rfl, ⟨_, rfl⟩⟩

theorem test_witness_ExpandGrowsByDoubling :
    plain.MemoryInv ∧ 0 < plain.memSize ∧ 65537 ≤ 2 ^ 32 ∧ 65536 ≤ plain.memSize ∧ plain.memSize < 65537
    ∧ ({ plain with memSize := 3 * 2 ^ 30 } : State).MemoryInv ∧ 3 * 2 ^ 30 < 2 ^ 32 := by
  refine ⟨⟨by decide, fun c hc => (nomatch hc), by decide⟩, by decide, by decide, by decide, by decide,
    ⟨by decide, fun c hc => (nomatch hc), by decide⟩, by decide⟩

theorem test_witness_FramebufferPixels :
    (0 : Int) ≤ 319 ∧ (319 : Int) < plain.params.fbWidth ∧ (199 : Int) < plain.params.fbHeight
    ∧ ¬ ((320 : Int) < plain.params.fbWidth) ∧ ((319 : Int) ≠ 320 ∨ (0 : Int) ≠ 0) := by decide

/-- Thread 0 in its first slice, `n` instructions into it. -/
def inSlice (n : Nat) : State :=
  { dispatched with
    threads := [(0, { freshThread 0 0 0 with state := .running, slice := n, instret := n })] }

/-- At the slice's start, at its limit, and beyond it, whatever the limit is. -/
theorem test_witness_PreemptionNeedsABegunSlice :
    [0, Config.sliceLimit 0 0, Config.sliceLimit 0 0 + 1].all (fun n =>
      (inSlice n).driver == .sched && (inSlice n).running == some 0 && !(inSlice n).halted
      && (inSlice n).suspend == .none) = true
    ∧ ∀ n, ∃ th, Assoc.get (inSlice n).threads 0 = some th ∧ th.slice = n ∧ th.instret - th.slice = 0 :=
  ⟨rfl, fun n => ⟨_, rfl, rfl, by simp⟩⟩

theorem test_witness_PreemptionNeedsABegunSlice_fair :
    dispatched.SchedulerInv ∧ dispatched.driver = .sched ∧ dispatched.running = some 0 := by
  refine ⟨⟨by decide, ?_, ?_, ?_, ?_, ?_, ?_⟩, rfl, rfl⟩ <;> decide

theorem test_witness_StepKeepsInvariants :
    plain.MemoryInv ∧ plain.PagesInv ∧ plain.CacheInv ∧ 1 ≤ plain.params.cacheCapacity ∧ plain.FpInv
    ∧ plain.SchedulerInv ∧ plain.CountInv ∧ ∃ t, step plain = .next t := by
  refine ⟨⟨by decide, fun c hc => (nomatch hc), by decide⟩, ⟨by decide, fun c hc => (nomatch hc), by decide⟩,
    ⟨by decide, by decide⟩, by decide, ⟨⟨by decide, fun _ v hv => (nomatch hv)⟩, fun e he => (nomatch he)⟩,
    ⟨by decide, fun e he => (nomatch he), fun e he => (nomatch he), fun e he => (nomatch he),
      fun id h => (nomatch h), fun e he => (nomatch he), fun e he => (nomatch he)⟩,
    ⟨by decide, rfl⟩, ⟨_, rfl⟩⟩

end Sys2Proof.Tests
end

section
/-!
PROOFS. How a property of states is shown to be kept by every step: the rule for the instruction cycle
(30_encoding.md R140) and the rule for the driver around it (60_exceptions.md R447).
-/

namespace Sys2Proof.Machine

open Sys2Proof

/-- What the instruction cycle is made of keeps `P`: the accesses of the fetch, an instruction, a
controlled halt, and the settling of a faulted instruction. -/
structure CycleKeeps (P : State → Prop) : Prop where
  accesses : ∀ {s t : State}, Accesses s t → P s → P t
  performs : ∀ {s t : State}, Performs s t → P s → P t
  halts : ∀ {s u : State} (f : FaultRec), P s → P u → P (u.haltWith s f)
  settles : ∀ {s u : State}, P s → P u → P (settle s u)

/-- The engine's step keeps what the parts of the instruction cycle keep. -/
theorem CycleKeeps.engineStep {P : State → Prop} (h : CycleKeeps P) {s t : State}
    (ht : s.engineStep = .next t) (hs : P s) : P t := by
  obtain ⟨u, v, ha, he, hv⟩ := s.engineStep_performs
  obtain rfl : settle s v = t := Host.Outcome.next.inj (he.symm.trans ht)
  have hu := h.accesses ha hs
  refine h.settles hs ?_
  rcases hv with ⟨_, _, hp⟩ | ⟨f, rfl⟩
  · exact h.performs hp hu
  · exact h.halts f hs hu

/-- What a step is made of keeps `P`: the engine's step, the host's actions (schedule_next only while no
thread is running), and the direct writes of the driver and of the kernel's response. -/
structure StepKeeps (P : State → Prop) : Prop where
  engine : ∀ {s t : State}, s.engineStep = .next t → P s → P t
  host : ∀ {s : State} (op : HostOp), (op = .scheduleNext → s.running = none) → P s → P (s.host op)
  control : ∀ {s : State} (regs : Vector Word 16) (pc : Word) (halted : Bool) (suspend : Suspend)
    (answered : Bool) (draws : Nat), P s →
    P { s with
      regs := regs, pc := pc, halted := halted, suspend := suspend, answered := answered, draws := draws }

theorem kernelMay_ne_scheduleNext {op : HostOp} (h : op.kernelMay = true) : op ≠ .scheduleNext := by
  rintro rfl
  cases h

/-- The kernel's response keeps what its parts keep (44_system.md R291). -/
theorem StepKeeps.kernelRespond {P : State → Prop} (h : StepKeeps P) {s : State} (hs : P s) :
    P s.kernelRespond :=
  have hr : P ({ s with draws := s.draws + 1 }.kernelResult (Config.kernelResponse s)) :=
    h.control (s := s) _ _ _ _ _ (s.draws + 1) hs
  have ha := State.kernelActs_keeps
    (fun _ op hm => h.host op fun e => absurd e (kernelMay_ne_scheduleNext hm)) _ hr
  h.control _ _ _ _ _ _ ha

/-- Every step of the machine keeps what the parts of a step keep. -/
theorem StepKeeps.step {P : State → Prop} (h : StepKeeps P) {s t : State} (ht : step s = .next t)
    (hs : P s) : P t := by
  cases step_cases ht with
  | runEngine _ _ _ ht => exact h.engine ht hs
  | threadEngine _ _ _ _ _ _ ht => exact h.engine ht hs
  | kernel _ _ _ _ ht => exact ht ▸ h.kernelRespond hs
  | resume _ _ _ ht => exact ht ▸ h.control s.regs s.pc s.halted .none s.answered s.draws hs
  | dispatch _ hr _ ht =>
    have hw : P s.unblockDue := h.host .unblockDue (fun e => nomatch e) hs
    exact ht ▸ h.host .scheduleNext (fun _ => s.unblockDue_running.trans hr) hw
  | terminate id _ _ _ ht => exact ht ▸ h.host (.terminate id) (fun e => nomatch e) hs
  | preempt _ _ _ _ _ _ ht => exact ht ▸ h.host .preempt (fun e => nomatch e) hs
  | yield _ _ _ _ _ ht => exact ht ▸ h.host .yieldCurrent (fun e => nomatch e) hs

end Sys2Proof.Machine
end

section
/-!
PROOFS. The fields no instruction writes (10_state.md R36), and that memory keeps its one form in a store
that never shrinks (R37, 20_memory.md R101).
-/

namespace Sys2Proof.Machine

open Sys2Proof

/-! The fields that the host and the scheduler write, and no instruction. -/

/-- The control fields, the framebuffer, the queue, the running pointer, the next id and the clock. -/
def State.hostFields (s : State) :
    (Nat × Bool × List Region × List MmioRange × List (Nat × Word) × Params)
      × List (Nat × Nat) × List Nat × Option Nat × Nat × Nat :=
  (s.control, s.framebuffer, s.readyQueue, s.running, s.nextId, s.now)

theorem Accesses.hostFields {s t : State} (h : Accesses s t) : t.hostFields = s.hostFields := by
  induction h with
  | refl => rfl
  | tail _ hs ih => cases hs <;> exact ih

theorem Performs.hostFields {s t : State} (h : Performs s t) : t.hostFields = s.hostFields := by
  rcases h with ⟨u, st, ha, ⟨_, _, _, _, _, _, _, rfl⟩, _⟩ | ⟨u, f, ha, rfl⟩
  · exact ha.hostFields
  · exact ha.hostFields

theorem Performs.params {s t : State} (h : Performs s t) : t.params = s.params :=
  congrArg (fun c => c.1.2.2.2.2.2) h.hostFields

theorem settle_hostFields (pre post : State) : (settle pre post).hostFields = post.hostFields := by
  rcases settle_cases pre post with h | h
  · rw [h]
  · rw [h]
    rfl

theorem hostFields_cycleKeeps (s : State) : CycleKeeps fun t => t.hostFields = s.hostFields where
  accesses ha h := ha.hostFields.trans h
  performs hp h := hp.hostFields.trans h
  halts _ _ h := h
  settles _ h := (settle_hostFields _ _).trans h

/-- No step of the engine writes a host field. -/
theorem State.engineStep_hostFields {s t : State} (h : s.engineStep = .next t) :
    t.hostFields = s.hostFields :=
  (hostFields_cycleKeeps s).engineStep h rfl

theorem State.engineStep_params {s t : State} (h : s.engineStep = .next t) : t.params = s.params :=
  congrArg (fun c => c.1.2.2.2.2.2) (State.engineStep_hostFields h)

/-- Settles O47: the engine's step keeps every host field. -/
theorem onlyTheHostWritesControlState : Obligations.OnlyTheHostWritesControlState := by
  intro s t h
  have hf := State.engineStep_hostFields h
  simp only [State.hostFields, State.control, Prod.mk.injEq] at hf
  obtain ⟨⟨hsize, hpaging, hregions, hmmio, hivt, hparams⟩, hfb, hqueue, hrunning, hnext, hnow⟩ := hf
  exact ⟨hpaging, hregions, hmmio, hivt, hsize, hfb, hqueue, hrunning, hnext, hnow, hparams⟩

/-! Memory. -/

/-- The step's invariant of memory: its one form, a store no smaller than at the start, and the
parameters of the start. -/
def State.MemoryGrownFrom (s t : State) : Prop :=
  t.MemoryInv ∧ s.memSize ≤ t.memSize ∧ t.params = s.params

/-- In the engine's cycle the store keeps its size. -/
theorem memoryInv_cycleKeeps (s : State) :
    CycleKeeps fun t => t.MemoryInv ∧ t.memSize = s.memSize where
  accesses ha h := ⟨ha.memoryInv h.1, ha.memSize.trans h.2⟩
  performs hp h := ⟨hp.memoryInv h.1, (congrArg Prod.fst hp.control).trans h.2⟩
  halts _ _ h := h
  settles hs hu := ⟨settle_memoryInv hs.1 hu.1 (hu.2.trans hs.2.symm),
    (congrArg Prod.fst (settle_control _ _)).trans hu.2⟩

theorem State.memSize_le_host (s : State) (op : HostOp) : s.memSize ≤ (s.host op).memSize := by
  cases op with
  | expand required => exact le_expandedSize _ _
  | writeBytes addr bytes =>
    simp only [State.host, State.hostWrite]
    split <;> exact Nat.le_refl _
  | setPixel x y c => exact Nat.le_of_eq (s.setPixel_memory x y c).2.symm
  | drawShape c =>
    exact State.drawShape_keeps (P := fun t => s.memSize ≤ t.memSize)
      (fun t x y c ht => (t.setPixel_memory x y c).2.symm ▸ ht) c (Nat.le_refl _)
  | scheduleNext => exact Nat.le_of_eq s.scheduleNext_memory.2.symm
  | yieldCurrent => exact Nat.le_of_eq s.yieldCurrent_memory.2.symm
  | block d => exact Nat.le_of_eq (s.block_memory d).2.symm
  | registerRegion | unregisterRegion | registerMmio | unregisterMmio | setPaging | installVector
  | removeVector | setPc | createThread | preempt | unblockDue | terminate | startRun | startSched =>
    exact Nat.le_refl _

theorem memoryGrownFrom_stepKeeps (s : State) : StepKeeps s.MemoryGrownFrom where
  engine ht h :=
    have hm := (memoryInv_cycleKeeps _).engineStep ht ⟨h.1, rfl⟩
    ⟨hm.1, hm.2 ▸ h.2.1, (State.engineStep_params ht).trans h.2.2⟩
  host op _ h := ⟨State.host_memoryInv op h.1, Nat.le_trans h.2.1 (State.memSize_le_host _ op),
    (State.host_params _ op).1.trans h.2.2⟩
  control _ _ _ _ _ _ h := h

/-- Settles O56: every part of a step keeps memory's form, the store's growth and the parameters. -/
theorem stepKeepsMemoryInv : Obligations.StepKeepsMemoryInv := by
  intro s t hs ht
  exact (memoryGrownFrom_stepKeeps s).step ht ⟨hs, Nat.le_refl _, rfl⟩

end Sys2Proof.Machine
end

section
/-!
PROOFS. Every FP stack keeps to its eight slots and its format (10_state.md R31, R32): no host action
makes a stack but the empty one of a created thread (60_exceptions.md R441).
-/

namespace Sys2Proof.Machine

open Sys2Proof

/-- `st` is the engine's FP stack or a saved one. -/
def State.HasStack (s : State) (st : List Fp) : Prop :=
  st = s.fst ∨ ∃ e ∈ s.threads, st = e.2.ctx.fst

theorem State.fpInv_iff {s : State} :
    s.FpInv ↔ ∀ st, s.HasStack st → FpStackOk s.params.fpCfg st := by
  constructor
  · rintro ⟨h1, h2⟩ st (rfl | ⟨e, he, rfl⟩)
    · exact h1
    · exact h2 e he
  · exact fun h => ⟨h _ (.inl rfl), fun e he => h _ (.inr ⟨e, he, rfl⟩)⟩

theorem FpStackOk.nil (cfg : FpCfg) : FpStackOk cfg [] :=
  ⟨Nat.zero_le _, fun _ _ hv => nomatch hv⟩

/-- A state with the same stacks and parameters. -/
theorem State.FpInv.congr {s t : State} (h : s.FpInv) (hf : t.fst = s.fst) (ht : t.threads = s.threads)
    (hp : t.params = s.params) : t.FpInv := by
  unfold State.FpInv at h ⊢
  rwa [hf, ht, hp]

/-- A halt puts back the stack of the state before, under the same parameters. -/
theorem fpInv_cycleKeeps (s : State) : CycleKeeps fun t => t.FpInv ∧ t.params = s.params where
  accesses ha h := ⟨h.1.congr ha.fst ha.threads.1 ha.params, ha.params.trans h.2⟩
  performs hp h := ⟨hp.fpInv h.1, hp.params.trans h.2⟩
  halts _ hs hu := ⟨⟨hu.2.trans hs.2.symm ▸ hs.1.1, hu.1.2⟩, hu.2⟩
  settles {s u} _ hu := by
    rcases settle_cases s u with e | e <;> (rw [e]; exact hu)

/-! The host's actions on the threads. -/

/-- The actions of the scheduler that change the thread table, the queue or the running thread. -/
def HostOp.schedules : HostOp → Bool
  | .createThread _ _ | .scheduleNext | .yieldCurrent | .block _ | .unblockDue | .terminate _ => true
  | _ => false

/-- The FP stack and the fields of the scheduler. -/
def State.threadFields (s : State) :
    List Fp × List (Nat × Thread) × Nat × List Nat × Option Nat × Nat × List (Nat × Nat) :=
  (s.fst, s.threads, s.nextId, s.readyQueue, s.running, s.totalInstret, s.retired)

theorem State.setPixel_threadFields (s : State) (x y : Int) (c : Nat) :
    (s.setPixel x y c).threadFields = s.threadFields := by
  unfold State.setPixel
  split <;> rfl

theorem State.host_threadFields (s : State) {op : HostOp} (h : op.schedules = false) :
    (s.host op).threadFields = s.threadFields := by
  cases op with
  | writeBytes addr bytes =>
    simp only [State.host, State.hostWrite]
    split <;> rfl
  | setPixel x y c => exact s.setPixel_threadFields x y c
  | drawShape c =>
    exact State.drawShape_keeps (P := fun t => t.threadFields = s.threadFields)
      (fun t x y c ht => (t.setPixel_threadFields x y c).trans ht) c rfl
  | createThread | scheduleNext | yieldCurrent | block | unblockDue | terminate => cases h
  | expand | registerRegion | unregisterRegion | registerMmio | unregisterMmio | setPaging
  | installVector | removeVector | setPc | preempt | startRun | startSched => rfl

theorem State.hasStack_congr {s t : State} (h : t.threadFields = s.threadFields) {st : List Fp} :
    t.HasStack st ↔ s.HasStack st := by
  simp only [State.threadFields, Prod.mk.injEq] at h
  simp only [State.HasStack, h.1, h.2.1]

@[simp] theorem Thread.wakened_ctx (t : Thread) (now : Nat) : (t.wakened now).ctx = t.ctx := by
  unfold Thread.wakened
  split <;> rfl

/-- A thread that leaves the engine saves the engine's stack (60_exceptions.md R443, R445). -/
theorem State.hasStack_of_mem_update {s : State} {id : Nat} {f : Thread → Thread} {e : Nat × Thread}
    (hf : ∀ t, (f t).ctx = s.context) (he : e ∈ Assoc.update s.threads id f) :
    s.HasStack e.2.ctx.fst := by
  rcases Assoc.mem_update he with he | ⟨t, _, rfl⟩
  · exact .inr ⟨e, he, rfl⟩
  · exact .inl (congrArg Context.fst (hf t))

/-- A dispatch moves saved stacks about (60_exceptions.md R442). -/
theorem State.hasStack_scheduleNext {s : State} {st : List Fp} (h : s.scheduleNext.2.HasStack st) :
    s.HasStack st := by
  rcases s.scheduleNext_cases with ⟨id, rest, t, _, hg, _, he⟩ | ⟨_, he⟩ <;> rw [he] at h
  · have hid : s.HasStack t.ctx.fst := .inr ⟨_, Assoc.mem_of_get hg, rfl⟩
    rcases h with rfl | ⟨e, he, rfl⟩
    · exact hid
    · rcases Assoc.mem_put he with rfl | he
      · exact hid
      · exact .inr ⟨e, he, rfl⟩
  · exact h

/-- A host action leaves no stack that was not there, but the empty one of a created thread. -/
theorem State.hasStack_host {s : State} {op : HostOp} {st : List Fp} (h : (s.host op).HasStack st) :
    s.HasStack st ∨ st = [] := by
  cases op with
  | createThread pc priority =>
    rcases h with rfl | ⟨e, he, rfl⟩
    · exact .inl (.inl rfl)
    · rcases Assoc.mem_put he with rfl | he
      · exact .inr rfl
      · exact .inl (.inr ⟨e, he, rfl⟩)
  | scheduleNext => exact .inl (State.hasStack_scheduleNext h)
  | yieldCurrent =>
    left
    simp only [State.host, State.yieldCurrent] at h
    split at h
    · exact h
    · rcases h with rfl | ⟨e, he, rfl⟩
      · exact .inl rfl
      · exact State.hasStack_of_mem_update (fun _ => rfl) he
  | block d =>
    left
    simp only [State.host, State.block] at h
    split at h
    · exact h
    · rcases h with rfl | ⟨e, he, rfl⟩
      · exact .inl rfl
      · exact State.hasStack_of_mem_update (fun _ => rfl) he
  | unblockDue =>
    left
    rcases h with rfl | ⟨e, he, rfl⟩
    · exact .inl rfl
    · simp only [State.host, State.unblockDue_threads, List.mem_map] at he
      obtain ⟨e', he', rfl⟩ := he
      exact .inr ⟨e', he', by rw [Thread.wakened_ctx]⟩
  | terminate id =>
    left
    rcases h with rfl | ⟨e, he, rfl⟩
    · exact .inl rfl
    · exact .inr ⟨e, (Assoc.mem_erase.1 he).1, rfl⟩
  | writeBytes | expand | registerRegion | unregisterRegion | registerMmio | unregisterMmio | setPaging
  | installVector | removeVector | setPc | preempt | setPixel | drawShape | startRun | startSched =>
    exact .inl ((State.hasStack_congr (s.host_threadFields rfl)).1 h)

theorem State.host_fpInv {s : State} (op : HostOp) (h : s.FpInv) : (s.host op).FpInv := by
  rw [State.fpInv_iff] at h ⊢
  intro st hst
  rw [(s.host_params op).1]
  rcases State.hasStack_host hst with hst | rfl
  · exact h st hst
  · exact FpStackOk.nil _

theorem fpInv_stepKeeps : StepKeeps State.FpInv where
  engine ht h := ((fpInv_cycleKeeps _).engineStep ht ⟨h, rfl⟩).1
  host op _ h := State.host_fpInv op h
  control _ _ _ _ _ _ h := h

/-- Settles O58: every part of a step keeps the engine's and the saved FP stacks. -/
theorem stepKeepsFpInv : Obligations.StepKeepsFpInv := by
  intro s t hs ht
  exact fpInv_stepKeeps.step ht hs

end Sys2Proof.Machine
end

section
/-!
PROOFS. The scheduler's invariant and the total of counted instructions (10_state.md R45, 60_exceptions.md
R449, R451): a created thread's id is new because of the first, so the two are kept together.
-/

namespace Sys2Proof.Machine

open Sys2Proof

theorem State.SchedulerInv.of_threadFields {s t : State} (h : s.SchedulerInv)
    (ht : t.threadFields = s.threadFields) : t.SchedulerInv := by
  simp only [State.threadFields, Prod.mk.injEq] at ht
  obtain ⟨_, hthreads, hnext, hqueue, hrunning, _, _⟩ := ht
  exact h.congr hthreads hnext hqueue hrunning

theorem State.CountInv.of_threadFields {s t : State} (h : s.CountInv)
    (ht : t.threadFields = s.threadFields) : t.CountInv := by
  simp only [State.threadFields, Prod.mk.injEq] at ht
  obtain ⟨_, hthreads, _, _, _, htotal, hretired⟩ := ht
  exact h.congr hthreads htotal hretired

theorem Accesses.threadFields {s t : State} (h : Accesses s t) : t.threadFields = s.threadFields := by
  induction h with
  | refl => rfl
  | tail _ hs ih => cases hs <;> exact ih

theorem settle_threadFields (pre post : State) : (settle pre post).threadFields = post.threadFields := by
  rcases settle_cases pre post with h | h
  · rw [h]
  · rw [h]
    rfl

theorem schedulerInv_cycleKeeps : CycleKeeps State.SchedulerInv where
  accesses ha h := h.of_threadFields ha.threadFields
  performs hp h := hp.schedulerInv h
  halts _ _ hu := hu
  settles _ hu := hu.of_threadFields (settle_threadFields _ _)

theorem countInv_cycleKeeps : CycleKeeps State.CountInv where
  accesses ha h := h.of_threadFields ha.threadFields
  performs hp h := hp.countInv h
  halts _ _ hu := hu
  settles _ hu := hu.of_threadFields (settle_threadFields _ _)

theorem State.host_schedulerInv {s : State} (op : HostOp) (hr : op = .scheduleNext → s.running = none)
    (h : s.SchedulerInv) : (s.host op).SchedulerInv := by
  cases op with
  | createThread pc priority => exact h.createThread pc priority
  | scheduleNext => exact h.scheduleNext (hr rfl)
  | yieldCurrent => exact h.yieldCurrent
  | block d => exact h.block d
  | unblockDue => exact h.unblockDue
  | terminate id => exact h.terminate id
  | writeBytes | expand | registerRegion | unregisterRegion | registerMmio | unregisterMmio | setPaging
  | installVector | removeVector | setPc | preempt | setPixel | drawShape | startRun | startSched =>
    exact h.of_threadFields (s.host_threadFields rfl)

theorem State.host_countInv {s : State} (op : HostOp) (hs : s.SchedulerInv) (h : s.CountInv) :
    (s.host op).CountInv := by
  cases op with
  | createThread pc priority => exact h.createThread hs pc priority
  | scheduleNext => exact h.scheduleNext
  | yieldCurrent => exact h.yieldCurrent
  | block d => exact h.block d
  | unblockDue => exact h.unblockDue
  | terminate id => exact h.terminate id
  | writeBytes | expand | registerRegion | unregisterRegion | registerMmio | unregisterMmio | setPaging
  | installVector | removeVector | setPc | preempt | setPixel | drawShape | startRun | startSched =>
    exact h.of_threadFields (s.host_threadFields rfl)

theorem schedulerInv_stepKeeps : StepKeeps State.SchedulerInv where
  engine ht h := schedulerInv_cycleKeeps.engineStep ht h
  host op hr h := State.host_schedulerInv op hr h
  control _ _ _ _ _ _ h := h

theorem schedulerInv_and_countInv_stepKeeps : StepKeeps fun s => s.SchedulerInv ∧ s.CountInv where
  engine ht h := ⟨schedulerInv_stepKeeps.engine ht h.1, countInv_cycleKeeps.engineStep ht h.2⟩
  host op hr h := ⟨schedulerInv_stepKeeps.host op hr h.1, State.host_countInv op h.1 h.2⟩
  control _ _ _ _ _ _ h := h

/-- Settles O60: every part of a step keeps the scheduler's invariant and the total together. -/
theorem stepKeepsCountInv : Obligations.StepKeepsCountInv := by
  intro s t hs hc ht
  exact (schedulerInv_and_countInv_stepKeeps.step ht ⟨hs, hc⟩).2

end Sys2Proof.Machine
end

section
/-!
PROOFS. The register accessors of the host (10_state.md R25), and that no instruction records the fault of
a bad register index.
-/

namespace Sys2Proof.Machine

open Sys2Proof

/-! The accessors. -/

theorem State.hostReadReg_of_lt (s : State) {i : Nat} (h : i < 16) :
    s.hostReadReg i = .ok (s.readReg (BitVec.ofNat 4 i)) :=
  if_pos h

theorem State.hostWriteReg_of_lt (s : State) {i : Nat} (v : Nat) (h : i < 16) :
    s.hostWriteReg i v = .ok (s.writeReg (BitVec.ofNat 4 i) (BitVec.ofNat 32 v)) :=
  if_pos h

theorem State.hostReadReg_of_ge (s : State) {i : Nat} (h : 16 ≤ i) :
    s.hostReadReg i = .error (.registerIndexOutOfRange i) :=
  if_neg (Nat.not_lt.2 h)

theorem State.hostWriteReg_of_ge (s : State) {i : Nat} (v : Nat) (h : 16 ≤ i) :
    s.hostWriteReg i v = .error (.registerIndexOutOfRange i) :=
  if_neg (Nat.not_lt.2 h)

/-- Two numbers below 16 name the same register only when they are equal. -/
theorem regIdx_ne {i j : Nat} (hi : i < 16) (hj : j < 16) (h : j ≠ i) :
    BitVec.ofNat 4 j ≠ BitVec.ofNat 4 i := by
  intro e
  have := congrArg BitVec.toNat e
  simp only [BitVec.toNat_ofNat] at this
  omega

/-! No instruction records the fault. -/

/-- The fault is one that the hardware raises, not the one that a register accessor answers. -/
def FaultRec.OfHardware (f : FaultRec) : Prop :=
  ∀ n, f ≠ .registerIndexOutOfRange n

/-- The fault record, if there is one, holds a fault of the hardware. -/
def State.RecordsHardware (s : State) : Prop :=
  ∀ n, s.fault ≠ some (.registerIndexOutOfRange n)

/-- The outcome, if it is a next state, records no fault but one of the hardware. -/
def EndsInHardware (o : Host.Outcome State Fault Refusal) : Prop :=
  ∀ t, o = .next t → t.RecordsHardware

theorem endsInHardware_next {t : State} : EndsInHardware (.next t) ↔ t.RecordsHardware :=
  ⟨fun h => h t rfl, fun h _ e => Host.Outcome.next.inj e ▸ h⟩

theorem State.recordsHardware_haltWith (s pre : State) {f : FaultRec} (h : f.OfHardware) :
    (s.haltWith pre f).RecordsHardware :=
  fun n e => h n (Option.some.inj e)

theorem State.load_trap_ofHardware {s t : State} {a : Word} {w : Width} {k : AccessKind} {f : FaultRec}
    (h : s.load a w k = .trap f t) : f.OfHardware := by
  rcases State.load_trap h with ⟨_, rfl, _⟩ | ⟨_, _, rfl, _⟩ | ⟨_, _, rfl, _⟩ | ⟨_, _, _, _, rfl⟩ <;>
    exact fun _ e => nomatch e

theorem State.store_trap_ofHardware {s t : State} {a : Word} {w : Width} {v : Word} {f : FaultRec}
    (h : s.store a w v = .trap f t) : f.OfHardware := by
  rcases State.store_trap h with ⟨_, rfl, _⟩ | ⟨_, _, rfl, _⟩ | ⟨_, _, rfl, _⟩ | ⟨_, _, _, _, rfl⟩ <;>
    exact fun _ e => nomatch e

theorem Accesses.fault {s t : State} (h : Accesses s t) : t.fault = s.fault := by
  induction h with
  | refl => rfl
  | tail _ hs ih => cases hs <;> exact ih

/-- Accesses leave the fault record as it is. -/
theorem Accesses.recordsHardware {s t : State} (h : Accesses s t) (hs : s.RecordsHardware) :
    t.RecordsHardware :=
  fun n => h.fault ▸ hs n

/-- An instruction's rule around an access ends so when the access traps by a fault of the hardware and what
follows it ends so. -/
theorem Res.orHalt_endsInHardware {α : Type} {r : Res α} (pre : State)
    {k : α → State → Host.Outcome State Fault Refusal} (ht : ∀ f u, r = .trap f u → f.OfHardware)
    (hk : ∀ v u, r = .ok v u → EndsInHardware (k v u)) : EndsInHardware (r.orHalt pre k) := by
  cases r with
  | ok v u => exact hk v u rfl
  | trap f u => exact endsInHardware_next.2 (u.recordsHardware_haltWith pre (ht f u rfl))

section

variable {s : State}

theorem State.loadInto_endsInHardware (h : s.RecordsHardware) (d : RegIdx) (a : Word) (w : Width) :
    EndsInHardware (s.loadInto d a w) :=
  Res.orHalt_endsInHardware s (fun _ _ => State.load_trap_ofHardware) fun _ _ hl =>
    endsInHardware_next.2 ((State.load_accesses hl).recordsHardware h)

theorem State.storeFrom_endsInHardware (h : s.RecordsHardware) (d : RegIdx) (a : Word) (w : Width) :
    EndsInHardware (s.storeFrom d a w) :=
  Res.orHalt_endsInHardware s (fun _ _ => State.store_trap_ofHardware) fun _ _ hl =>
    endsInHardware_next.2 ((State.store_accesses hl).recordsHardware h)

/-- An instruction that pushes. -/
theorem State.push32_orHalt_endsInHardware (pre : State) (h : s.RecordsHardware) (v : Word)
    {k : Unit → State → Host.Outcome State Fault Refusal}
    (hk : ∀ x u, u.RecordsHardware → EndsInHardware (k x u)) :
    EndsInHardware ((s.push32 v).orHalt pre k) :=
  Res.orHalt_endsInHardware pre (fun _ _ e => State.store_trap_ofHardware (State.push32_trap e))
    fun x u e => hk x u ((State.push32_accesses e).recordsHardware h)

/-- An instruction that pops. -/
theorem State.pop32_orHalt_endsInHardware (pre : State) (h : s.RecordsHardware)
    {k : Word → State → Host.Outcome State Fault Refusal}
    (hk : ∀ x u, u.RecordsHardware → EndsInHardware (k x u)) :
    EndsInHardware (s.pop32.orHalt pre k) :=
  Res.orHalt_endsInHardware pre (fun _ _ e => State.load_trap_ofHardware (State.pop32_trap e))
    fun x u e => hk x u ((State.pop32_accesses e).recordsHardware h)

theorem State.fpFault_endsInHardware (s : State) {f : FaultRec} (hf : f.OfHardware) :
    EndsInHardware (s.fpFault f) :=
  endsInHardware_next.2 (s.recordsHardware_haltWith s hf)

theorem State.fpBinary_endsInHardware (h : s.RecordsHardware) (op : Fp → Fp → Option Fp) :
    EndsInHardware (s.fpBinary op) := by
  unfold State.fpBinary
  split
  · split
    · exact s.fpFault_endsInHardware fun _ e => nomatch e
    · exact endsInHardware_next.2 h
  · exact s.fpFault_endsInHardware fun _ e => nomatch e

theorem execFpush_endsInHardware (h : s.RecordsHardware) (d : RegIdx) :
    EndsInHardware (execFpush d s) := by
  unfold execFpush
  split
  · exact s.fpFault_endsInHardware fun _ e => nomatch e
  · exact endsInHardware_next.2 h

theorem execFpop_endsInHardware (h : s.RecordsHardware) (d : RegIdx) :
    EndsInHardware (execFpop d s) := by
  unfold execFpop
  split
  · exact s.fpFault_endsInHardware fun _ e => nomatch e
  · split
    · exact s.fpFault_endsInHardware fun _ e => nomatch e
    · exact endsInHardware_next.2 h

/-- No instruction records the fault of a register accessor. -/
theorem exec_endsInHardware (h : s.RecordsHardware) (i : Instr) : EndsInHardware (exec i s) := by
  cases i with
  | halt => exact endsInHardware_next.2 fun _ e => nomatch e
  | nop | loadi | mov | add | sub | adc | sbc | mul | div | mod | cmp | and | or | xor | not | shl | shr
  | rol | ror | jmp | jz | jnz | jn | jnn | jc | jnc | jo | jno | syscall | yield =>
    exact endsInHardware_next.2 h
  | load | loadb | ldr | ldrb => exact State.loadInto_endsInHardware h _ _ _
  | store | storeb | str | strb => exact State.storeFrom_endsInHardware h _ _ _
  | push | call => exact State.push32_orHalt_endsInHardware s h _ fun _ _ hu => endsInHardware_next.2 hu
  | pop | ret => exact State.pop32_orHalt_endsInHardware s h fun _ _ hu => endsInHardware_next.2 hu
  | int n =>
    exact State.push32_orHalt_endsInHardware s h _ fun _ _ hu =>
      State.push32_orHalt_endsInHardware s hu _ fun _ _ hu => endsInHardware_next.2 hu
  | iret =>
    exact State.pop32_orHalt_endsInHardware s h fun _ _ hu =>
      State.pop32_orHalt_endsInHardware s hu fun _ _ hu => endsInHardware_next.2 hu
  | fpush d => exact execFpush_endsInHardware h d
  | fpop d => exact execFpop_endsInHardware h d
  | fadd => exact State.fpBinary_endsInHardware h fun a b => some (fpAdd s.params.fpCfg a b)
  | fsub => exact State.fpBinary_endsInHardware h fun a b => some (fpSub s.params.fpCfg a b)
  | fmul => exact State.fpBinary_endsInHardware h fun a b => some (fpMul s.params.fpCfg a b)
  | fdiv => exact State.fpBinary_endsInHardware h fun a b => fpDiv s.params.fpCfg a b

theorem settle_recordsHardware {pre post : State} (h : post.RecordsHardware) :
    (settle pre post).RecordsHardware := by
  rcases settle_cases pre post with e | e <;> (rw [e]; exact h)

/-- Nor does the cycle around it: a fetch traps as its load does, and an illegal opcode has a fault of its
own. -/
theorem State.engineStep_endsInHardware (h : s.RecordsHardware) : EndsInHardware s.engineStep := by
  unfold State.engineStep
  split
  · next f u hf =>
    exact endsInHardware_next.2
      (settle_recordsHardware (u.recordsHardware_haltWith s (State.load_trap_ofHardware hf)))
  · next w u hf =>
    split
    · exact endsInHardware_next.2
        (settle_recordsHardware (u.recordsHardware_haltWith s fun _ e => nomatch e))
    · next i hi =>
      obtain ⟨t, ht, _⟩ := exec_performs i u
      have hu := (State.load_accesses hf).recordsHardware h
      rw [ht]
      exact endsInHardware_next.2 (settle_recordsHardware (exec_endsInHardware hu i t ht))

end

/-- Settles O53: the accessors by their two cases, and the fault by the engine's cycle. -/
theorem hostRegisterAccess : Obligations.HostRegisterAccess := by
  refine ⟨fun s i v hi => ?_, fun s i v hi => ⟨s.hostWriteReg_of_ge v hi, s.hostReadReg_of_ge hi⟩,
    fun s t n hs ht => ?_⟩
  · refine ⟨_, s.hostWriteReg_of_lt v hi, ?_, fun j hj hne => ?_⟩
    · rw [State.hostReadReg_of_lt _ hi, State.readReg_writeReg_self]
      exact congrArg _ (BitVec.eq_of_toNat_eq (by simp))
    · rw [State.hostReadReg_of_lt _ hj, State.hostReadReg_of_lt _ hj,
        State.readReg_writeReg_ne _ _ _ _ (regIdx_ne hi hj hne)]
  · have hr : s.RecordsHardware := by simp [State.RecordsHardware, hs]
    exact State.engineStep_endsInHardware hr t ht n

end Sys2Proof.Machine
end

section
/-!
PROOFS. Reset (10_state.md R48, 70_reset_and_hazards.md R500).
-/

namespace Sys2Proof.Machine

open Sys2Proof

@[simp] theorem State.resetWith_readReg (p : Params) (i : RegIdx) :
    (State.resetWith p).readReg i = 0#32 := by
  simp [State.readReg, State.resetWith]

@[simp] theorem State.resetWith_getPixel (p : Params) (x y : Int) :
    (State.resetWith p).getPixel x y = 0 := by
  unfold State.getPixel
  split <;> rfl

/-- Settles O13: the registers and the pixels by their readers, every other field as reset writes it. -/
theorem resetValues : Obligations.ResetValues := by
  intro p
  exact ⟨State.resetWith_readReg p, rfl, rfl, rfl, rfl, rfl, rfl, rfl, fun _ => rfl, rfl, fun _ => rfl, rfl,
    fun _ => rfl, rfl, rfl, rfl, rfl, rfl, rfl, State.resetWith_getPixel p, rfl, rfl, rfl, rfl, rfl, rfl⟩

theorem Params.default_valid : Params.default.Valid := by
  decide

theorem State.reset_memoryInv : State.reset.MemoryInv :=
  ⟨State.reset_memory_wf, fun _ h => (nomatch h), by decide⟩

theorem State.reset_pagesInv : State.reset.PagesInv :=
  ⟨.nil, fun _ h => (nomatch h), .nil⟩

theorem State.reset_cacheInv : State.reset.CacheInv :=
  ⟨.nil, Nat.zero_le _⟩

theorem State.reset_fpInv : State.reset.FpInv :=
  ⟨FpStackOk.nil _, fun _ h => (nomatch h)⟩

/-- With no thread every clause of the invariant is about nothing. -/
theorem State.reset_schedulerInv : State.reset.SchedulerInv :=
  ⟨.nil, fun _ h => (nomatch h), fun _ h => (nomatch h), fun _ h => (nomatch h), fun _ h => (nomatch h),
    fun _ h => (nomatch h), fun _ h => (nomatch h)⟩

theorem State.reset_countInv : State.reset.CountInv :=
  ⟨.nil, rfl⟩

/-- Settles O14: the default parameters, then each invariant at reset. -/
theorem resetMeetsTheInvariants : Obligations.ResetMeetsTheInvariants :=
  ⟨Params.default_valid, State.reset_memoryInv, State.reset_pagesInv, State.reset_cacheInv,
    State.reset_fpInv, State.reset_schedulerInv, State.reset_countInv⟩

end Sys2Proof.Machine
end

section
/-!
PROOFS. The page table stays one to one onto pages already handed out (20_memory.md R86), and the cache within
its capacity (10_state.md R40).
-/

namespace Sys2Proof.Machine

open Sys2Proof

theorem pagesInv_cycleKeeps : CycleKeeps State.PagesInv where
  accesses ha h := ha.pagesInv h
  performs hp h := hp.pagesInv h
  halts _ _ hu := hu
  settles hs hu := settle_pagesInv hs hu

theorem pagesInv_stepKeeps : StepKeeps State.PagesInv where
  engine ht h := pagesInv_cycleKeeps.engineStep ht h
  host op _ h := h.congr (State.host_pages _ op).1 (State.host_pages _ op).2
  control _ _ _ _ _ _ h := h

/-- The step's invariant of the cache: a read makes room by dropping one entry, so it needs a capacity of at
least one (00_scope.md R9). -/
def State.RoomyCacheInv (s : State) : Prop :=
  s.CacheInv ∧ 1 ≤ s.params.cacheCapacity

theorem State.RoomyCacheInv.congr {s t : State} (h : s.RoomyCacheInv) (hc : t.cache = s.cache)
    (hp : t.params = s.params) : t.RoomyCacheInv :=
  ⟨h.1.congr hc hp, hp ▸ h.2⟩

theorem roomyCacheInv_cycleKeeps : CycleKeeps State.RoomyCacheInv where
  accesses ha h := ⟨ha.cacheInv h.1 h.2, ha.params ▸ h.2⟩
  performs hp h := ⟨hp.cacheInv h.1 h.2, hp.params ▸ h.2⟩
  halts _ _ hu := hu
  settles _ hu := by
    rcases settle_cases _ _ with e | e <;> (rw [e]; exact hu)

theorem roomyCacheInv_stepKeeps : StepKeeps State.RoomyCacheInv where
  engine ht h := roomyCacheInv_cycleKeeps.engineStep ht h
  host op _ h := h.congr (State.host_params _ op).2 (State.host_params _ op).1
  control _ _ _ _ _ _ h := h

/-- Settles O57: every part of a step keeps the pages' invariant and, where there is room for an entry, the
cache's. -/
theorem stepKeepsPagesAndCacheInv : Obligations.StepKeepsPagesAndCacheInv :=
  ⟨fun _ _ hs ht => pagesInv_stepKeeps.step ht hs,
    fun _ _ hs hc ht => (roomyCacheInv_stepKeeps.step ht ⟨hs, hc⟩).1⟩

end Sys2Proof.Machine
end

section
/-!
PROOFS. Words and their bytes (20_memory.md R71, R72): the value of a word is the sum of its bytes, each by its
place, so that the model's reading of a word is the little-endian one.
-/

namespace Sys2Proof.Machine

open Sys2Proof

theorem byteOfWord_toNat (w : Word) (k : Nat) : (byteOfWord w k).toNat = w.toNat / 2 ^ (8 * k) % 256 := by
  simp [byteOfWord, Nat.shiftRight_eq_div_pow]

theorem word_toNat_eq_bytes (w : Word) :
    w.toNat = (byteOfWord w 0).toNat + 256 * (byteOfWord w 1).toNat + 65536 * (byteOfWord w 2).toNat
      + 16777216 * (byteOfWord w 3).toNat := by
  have := w.isLt
  simp only [byteOfWord_toNat]
  omega

theorem wordOfBytes_eq_ofNat (b0 b1 b2 b3 : Byte) :
    wordOfBytes b0 b1 b2 b3 =
      BitVec.ofNat 32 (b0.toNat + 256 * b1.toNat + 65536 * b2.toNat + 16777216 * b3.toNat) := by
  obtain ⟨h0, h1, h2, h3⟩ := byteOfWord_wordOfBytes b0 b1 b2 b3
  have hw := word_toNat_eq_bytes (wordOfBytes b0 b1 b2 b3)
  rw [h0, h1, h2, h3] at hw
  rw [← hw, BitVec.ofNat_toNat, BitVec.setWidth_eq]

theorem memRead_eq_valueAt (s : State) (p : Nat) (w : Width) : memRead s.mem p w = s.valueAt p w := by
  cases w with
  | byte => exact BitVec.eq_of_toNat_eq (by simp [memRead, State.valueAt, State.byteAt])
  | word => exact wordOfBytes_eq_ofNat _ _ _ _

/-- Settles O28: what is read is `valueAt`, and what is written is read off byte by byte. -/
theorem dataWordsAreLittleEndian : Obligations.DataWordsAreLittleEndian := by
  refine ⟨memRead_eq_valueAt, fun m p v => ⟨fun k hk => ?_, ?_, fun q hq => ?_, fun q hq => ?_⟩⟩ <;>
    rw [memByte_memWrite]
  · rw [if_pos ⟨Nat.le_add_right p k, Nat.add_lt_add_left hk p⟩, Nat.add_sub_cancel_left, byteOfWord]
  · rw [if_pos ⟨Nat.le_refl p, Nat.lt_succ_self p⟩, Nat.sub_self, byteOfWord]
  · exact if_neg fun h => hq.elim (Nat.not_lt.2 h.1) (Nat.not_le.2 h.2)
  · exact if_neg fun h => hq (Nat.le_antisymm (Nat.le_of_lt_succ h.2) h.1)

/-! Instruction words. -/

theorem opField_eq_byte (w : Word) : opField w = byteOfWord w 3 :=
  rfl

theorem immField_low_eq_byte (w : Word) : (immField w).setWidth 8 = byteOfWord w 0 :=
  BitVec.eq_of_toNat_eq (by simp [immField, byteOfWord])

/-- Each byte of a word read from memory is the byte at its place. -/
theorem byteOfWord_memRead (s : State) (p : Nat) :
    byteOfWord (memRead s.mem p .word) 0 = s.byteAt p
    ∧ byteOfWord (memRead s.mem p .word) 3 = s.byteAt (p + 3) :=
  have h := byteOfWord_wordOfBytes (s.byteAt p) (s.byteAt (p + 1)) (s.byteAt (p + 2)) (s.byteAt (p + 3))
  ⟨h.1, h.2.2.2⟩

theorem decode_eq_decodeWord (m : OpcodeMap) (adm : Bool) (b0 b1 b2 b3 : Byte) (rest : List Byte) :
    decode m adm (b0 :: b1 :: b2 :: b3 :: rest) =
      (decodeWord m adm (wordOfBytes b0 b1 b2 b3)).map fun i => (i, rest) := by
  simp only [decode]
  cases decodeWord m adm (wordOfBytes b0 b1 b2 b3) <;> rfl

/-- Settles O8: the fetch reads a word in memory's order, and the byte decoder composes one in the same. -/
theorem instructionWordsAreLittleEndian : Obligations.InstructionWordsAreLittleEndian := by
  refine ⟨fun s s1 p h => ?_, fun m adm b0 b1 b2 b3 rest => ?_⟩
  · obtain ⟨hlow, hhigh⟩ := byteOfWord_memRead s1 p
    exact ⟨_, _, State.load_of_reaches h, memRead_eq_valueAt s1 p .word, (opField_eq_byte _).trans hhigh,
      (immField_low_eq_byte _).trans hlow⟩
  · rw [decode_eq_decodeWord, wordOfBytes_eq_ofNat]

end Sys2Proof.Machine
end

section
/-!
PROOFS. When an access faults and with what (20_memory.md R74 to R80, R87): the faults of a load and of a store
are the same four cases, `accessFault` says the fault of each, and one into a region that forbids it changes
nothing (R82).
-/

namespace Sys2Proof.Machine

open Sys2Proof

/-! The four cases. -/

/-- The access ends in the fault `f`, raised in the state `t`: at its alignment, its protection, its
translation or its bounds (20_memory.md R75, R76). -/
def State.FaultsWith (s : State) (a : Word) (w : Width) (k : AccessKind) (f : FaultRec) (t : State) : Prop :=
  (misaligned a w = true ∧ f = .misalignedAccess s.pc a k ∧ t = s)
  ∨ (misaligned a w = false ∧ s.permits a w k = false ∧ f = .protectionViolation s.pc a k ∧ t = s)
  ∨ (s.Admits a w k ∧ s.translate a = none ∧ f = .outOfMemory s.pc a k ∧ t = s)
  ∨ (s.Admits a w k ∧ ∃ p, s.translate a = some (p, t) ∧ t.memSize < p + w.bytes
      ∧ f = .outOfRangeAccess s.pc a k)

section

variable {s t : State} {a : Word} {w : Width} {k : AccessKind} {f : FaultRec}

theorem State.load_trap_iff : s.load a w k = .trap f t ↔ s.FaultsWith a w k f t := by
  refine ⟨State.load_trap, fun h => ?_⟩
  rcases h with ⟨hm, rfl, rfl⟩ | ⟨hm, hp, rfl, rfl⟩ | ⟨⟨hm, hp, hd⟩, ht, rfl, rfl⟩ |
    ⟨⟨hm, hp, hd⟩, p, ht, hb, rfl⟩
  · simp [State.load, hm]
  · simp [State.load, hm, hp]
  · simp [State.load, State.readPlain, hm, hp, hd, ht]
  · simp [State.load, State.readPlain, hm, hp, hd, ht, hb]

theorem State.store_trap_iff {v : Word} :
    s.store a w v = .trap f t ↔ s.FaultsWith a w .store f t := by
  refine ⟨State.store_trap, fun h => ?_⟩
  rcases h with ⟨hm, rfl, rfl⟩ | ⟨hm, hp, rfl, rfl⟩ | ⟨⟨hm, hp, hd⟩, ht, rfl, rfl⟩ |
    ⟨⟨hm, hp, hd⟩, p, ht, hb, rfl⟩
  · simp [State.store, hm]
  · simp [State.store, hm, hp]
  · simp [State.store, hm, hp, hd, ht]
  · simp [State.store, hm, hp, hd, ht, hb]

theorem State.FaultsWith.touched (h : s.FaultsWith a w k f t) : s.Touched a t := by
  rcases h with ⟨_, _, rfl⟩ | ⟨_, _, _, rfl⟩ | ⟨_, _, _, rfl⟩ | ⟨_, p, ht, _⟩
  · exact .inl rfl
  · exact .inl rfl
  · exact .inl rfl
  · exact .inr ⟨p, ht⟩

/-! What the checks of the pipeline say, in the terms of `accessFault`. -/

theorem misaligned_iff : misaligned a w = true ↔ w = .word ∧ a.toNat % 4 ≠ 0 := by
  cases w <;> simp [misaligned]

theorem misaligned_eq_false_iff : misaligned a w = false ↔ ¬(w = .word ∧ a.toNat % 4 ≠ 0) := by
  rw [← misaligned_iff, Bool.not_eq_true]

theorem State.neededBit_eq (s : State) (k : AccessKind) :
    s.neededBit k = if k = .store then s.params.permWrite else s.params.permRead := by
  cases k <;> rfl

theorem Region.covers_iff (g : Region) (b : Nat) : g.covers b = true ↔ g.base ≤ b ∧ b < g.base + g.length := by
  simp [Region.covers]

theorem MmioRange.holds_iff (h : MmioRange) (b : Nat) :
    h.holds b = true ↔ h.base ≤ b ∧ b < h.base + h.length := by
  simp [MmioRange.holds]

theorem State.permits_iff_granted : s.permits a w k = true ↔ s.Granted a w k := by
  simp only [State.permits, State.Granted, List.all_eq_true, Bool.or_eq_true, Bool.not_eq_true',
    ← Bool.not_eq_true, Region.covers_iff, ← s.neededBit_eq k]
  constructor
  · intro h g hg i hi hlo hhi
    exact (h i hi g hg).resolve_left fun hc => hc ⟨hlo, hhi⟩
  · intro h i hi g hg
    exact Classical.or_iff_not_imp_left.2 fun hc => (Classical.not_not.1 hc).elim (h g hg i hi)

theorem State.permits_eq_false_iff : s.permits a w k = false ↔ ¬s.Granted a w k := by
  rw [← State.permits_iff_granted, Bool.not_eq_true]

theorem State.mmioAt_eq_none_iff : s.mmioAt a = none ↔ ¬s.OnDevice a := by
  simp only [State.mmioAt, List.find?_eq_none, MmioRange.holds_iff, State.OnDevice, not_exists, not_and]

theorem State.onDevice_of_mmioAt {d : MmioRange} (h : s.mmioAt a = some d) : s.OnDevice a :=
  ⟨d, List.mem_of_find?_eq_some h, (d.holds_iff _).1 (List.find?_some (p := (MmioRange.holds · a.toNat)) h)⟩

theorem State.physical_of_translate_none (h : s.translate a = none) : s.physical a = none := by
  obtain ⟨hp, hg, hf⟩ := State.translate_none h
  simp [State.physical, hp, hg, hf]

theorem State.physical_of_translate {p : Nat} (h : s.translate a = some (p, t)) : s.physical a = some p := by
  rcases State.translate_cases h with ⟨hp, rfl, _⟩ | ⟨hp, ppn, hg, rfl, _⟩ | ⟨hp, hg, hf, rfl, _⟩
  · simp [State.physical, hp]
  · simp [State.physical, hp, hg]
  · simp [State.physical, hp, hg, hf]

theorem State.translate_memSize {p : Nat} (h : s.translate a = some (p, t)) : t.memSize = s.memSize :=
  (State.translate_accesses h).memSize

/-! The fault of each case, and none for an access that succeeds. -/

/-- Past alignment and protection, off MMIO, the fault is that of translation. -/
theorem State.Admits.accessFault_of_physical_none (h : s.Admits a w k) (hp : s.physical a = none) :
    s.accessFault a w k = some (.outOfMemory s.pc a k) := by
  obtain ⟨hm, hg, hd⟩ := h
  rw [misaligned_eq_false_iff] at hm
  rw [State.permits_iff_granted] at hg
  rw [State.mmioAt_eq_none_iff] at hd
  simp only [State.accessFault, if_neg hm, if_neg (not_not_intro hg), if_neg hd, hp]

/-- And past translation, that of bounds. -/
theorem State.Admits.accessFault_of_physical (h : s.Admits a w k) {p : Nat} (hp : s.physical a = some p) :
    s.accessFault a w k = if s.memSize < p + w.bytes then some (.outOfRangeAccess s.pc a k) else none := by
  obtain ⟨hm, hg, hd⟩ := h
  rw [misaligned_eq_false_iff] at hm
  rw [State.permits_iff_granted] at hg
  rw [State.mmioAt_eq_none_iff] at hd
  simp only [State.accessFault, if_neg hm, if_neg (not_not_intro hg), if_neg hd, hp]

theorem State.FaultsWith.accessFault (h : s.FaultsWith a w k f t) : s.accessFault a w k = some f := by
  rcases h with ⟨hm, rfl, _⟩ | ⟨hm, hp, rfl, _⟩ | ⟨ha, ht, rfl, _⟩ | ⟨ha, p, ht, hb, rfl⟩
  · rw [State.accessFault, if_pos (misaligned_iff.1 hm)]
  · rw [State.accessFault, if_neg (misaligned_eq_false_iff.1 hm), if_pos (State.permits_eq_false_iff.1 hp)]
  · exact ha.accessFault_of_physical_none (State.physical_of_translate_none ht)
  · rw [State.translate_memSize ht] at hb
    rw [ha.accessFault_of_physical (State.physical_of_translate ht)]
    exact if_pos hb

theorem State.ReachesDevice.accessFault {d : MmioRange} (h : s.ReachesDevice a w k d) :
    s.accessFault a w k = none := by
  obtain ⟨hm, hp, hd⟩ := h
  rw [State.accessFault, if_neg (misaligned_eq_false_iff.1 hm),
    if_neg (not_not_intro (State.permits_iff_granted.1 hp)), if_pos (State.onDevice_of_mmioAt hd)]

theorem State.Reaches.accessFault {p : Nat} (h : s.Reaches a w k p t) : s.accessFault a w k = none := by
  obtain ⟨ha, ht, hb⟩ := h
  rw [State.translate_memSize ht] at hb
  rw [ha.accessFault_of_physical (State.physical_of_translate ht)]
  exact if_neg (Nat.not_lt.2 hb)

theorem State.accessFault_of_load_ok {v : Word} (h : s.load a w k = .ok v t) : s.accessFault a w k = none := by
  rcases State.load_ok h with ⟨d, hd, _⟩ | ⟨p, s1, hr, _⟩
  · exact hd.accessFault
  · exact hr.accessFault

theorem State.accessFault_of_store_ok {v : Word} {x : Unit} (h : s.store a w v = .ok x t) :
    s.accessFault a w .store = none := by
  rcases State.store_ok h with ⟨d, hd, _⟩ | ⟨p, s1, hr, _⟩
  · exact hd.accessFault
  · exact hr.accessFault

end

/-- An operation that faults with what `accessFault` says, and succeeds where it says none, faults exactly when
it says so. -/
theorem Res.trap_iff_of_fault {α : Type} {r : Res α} {o : Option FaultRec}
    (hok : ∀ v t, r = .ok v t → o = none) (htrap : ∀ f t, r = .trap f t → o = some f) (f : FaultRec) :
    o = some f ↔ ∃ t, r = .trap f t := by
  refine ⟨fun h => ?_, fun ⟨t, ht⟩ => htrap f t ht⟩
  cases r with
  | ok v t => exact nomatch h.symm.trans (hok v t rfl)
  | trap g t => exact ⟨t, by rw [Option.some.inj ((htrap g t rfl).symm.trans h)]⟩

/-- Settles O25: a load and a store fault in the same four cases, each with the fault `accessFault` says. -/
theorem accessFaultsInOrder : Obligations.AccessFaultsInOrder :=
  ⟨fun _ _ _ _ =>
    ⟨Res.trap_iff_of_fault (fun _ _ => State.accessFault_of_load_ok)
      fun _ _ h => (State.load_trap_iff.1 h).accessFault,
      fun _ _ h => (State.load_trap_iff.1 h).touched⟩,
    fun _ _ _ _ =>
    ⟨Res.trap_iff_of_fault (fun _ _ => State.accessFault_of_store_ok)
      fun _ _ h => (State.store_trap_iff.1 h).accessFault,
      fun _ _ h => (State.store_trap_iff.1 h).touched⟩⟩

/-! Unwritable regions. -/

/-- A region that covers a byte of the access and lacks the bit it needs forbids it. -/
theorem State.permits_eq_false_of_region {s : State} {a : Word} {w : Width} {k : AccessKind} {g : Region}
    {n : Nat} (hg : g ∈ s.regions) (hn : n < w.bytes) (hlo : g.base ≤ a.toNat + n)
    (hhi : a.toNat + n < g.base + g.length) (hbit : g.perm.testBit (s.neededBit k) = false) :
    s.permits a w k = false :=
  State.permits_eq_false_iff.2 fun h => by
    have := h g hg n (List.mem_range.2 hn) hlo hhi
    rw [← s.neededBit_eq k, hbit] at this
    exact nomatch this

/-- An instruction that pushes halts where the push's store faults. -/
theorem State.push32_orHalt_of_store_trap {s t : State} {v : Word} {f : FaultRec}
    (h : s.store (s.readReg spIndex - 4#32) .word v = .trap f t) (pre : State)
    (k : Unit → State → Host.Outcome State Fault Refusal) :
    (s.push32 v).orHalt pre k = .next (t.haltWith pre f) := by
  simp only [State.push32, h, Res.orHalt]

/-- A store instruction halts where its store faults. -/
theorem State.storeFrom_of_store_trap {s t : State} {d : RegIdx} {a : Word} {w : Width} {f : FaultRec}
    (h : s.store a w (s.readReg d) = .trap f t) : s.storeFrom d a w = .next (t.haltWith s f) := by
  simp only [State.storeFrom, h, Res.orHalt]

/-- An instruction whose first access is a store halts where that store faults. -/
theorem exec_of_store_trap {s t : State} {i : Instr} {a : Word} {w : Width} {f : FaultRec}
    (hi : firstAccess s i = some (.store, a, w)) (h : ∀ v, s.store a w v = .trap f t) :
    exec i s = .next (t.haltWith s f) := by
  cases i with
  | store | storeb | str | strb =>
    cases hi
    exact State.storeFrom_of_store_trap (h _)
  | push | call | int =>
    cases hi
    exact State.push32_orHalt_of_store_trap (h _) s _
  | _ => exact nomatch hi

/-- Settles O26: the region forbids the store, so it faults before it changes anything. -/
theorem readOnlyRegionKeepsItsBytes : Obligations.ReadOnlyRegionKeepsItsBytes := by
  intro s i a w g n hi halign hg hn hlo hhi hbit
  have hm : misaligned a w = false := misaligned_eq_false_iff.2 fun h => h.2 (halign h.1)
  have hp : s.permits a w .store = false := State.permits_eq_false_of_region hg hn hlo hhi hbit
  exact exec_of_store_trap hi fun _ => State.store_trap_iff.2 (.inr (.inl ⟨hm, hp, rfl, rfl⟩))

end Sys2Proof.Machine
end

section
/-!
PROOFS. Address translation (20_memory.md R84 to R87): its rule in each case, and that an address once translated
stays so.
-/

namespace Sys2Proof.Machine

open Sys2Proof

section

variable {s : State} {a : Word}

theorem State.translate_of_off (h : s.pagingEnabled = false) : s.translate a = some (a.toNat, s) := by
  simp [State.translate, h]

theorem State.translate_of_mapped {ppn : Nat} (h : s.pagingEnabled = true)
    (hg : Assoc.get s.pageTable (a.toNat / s.params.pageSize) = some ppn) :
    s.translate a = some (ppn * s.params.pageSize + a.toNat % s.params.pageSize, s) := by
  simp [State.translate, h, hg]

theorem State.translate_of_full (h : s.pagingEnabled = true)
    (hg : Assoc.get s.pageTable (a.toNat / s.params.pageSize) = none)
    (hf : s.memSize < (s.nextFreePPage + 1) * s.params.pageSize) : s.translate a = none := by
  simp [State.translate, h, hg, hf]

theorem State.translate_of_free (h : s.pagingEnabled = true)
    (hg : Assoc.get s.pageTable (a.toNat / s.params.pageSize) = none)
    (hf : (s.nextFreePPage + 1) * s.params.pageSize ≤ s.memSize) :
    s.translate a = some (s.nextFreePPage * s.params.pageSize + a.toNat % s.params.pageSize,
      s.allocPage (a.toNat / s.params.pageSize)) := by
  simp [State.translate, h, hg, Nat.not_lt.2 hf]

/-- The page taken reads 0, and every other byte is as before (20_memory.md R86). -/
theorem State.byteAt_allocPage (s : State) (vpn q : Nat) :
    (s.allocPage vpn).byteAt q =
      if s.nextFreePPage * s.params.pageSize ≤ q ∧ q < (s.nextFreePPage + 1) * s.params.pageSize then 0#8
      else s.byteAt q := by
  rw [State.byteAt, State.allocPage_mem, memByte_memZero, Nat.succ_mul]
  rfl

end

/-- Settles O27: each clause is translation's rule in its case. -/
theorem translationRule : Obligations.TranslationRule := by
  refine ⟨fun s a => State.translate_of_off, fun s a hp =>
    ⟨fun ppn => State.translate_of_mapped hp, fun hg hf => ?_, fun hg hf => ?_⟩⟩
  · have ht := State.translate_of_full hp hg hf
    exact ⟨ht, fun w k ha => State.load_trap_iff.2 (.inr (.inr (.inl ⟨ha, ht, rfl, rfl⟩))),
      fun w v ha => State.store_trap_iff.2 (.inr (.inr (.inl ⟨ha, ht, rfl, rfl⟩)))⟩
  · exact ⟨_, State.translate_of_free hp hg hf, fun n => Assoc.get_put _ _ _ _, rfl,
      State.byteAt_allocPage s _, rfl⟩

/-! An address that has been translated. -/

/-- The address translates to `p` by the pages as they stand, so that translating it changes nothing. -/
def State.MapsTo (s : State) (a : Word) (p : Nat) : Prop :=
  (s.pagingEnabled = false ∧ p = a.toNat)
  ∨ (s.pagingEnabled = true ∧ ∃ ppn, Assoc.get s.pageTable (a.toNat / s.params.pageSize) = some ppn
      ∧ p = ppn * s.params.pageSize + a.toNat % s.params.pageSize)

theorem State.MapsTo.translate {s : State} {a : Word} {p : Nat} (h : s.MapsTo a p) :
    s.translate a = some (p, s) := by
  rcases h with ⟨hp, rfl⟩ | ⟨hp, ppn, hg, rfl⟩
  · exact State.translate_of_off hp
  · exact State.translate_of_mapped hp hg

/-- Translation leaves the address mapped, for an allocation maps the page it takes. -/
theorem State.mapsTo_of_translate {s t : State} {a : Word} {p : Nat} (h : s.translate a = some (p, t)) :
    t.MapsTo a p := by
  rcases State.translate_cases h with ⟨hp, rfl, rfl⟩ | ⟨hp, ppn, hg, rfl, rfl⟩ | ⟨hp, hg, hf, rfl, rfl⟩
  · exact .inl ⟨hp, rfl⟩
  · exact .inr ⟨hp, ppn, hg, rfl⟩
  · exact .inr ⟨hp, _, Assoc.get_put_self _ _ _, rfl⟩

end Sys2Proof.Machine
end

section
/-!
PROOFS. What a load reads after a store at its address (20_memory.md R105).
-/

namespace Sys2Proof.Machine

open Sys2Proof

/-- Where every region grants reads, every read is permitted. -/
theorem State.permits_load_of_all {s : State} (h : ∀ g ∈ s.regions, g.perm.testBit s.params.permRead = true)
    (a : Word) (w : Width) : s.permits a w .load = true :=
  State.permits_iff_granted.2 fun g hg _ _ _ _ => h g hg

/-- The state after a store instruction that reached memory at `p`. -/
theorem State.storeFrom_of_reaches {s s1 : State} {a : Word} {w : Width} {p : Nat} (d : RegIdx)
    (h : s.Reaches a w .store p s1) :
    s.storeFrom d a w = .next ((s1.writePlain a p w (s.readReg d)).complete s.nextPc) := by
  simp only [State.storeFrom, State.store_of_reaches _ h, Res.orHalt]

/-- The state after a load instruction that reached memory at `p`. -/
theorem State.loadInto_of_reaches {s s1 : State} {a : Word} {w : Width} {p : Nat} (d : RegIdx)
    (h : s.Reaches a w .load p s1) :
    s.loadInto d a w = .next (((s1.cacheRead a (memRead s1.mem p w)).writeReg d
      (memRead s1.mem p w)).complete s.nextPc) := by
  simp only [State.loadInto, State.load_of_reaches h, Res.orHalt]

/-- After a store that reached memory at `p` a load at its address reaches `p` again, in the state as it is. -/
theorem State.Reaches.reload {s s1 : State} {a : Word} {w : Width} {p : Nat}
    (h : s.Reaches a w .store p s1) (hr : ∀ g ∈ s.regions, g.perm.testBit s.params.permRead = true)
    (v pc : Word) :
    ((s1.writePlain a p w v).complete pc).Reaches a w .load p ((s1.writePlain a p w v).complete pc) := by
  have hmap := State.mapsTo_of_translate h.2.1
  have hs1 := h.eq
  obtain ⟨⟨hm, _, hd⟩, _, hb⟩ := h
  rw [hs1] at hmap hb ⊢
  exact ⟨⟨hm, State.permits_load_of_all hr a w, hd⟩, State.MapsTo.translate hmap, hb⟩

/-- A load instruction after a store instruction at the same address gets the stored bytes. -/
theorem State.loadInto_after_storeFrom {s s1 : State} {a : Word} {w : Width} {p : Nat} (d e : RegIdx)
    (h : s.Reaches a w .store p s1) (hr : ∀ g ∈ s.regions, g.perm.testBit s.params.permRead = true) :
    ∃ t u, s.storeFrom d a w = .next t ∧ t.loadInto e a w = .next u ∧ u.readReg e = cutTo (s.readReg d) w
      ∧ ∀ q, u.byteAt q = t.byteAt q := by
  refine ⟨_, _, State.storeFrom_of_reaches d h, State.loadInto_of_reaches e (h.reload hr _ _), ?_,
    fun _ => rfl⟩
  exact (State.readReg_writeReg_self _ e _).trans (memRead_memWrite_self s1.mem p w (s.readReg d))

theorem cutTo_byte_eq_and (v : Word) : cutTo v .byte = v &&& 0xFF#32 := by
  have hlt : v.toNat % 256 < 2 ^ 32 := by omega
  apply BitVec.eq_of_toNat_eq
  simpa [cutTo, byteOfWord, Nat.and_two_pow_sub_one_eq_mod v.toNat 8] using hlt

/-- Settles O29: the word and the byte case of one load after one store. -/
theorem loadReturnsTheLastStore : Obligations.LoadReturnsTheLastStore := by
  intro s d e imm p s1 hr
  refine ⟨fun h => State.loadInto_after_storeFrom d e h hr, fun h => ?_⟩
  rw [← cutTo_byte_eq_and]
  exact State.loadInto_after_storeFrom d e h hr

end Sys2Proof.Machine
end

section
/-!
PROOFS. Accesses to MMIO handlers (20_memory.md R91 to R93).
-/

namespace Sys2Proof.Machine

open Sys2Proof

/-- An access goes to the earliest registration that holds its start address. -/
theorem State.mmioAt_eq_some_iff (s : State) (a : Word) (h : MmioRange) :
    s.mmioAt a = some h ↔
      ∃ before after, s.mmio = before ++ h :: after ∧ h.base ≤ a.toNat ∧ a.toNat < h.base + h.length
        ∧ ∀ g ∈ before, ¬(g.base ≤ a.toNat ∧ a.toNat < g.base + g.length) := by
  simp only [State.mmioAt, List.find?_eq_some_iff_append, Bool.not_eq_true', ← Bool.not_eq_true,
    MmioRange.holds_iff]
  constructor
  · rintro ⟨⟨hlo, hhi⟩, before, after, hs, hb⟩
    exact ⟨before, after, hs, hlo, hhi, hb⟩
  · rintro ⟨before, after, hs, hlo, hhi, hb⟩
    exact ⟨⟨hlo, hhi⟩, before, after, hs, hb⟩

/-- Cutting a value to a width keeps it modulo the width. -/
theorem cutTo_eq_ofNat_mod (v : Word) (w : Width) : cutTo v w = BitVec.ofNat 32 (v.toNat % 2 ^ (8 * w.bytes)) := by
  apply BitVec.eq_of_toNat_eq
  cases w with
  | byte => simp [cutTo, byteOfWord, Width.bytes]
  | word => simpa [cutTo, Width.bytes] using (Nat.mod_eq_of_lt v.isLt).symm

theorem cutTo_lt (v : Word) (w : Width) : (cutTo v w).toNat < 2 ^ (8 * w.bytes) := by
  rw [cutTo_eq_ofNat_mod, BitVec.toNat_ofNat]
  exact Nat.lt_of_le_of_lt (Nat.mod_le _ _) (Nat.mod_lt _ (Nat.two_pow_pos _))

/-- A load in an MMIO range is answered by its handler. -/
theorem State.load_of_reachesDevice {s : State} {a : Word} {w : Width} {k : AccessKind} {h : MmioRange}
    (hr : s.ReachesDevice a w k h) :
    s.load a w k = .ok (cutTo (Config.mmioAnswer s.draws (h.request a w none)) w)
      (s.sendDevice (h.request a w none)) := by
  obtain ⟨hm, hp, hd⟩ := hr
  simp [State.load, State.mmioRead, hm, hp, hd]

/-- A store in an MMIO range is sent to its handler. -/
theorem State.store_of_reachesDevice {s : State} {a : Word} {w : Width} {h : MmioRange}
    (hr : s.ReachesDevice a w .store h) (v : Word) :
    s.store a w v = .ok () (s.sendDevice (h.request a w (some (cutTo v w)))) := by
  obtain ⟨hm, hp, hd⟩ := hr
  simp [State.store, State.mmioWrite, hm, hp, hd]

/-- Settles O32: the registration found, the answer of a load, and the value a store sends. -/
theorem mmioDispatch : Obligations.MmioDispatch := by
  refine ⟨State.mmioAt_eq_some_iff, fun s a w k h hr => ⟨_, cutTo_lt _ w, State.load_of_reachesDevice hr⟩,
    fun s a w v h hr => ?_⟩
  rw [State.store_of_reachesDevice hr, cutTo_eq_ofNat_mod]
  rfl

end Sys2Proof.Machine
end

section
/-!
PROOFS. The diagnostic cache (20_memory.md R94 to R96): its bookkeeping, and that no access depends on it.
-/

namespace Sys2Proof.Machine

open Sys2Proof

/-! Bookkeeping. -/

/-- Dropping an entry of a map in its one form by its place is erasing its key. -/
theorem Assoc.eraseIdx_eq_erase {α : Type} {m : List (Nat × α)} (h : Assoc.Rising m) {i : Nat}
    (hi : i < m.length) : m.eraseIdx i = Assoc.erase m m[i].1 := by
  induction m generalizing i with
  | nil => exact nomatch hi
  | cons e rest ih =>
    obtain ⟨hlt, hrest⟩ := List.pairwise_cons.1 h
    cases i with
    | zero =>
      have hkeep : Assoc.erase rest e.1 = rest :=
        List.filter_eq_self.2 fun x hx => bne_iff_ne.2 (Nat.ne_of_gt (hlt x hx))
      have hdrop : Assoc.erase (e :: rest) e.1 = Assoc.erase rest e.1 := by simp [Assoc.erase, Assoc.keep]
      exact (hdrop.trans hkeep).symm
    | succ j =>
      have hj : j < rest.length := Nat.lt_of_succ_lt_succ hi
      have hne : e.1 ≠ rest[j].1 := Nat.ne_of_lt (hlt _ (List.getElem_mem hj))
      rw [List.eraseIdx_cons_succ, ih hrest hj]
      simp [Assoc.erase, Assoc.keep, hne]

/-- A full cache makes room by losing one entry. -/
theorem State.cacheRoom_of_full {s : State} (h : Assoc.Rising s.cache)
    (hf : s.params.cacheCapacity ≤ s.cache.length) (hl : 0 < s.cache.length) :
    ∃ k, (Assoc.get s.cache k).isSome = true ∧ s.cacheRoom = Assoc.erase s.cache k := by
  have hi := Nat.mod_lt (Config.evictChoice s.draws) hl
  refine ⟨s.cache[Config.evictChoice s.draws % s.cache.length].1, ?_, ?_⟩
  · rw [Assoc.get_of_mem h (List.getElem_mem hi)]
    rfl
  · rw [State.cacheRoom, if_pos hf, Assoc.eraseIdx_eq_erase h hi]

theorem State.cacheRoom_of_lt {s : State} (h : s.cache.length < s.params.cacheCapacity) :
    s.cacheRoom = s.cache :=
  if_neg (Nat.not_le.2 h)

/-- On a hit a read counts it and replaces the value. -/
theorem State.cacheRead_of_hit {s : State} {a : Word} (h : (Assoc.get s.cache a.toNat).isSome = true) (v : Word) :
    (s.cacheRead a v).cacheHits = s.cacheHits + 1 ∧ (s.cacheRead a v).cacheMisses = s.cacheMisses
    ∧ (s.cacheRead a v).cache = Assoc.put s.cache a.toNat v := by
  simp [State.cacheHolds, h]

/-- On a miss a read counts it and adds an entry where there is room. -/
theorem State.cacheRead_of_miss {s : State} {a : Word} (h : Assoc.get s.cache a.toNat = none) (v : Word) :
    (s.cacheRead a v).cacheHits = s.cacheHits ∧ (s.cacheRead a v).cacheMisses = s.cacheMisses + 1
    ∧ (s.cacheRead a v).cache = Assoc.put s.cacheRoom a.toNat v := by
  simp [State.cacheHolds, h]

/-- Settles O30: a hit, a miss with room, a miss without, and an invalidation. -/
theorem cacheBookkeeping : Obligations.CacheBookkeeping := by
  refine ⟨fun s a v w hg => ?_, fun s a v hg hl => ?_, fun s a v hs hg hf hl => ?_,
    fun s a n => Assoc.get_erase _ _ _⟩
  · obtain ⟨hh, hm, hc⟩ := State.cacheRead_of_hit (Option.isSome_of_eq_some hg) v
    exact ⟨hh, hm, fun n => by rw [hc, Assoc.get_put]⟩
  · obtain ⟨hh, hm, hc⟩ := State.cacheRead_of_miss hg v
    exact ⟨hh, hm, fun n => by rw [hc, State.cacheRoom_of_lt hl, Assoc.get_put]⟩
  · obtain ⟨hh, hm, hc⟩ := State.cacheRead_of_miss hg v
    obtain ⟨k, hk, hroom⟩ := State.cacheRoom_of_full hs hf hl
    exact ⟨hh, hm, k, hk, fun n => by rw [hc, hroom, Assoc.get_put, Assoc.get_erase]⟩

/-! Accesses under another cache. -/

/-- `s` with another cache and other counters. -/
def State.recached (s : State) (cache : List (Nat × Word)) (hits misses : Nat) : State :=
  { s with cache := cache, cacheHits := hits, cacheMisses := misses }

section

variable {s t : State} {a : Word} {w : Width} {k : AccessKind}

theorem State.translate_recached {p : Nat} (h : s.translate a = some (p, t)) (c : List (Nat × Word)) (n m : Nat) :
    (s.recached c n m).translate a = some (p, t.recached c n m) := by
  rcases State.translate_cases h with ⟨hp, rfl, rfl⟩ | ⟨hp, ppn, hg, rfl, rfl⟩ | ⟨hp, hg, hf, rfl, rfl⟩
  · exact State.translate_of_off hp
  · exact State.translate_of_mapped hp hg
  · exact State.translate_of_free hp hg hf

theorem State.translate_none_recached (h : s.translate a = none) (c : List (Nat × Word)) (n m : Nat) :
    (s.recached c n m).translate a = none := by
  obtain ⟨hp, hg, hf⟩ := State.translate_none h
  exact State.translate_of_full hp hg hf

theorem State.Reaches.recached {p : Nat} (h : s.Reaches a w k p t) (c : List (Nat × Word)) (n m : Nat) :
    (s.recached c n m).Reaches a w k p (t.recached c n m) :=
  ⟨h.1, State.translate_recached h.2.1 c n m, h.2.2⟩

theorem State.FaultsWith.recached {f : FaultRec} (h : s.FaultsWith a w k f t) (c : List (Nat × Word))
    (n m : Nat) : (s.recached c n m).FaultsWith a w k f (t.recached c n m) := by
  rcases h with ⟨hm, hf, rfl⟩ | ⟨hm, hp, hf, rfl⟩ | ⟨ha, ht, hf, rfl⟩ | ⟨ha, p, ht, hb, hf⟩
  · exact .inl ⟨hm, hf, rfl⟩
  · exact .inr (.inl ⟨hm, hp, hf, rfl⟩)
  · exact .inr (.inr (.inl ⟨ha, State.translate_none_recached ht c n m, hf, rfl⟩))
  · exact .inr (.inr (.inr ⟨ha, p, State.translate_recached ht c n m, hb, hf⟩))

/-- A load that succeeds does so under every cache, with the same value. -/
theorem State.load_ok_recached {v : Word} (h : s.load a w k = .ok v t) (c : List (Nat × Word)) (n m : Nat) :
    ∃ u, (s.recached c n m).load a w k = .ok v u ∧ u.withoutCache = t.withoutCache := by
  rcases State.load_ok h with ⟨d, hd, rfl, rfl⟩ | ⟨p, s1, hr, rfl, rfl⟩
  · exact ⟨_, State.load_of_reachesDevice (s := s.recached c n m) hd, rfl⟩
  · have hl := State.load_of_reaches (hr.recached c n m)
    exact ⟨_, hl, rfl⟩

/-- A store that succeeds does so under every cache. -/
theorem State.store_ok_recached {v : Word} {x : Unit} (h : s.store a w v = .ok x t) (c : List (Nat × Word))
    (n m : Nat) : ∃ u, (s.recached c n m).store a w v = .ok x u ∧ u.withoutCache = t.withoutCache := by
  rcases State.store_ok h with ⟨d, hd, rfl⟩ | ⟨p, s1, hr, rfl⟩
  · exact ⟨_, State.store_of_reachesDevice (s := s.recached c n m) hd v, rfl⟩
  · exact ⟨_, State.store_of_reaches v (hr.recached c n m), rfl⟩

end

/-- Settles O31: each end of an access, a value or a fault, is its end under every cache. -/
theorem cacheNeverChangesAResult : Obligations.CacheNeverChangesAResult := by
  intro s s' hs
  obtain ⟨c, n, m, rfl⟩ : ∃ c n m, s' = s.recached c n m := ⟨_, _, _, hs⟩
  exact ⟨fun a w k => ⟨fun v t h => State.load_ok_recached h c n m,
      fun f t h => ⟨_, State.load_trap_iff.2 ((State.load_trap_iff.1 h).recached c n m), rfl⟩⟩,
    fun a w x => ⟨fun v t h => State.store_ok_recached h c n m,
      fun f t h => ⟨_, State.store_trap_iff.2 ((State.store_trap_iff.1 h).recached c n m), rfl⟩⟩⟩

end Sys2Proof.Machine
end

section
/-!
PROOFS. How the backing store grows (20_memory.md R100).
-/

namespace Sys2Proof.Machine

open Sys2Proof

/-- With fuel enough, doubling stops at the first size that holds what is required. -/
theorem doubled_spec {fuel size required : Nat} (h : size < required) (hf : required ≤ size * 2 ^ fuel) :
    ∃ k, doubled fuel size required = size * 2 ^ (k + 1) ∧ size * 2 ^ k < required
      ∧ required ≤ size * 2 ^ (k + 1) := by
  induction fuel generalizing size with
  | zero => omega
  | succ fuel ih =>
    rw [doubled, if_pos h]
    have hk : ∀ j, 2 * size * 2 ^ j = size * 2 ^ (j + 1) := fun j => by
      rw [Nat.pow_succ, Nat.mul_comm 2 size, Nat.mul_assoc, Nat.mul_comm 2]
    by_cases h2 : 2 * size < required
    · obtain ⟨k, he, hlt, hle⟩ := ih h2 ((hk fuel).symm ▸ hf)
      exact ⟨k + 1, he.trans (hk _), hk k ▸ hlt, hk (k + 1) ▸ hle⟩
    · have hstop : doubled fuel (2 * size) required = 2 * size := by
        cases fuel with
        | zero => rfl
        | succ _ => exact if_neg h2
      exact ⟨0, by omega, by omega, by omega⟩

theorem expandedSize_of_le {size required : Nat} (h : required ≤ size) : expandedSize size required = size :=
  if_pos (.inl h)

/-- A store that must grow doubles, or grows to fit where doubling passes 2^32. -/
theorem expandedSize_of_lt {size required : Nat} (hs : 0 < size) (h : size < required)
    (hr : required ≤ 2 ^ 32) :
    (∃ k, expandedSize size required = size * 2 ^ (k + 1) ∧ size * 2 ^ k < required)
    ∨ (expandedSize size required = required
      ∧ ∃ k, 2 ^ 32 < size * 2 ^ (k + 1) ∧ size * 2 ^ k < required) := by
  obtain ⟨k, hd, hlt, hle⟩ := doubled_spec (fuel := 33) h (by omega)
  have hgrow : ¬(required ≤ size ∨ 2 ^ 32 < required) := by omega
  rw [expandedSize, if_neg hgrow, hd]
  by_cases hk : size * 2 ^ (k + 1) ≤ 2 ^ 32
  · exact .inl ⟨k, if_pos ⟨hle, hk⟩, hlt⟩
  · exact .inr ⟨if_neg fun hc => hk hc.2, k, Nat.lt_of_not_le hk, hlt⟩

/-- Settles O54: the size by `expandedSize`, and no byte is written; beyond the old store none was listed. -/
theorem expandGrowsByDoubling : Obligations.ExpandGrowsByDoubling := by
  intro s required ⟨_, hbelow, hmax⟩ hs hr
  refine ⟨fun h => ?_, fun h => ⟨required_le_expandedSize _ _ hr, expandedSize_le _ _ hmax,
    expandedSize_of_lt hs h hr⟩, fun _ _ => rfl, fun _ hq => memByte_eq_zero_of_below hbelow hq⟩
  rw [State.expand, expandedSize_of_le h]

end Sys2Proof.Machine
end

section
/-!
PROOFS. The fields of an instruction word (30_encoding.md R121, R122): each field is read off the word by
division, and the packed word is the fields one after another.
-/

namespace Sys2Proof

theorem opField_toNat (w : Word) : (opField w).toNat = w.toNat / 2 ^ 24 := by
  have := w.isLt
  simp only [opField, BitVec.extractLsb'_toNat, Nat.shiftRight_eq_div_pow]
  omega

theorem dstField_toNat (w : Word) : (dstField w).toNat = w.toNat / 2 ^ 20 % 16 := by
  simp [dstField, Nat.shiftRight_eq_div_pow]

theorem srcFieldOf_toNat (w : Word) : (srcFieldOf w).toNat = w.toNat / 2 ^ 16 % 16 := by
  simp [srcFieldOf, Nat.shiftRight_eq_div_pow]

theorem immField_toNat (w : Word) : (immField w).toNat = w.toNat % 2 ^ 16 := by
  simp [immField]

/-- The two words agree bit by bit: each bit lies in one field. -/
theorem packFields_eq_append (op : Byte) (d r : RegIdx) (imm : Half) :
    packFields op d r imm = op ++ d ++ r ++ imm := by
  apply BitVec.eq_of_getLsbD_eq
  intro k hk
  simp only [packFields, BitVec.getLsbD_append, BitVec.getLsbD_or, BitVec.getLsbD_shiftLeft,
    BitVec.getLsbD_setWidth]
  grind

theorem toNat_append_eq_add {m n : Nat} (x : BitVec m) (y : BitVec n) :
    (x ++ y).toNat = x.toNat * 2 ^ n + y.toNat := by
  rw [BitVec.toNat_append, ← Nat.shiftLeft_add_eq_or_of_lt y.isLt, Nat.shiftLeft_eq]

theorem packFields_toNat (op : Byte) (d r : RegIdx) (imm : Half) :
    (packFields op d r imm).toNat = op.toNat * 2 ^ 24 + d.toNat * 2 ^ 20 + r.toNat * 2 ^ 16 + imm.toNat := by
  simp only [packFields_eq_append, toNat_append_eq_add]
  omega

/-! The round trip. -/

section

variable (op : Byte) (d r : RegIdx) (imm : Half)

@[simp] theorem opField_packFields : opField (packFields op d r imm) = op := by
  apply BitVec.eq_of_toNat_eq
  rw [opField_toNat, packFields_toNat]
  have := d.isLt
  have := r.isLt
  have := imm.isLt
  omega

@[simp] theorem dstField_packFields : dstField (packFields op d r imm) = d := by
  apply BitVec.eq_of_toNat_eq
  rw [dstField_toNat, packFields_toNat]
  have := d.isLt
  have := r.isLt
  have := imm.isLt
  omega

@[simp] theorem srcFieldOf_packFields : srcFieldOf (packFields op d r imm) = r := by
  apply BitVec.eq_of_toNat_eq
  rw [srcFieldOf_toNat, packFields_toNat]
  have := r.isLt
  have := imm.isLt
  omega

@[simp] theorem immField_packFields : immField (packFields op d r imm) = imm := by
  apply BitVec.eq_of_toNat_eq
  rw [immField_toNat, packFields_toNat]
  have := imm.isLt
  omega

end

/-- Settles O1: each field by its quotient, the word by its sum, and the round trip field by field. -/
theorem fieldsPackAndUnpack : Obligations.FieldsPackAndUnpack := by
  refine ⟨fun w => ?_, fun op d r imm => ?_⟩
  · exact ⟨opField_toNat w, dstField_toNat w, srcFieldOf_toNat w, immField_toNat w⟩
  · exact ⟨packFields_toNat op d r imm, opField_packFields op d r imm, dstField_packFields op d r imm,
      srcFieldOf_packFields op d r imm, immField_packFields op d r imm⟩

end Sys2Proof
end

section
/-!
PROOFS. The decoder undoes the encoder (30_encoding.md R122 to R136): an unambiguous OPCODE_MAP leads from an
operation to its byte and back, and an instruction's fields spell it again.
-/

namespace Sys2Proof

/-! OPCODE_MAP, from byte to operation and back (30_encoding.md R132, R133). -/

theorem OpcodeMap.mem_of_byteOf {m : OpcodeMap} {op : Opcode} {b : Byte} (h : m.byteOf op = some b) :
    (b, op) ∈ m := by
  induction m with
  | nil => cases h
  | cons e rest ih =>
    simp only [OpcodeMap.byteOf] at h
    split at h
    · next he =>
      obtain rfl := Option.some.inj h
      exact he ▸ List.mem_cons_self
    · exact List.mem_cons_of_mem _ (ih h)

theorem OpcodeMap.opcodeOf_of_mem {m : OpcodeMap} {op : Opcode} {b : Byte} (hm : (m.map Prod.fst).Nodup)
    (h : (b, op) ∈ m) : m.opcodeOf b = some op := by
  induction m with
  | nil => cases h
  | cons e rest ih =>
    obtain ⟨hne, hrest⟩ := List.nodup_cons.1 hm
    rcases List.mem_cons.1 h with rfl | h
    · exact if_pos rfl
    · exact (if_neg fun he : e.1 = b => hne (he ▸ List.mem_map_of_mem h)).trans (ih hrest h)

theorem OpcodeMap.opcodeOf_of_byteOf {m : OpcodeMap} {op : Opcode} {b : Byte} (hm : m.Unambiguous)
    (h : m.byteOf op = some b) : m.opcodeOf b = some op :=
  OpcodeMap.opcodeOf_of_mem hm.1 (OpcodeMap.mem_of_byteOf h)

theorem OpcodeMap.default_unambiguous : OpcodeMap.default.Unambiguous := by
  decide

theorem OpcodeMap.default_byteOf_isSome (op : Opcode) : (OpcodeMap.default.byteOf op).isSome = true := by
  cases op <;> rfl

/-! The fields of an instruction (30_encoding.md R124 to R126). -/

theorem rxSrc_sentinel (imm : Half) : rxSrc 15#4 imm = .imm imm :=
  rfl

theorem rxSrc_of_ne {r : RegIdx} (h : r ≠ 15#4) (imm : Half) : rxSrc r imm = .reg r :=
  if_neg h

/-- An RX operand that can be encoded is spelt by its fields. -/
theorem rxSrc_srcField {b : Src} (h : b.wf = true) : rxSrc (srcField b) (srcImm b) = b := by
  cases b with
  | reg s => exact rxSrc_of_ne (bne_iff_ne.1 h) _
  | imm v => exact rxSrc_sentinel v

/-- A well-formed instruction is what its operation and its fields spell. -/
theorem instrOf_fields {i : Instr} (h : i.wf = true) :
    instrOf i.opcode i.fields.1 i.fields.2.1 i.fields.2.2 = i := by
  cases i with
  | add _ b | sub _ b | adc _ b | sbc _ b | mul _ b | div _ b | mod _ b | cmp _ b | and _ b | or _ b
  | xor _ b | shl _ b | shr _ b | rol _ b | ror _ b =>
    simp only [instrOf, Instr.opcode, Instr.fields, rxSrc_srcField h]
  | halt | nop | loadi | mov | load | store | loadb | storeb | ldr | str | ldrb | strb | not | jmp | jz
  | jnz | jn | jnn | jc | jnc | jo | jno | call | ret | push | pop | int | iret | syscall | yield | fpush
  | fpop | fadd | fsub | fmul | fdiv => rfl

/-! The cases of the decoder (30_encoding.md R133, R135). -/

section

variable {m : OpcodeMap} {adm : Bool} {w : Word} {op : Opcode}

theorem decodeWord_of_unassigned (h : m.opcodeOf (opField w) = none) :
    decodeWord m adm w = .error (.unassignedOpcode (opField w)) := by
  simp [decodeWord, h]

theorem decodeWord_of_notAdmitted (h : m.opcodeOf (opField w) = some op)
    (ha : op.basis = .decided ∧ adm = false) : decodeWord m adm w = .error (.notAdmitted op) := by
  simp [decodeWord, h, ha]

theorem decodeWord_of_admitted (h : m.opcodeOf (opField w) = some op)
    (ha : ¬(op.basis = .decided ∧ adm = false)) :
    decodeWord m adm w = .ok (instrOf op (dstField w) (srcFieldOf w) (immField w)) := by
  simp only [decodeWord, h, if_neg ha]

/-- Where `decided` operations are admitted, the opcode byte decides alone. -/
theorem decodeWord_true (h : m.opcodeOf (opField w) = some op) :
    decodeWord m true w = .ok (instrOf op (dstField w) (srcFieldOf w) (immField w)) :=
  decodeWord_of_admitted h fun ha => Bool.noConfusion ha.2

end

/-- The byte decoder reads the bytes of a word as the word. -/
theorem decode_bytesOfWord (m : OpcodeMap) (adm : Bool) (w : Word) (rest : List Byte) :
    decode m adm (bytesOfWord w ++ rest) = (decodeWord m adm w).map fun i => (i, rest) := by
  simp only [bytesOfWord, List.cons_append, List.nil_append, Machine.decode_eq_decodeWord,
    Machine.wordOfBytes_byteOfWord]

/-! The round trip. -/

/-- The encoder packs the instruction's fields behind its opcode byte. -/
theorem encode_eq_some {m : OpcodeMap} {i : Instr} {w : Word} (h : encode m i = some w) :
    ∃ b, m.byteOf i.opcode = some b ∧ w = packFields b i.fields.1 i.fields.2.1 i.fields.2.2 := by
  unfold encode at h
  split at h
  · cases h
  · next b hb => exact ⟨b, hb, (Option.some.inj h).symm⟩

theorem encode_isSome {m : OpcodeMap} {i : Instr} (h : (m.byteOf i.opcode).isSome = true) :
    (encode m i).isSome = true := by
  obtain ⟨b, hb⟩ := Option.isSome_iff_exists.1 h
  simp [encode, hb]

theorem decodeWord_encode {m : OpcodeMap} {i : Instr} {w : Word} (hm : m.Unambiguous) (hi : i.wf = true)
    (h : encode m i = some w) : decodeWord m true w = .ok i := by
  obtain ⟨b, hb, rfl⟩ := encode_eq_some h
  have hop : m.opcodeOf (opField (packFields b i.fields.1 i.fields.2.1 i.fields.2.2)) = some i.opcode := by
    rw [opField_packFields]
    exact OpcodeMap.opcodeOf_of_byteOf hm hb
  rw [decodeWord_true hop, dstField_packFields, srcFieldOf_packFields, immField_packFields, instrOf_fields hi]

/-- Settles O2: the word by the round trip of opcode and fields, its bytes by the byte decoder's reading of
them, and the default map operation by operation. -/
theorem decodeEncodeEveryInstruction : Obligations.DecodeEncodeEveryInstruction := by
  refine ⟨fun m i w hm hi h => ?_, OpcodeMap.default_unambiguous, fun i => ?_⟩
  · have hw := decodeWord_encode hm hi h
    exact ⟨hw, fun rest => by rw [decode_bytesOfWord, hw]; rfl⟩
  · exact encode_isSome (OpcodeMap.default_byteOf_isSome i.opcode)

end Sys2Proof
end

section
/-!
PROOFS. The opcode table (30_encoding.md R132): under the default numbering the opcode byte names the row, and the
row's form takes its fields; which bytes have no row (R133).
-/

namespace Sys2Proof

/-- Under the default numbering a word spells the row its opcode byte names. -/
theorem decodeWord_default {w : Word} {b : Byte} {op : Opcode} (hw : opField w = b)
    (hb : OpcodeMap.default.opcodeOf b = some op) :
    decodeWord OpcodeMap.default true w = .ok (instrOf op (dstField w) (srcFieldOf w) (immField w)) :=
  decodeWord_true (hw ▸ hb)

/-- Settles O3: row by row, the operation is looked up at its byte and takes the fields of its form. -/
theorem opcodeTableDecodes : Obligations.OpcodeTableDecodes := by
  intro w d r imm b reads
  and_intros <;> exact fun h => (decodeWord_default h rfl :)

/-- A word given by its bits spells the row its opcode byte names. -/
theorem decodeTableWord_default {n : Nat} {op : Opcode}
    (h : OpcodeMap.default.opcodeOf (opField (BitVec.ofNat 32 (n % 2 ^ 32))) = some op) :
    decodeTableWord 32 n = some (instrOf op (dstField (BitVec.ofNat 32 (n % 2 ^ 32)))
      (srcFieldOf (BitVec.ofNat 32 (n % 2 ^ 32))) (immField (BitVec.ofNat 32 (n % 2 ^ 32)))) := by
  have hd := decode_bytesOfWord OpcodeMap.default true (BitVec.ofNat 32 (n % 2 ^ 32)) []
  rw [List.append_nil, decodeWord_default rfl h] at hd
  simp only [decodeTableWord, hd, Except.map]

/-- Settles O7: the opcode byte of each word names its row, and the row takes the word's fields. -/
theorem sampleWordsDecode : Obligations.SampleWordsDecode := by
  and_intros <;> exact Eq.trans (decodeTableWord_default rfl) rfl

/-! Bytes without a row (30_encoding.md R133), and words that are no instruction (R135). -/

theorem OpcodeMap.opcodeOf_eq_none_iff {m : OpcodeMap} {b : Byte} :
    m.opcodeOf b = none ↔ b ∉ m.map Prod.fst := by
  induction m with
  | nil => simp [OpcodeMap.opcodeOf]
  | cons e rest ih =>
    by_cases he : e.1 = b
    · simp [OpcodeMap.opcodeOf, he]
    · simp [OpcodeMap.opcodeOf, he, ih, Ne.symm he]

theorem toNat_mem_map_toNat {n : Nat} {l : List (BitVec n)} {b : BitVec n} :
    b.toNat ∈ l.map BitVec.toNat ↔ b ∈ l := by
  simp only [List.mem_map, BitVec.toNat_inj, exists_eq_right]

/-- The rows of the default map fill the bytes from the start of each group. -/
theorem OpcodeMap.default_bytes : (OpcodeMap.default.map Prod.fst).map BitVec.toNat =
    List.range' 0x00 12 ++ List.range' 0x10 16 ++ List.range' 0x20 11 ++ List.range' 0x30 2
      ++ List.range' 0x40 4 ++ List.range' 0x50 6 :=
  rfl

theorem OpcodeMap.default_opcodeOf_eq_none_iff (b : Byte) : OpcodeMap.default.opcodeOf b = none ↔
    (0x0C ≤ b.toNat ∧ b.toNat ≤ 0x0F) ∨ (0x2B ≤ b.toNat ∧ b.toNat ≤ 0x2F)
    ∨ (0x32 ≤ b.toNat ∧ b.toNat ≤ 0x3F) ∨ (0x44 ≤ b.toNat ∧ b.toNat ≤ 0x4F) ∨ 0x56 ≤ b.toNat := by
  have hlt := b.isLt
  rw [OpcodeMap.opcodeOf_eq_none_iff, ← toNat_mem_map_toNat, OpcodeMap.default_bytes]
  simp only [List.mem_append, List.mem_range'_1]
  omega

theorem decodeWord_eq_error_iff {m : OpcodeMap} {adm : Bool} {w : Word} :
    (∃ e, decodeWord m adm w = .error e) ↔
      m.opcodeOf (opField w) = none
      ∨ (adm = false ∧ ∃ op, m.opcodeOf (opField w) = some op ∧ op.basis = .decided) := by
  cases h : m.opcodeOf (opField w) with
  | none => simp [decodeWord_of_unassigned h]
  | some op =>
    by_cases ha : op.basis = .decided ∧ adm = false
    · obtain ⟨hb, rfl⟩ := ha
      simp [decodeWord_of_notAdmitted h ⟨hb, rfl⟩, hb]
    · simp only [decodeWord_of_admitted h ha, reduceCtorEq, exists_false, Option.some.injEq, exists_eq_left',
        false_or, false_iff]
      exact fun hd => ha hd.symm

end Sys2Proof
end

section
/-!
PROOFS. The operand forms (30_encoding.md R124 to R129): what of a word an operation reads, and what the src field
of 15 means to it.
-/

namespace Sys2Proof.Machine

open Sys2Proof

/-! Unused fields (30_encoding.md R125). -/

/-- The RX operand reads the immediate only at the sentinel. -/
theorem rxSrc_congr {s : RegIdx} {imm imm' : Half} (h : s = 15#4 → imm = imm') :
    rxSrc s imm = rxSrc s imm' := by
  unfold rxSrc
  split
  · next hs => rw [h hs]
  · rfl

/-- An operation spells the same instruction with every word that agrees in the fields of its form. -/
theorem instrOf_congr {op : Opcode} {w w' : Word} (h : (formOf op).agree w w') :
    instrOf op (dstField w) (srcFieldOf w) (immField w) =
      instrOf op (dstField w') (srcFieldOf w') (immField w') := by
  cases op with
  | halt | nop | ret | iret | syscall | yield | fadd | fsub | fmul | fdiv => rfl
  | not | push | pop | fpush | fpop => exact congrArg _ h
  | jmp | jz | jnz | jn | jnn | jc | jnc | jo | jno | call | int => exact congrArg _ h
  | mov | loadi | load | store | loadb | storeb =>
    obtain ⟨hd, hf⟩ := h
    simp only [instrOf, hd, hf]
  | ldr | str | ldrb | strb =>
    obtain ⟨hd, hs, hi⟩ := h
    simp only [instrOf, hd, hs, hi]
  | add | sub | adc | sbc | mul | div | mod | cmp | and | or | xor | shl | shr | rol | ror =>
    obtain ⟨hd, hs, hi⟩ := h
    have hb : rxSrc (srcFieldOf w) (immField w) = rxSrc (srcFieldOf w') (immField w') := by
      rw [rxSrc_congr hi, hs]
    simp only [instrOf, hd, hb]

/-- Settles O4: an unassigned or unadmitted opcode byte decides alone, and otherwise the form's fields do. -/
theorem unusedFieldsAreIgnored : Obligations.UnusedFieldsAreIgnored := by
  intro m adm w w' hop hform
  cases h : m.opcodeOf (opField w) with
  | none => rw [decodeWord_of_unassigned h, decodeWord_of_unassigned (hop ▸ h), hop]
  | some op =>
    have h' : m.opcodeOf (opField w') = some op := hop ▸ h
    by_cases ha : op.basis = .decided ∧ adm = false
    · rw [decodeWord_of_notAdmitted h ha, decodeWord_of_notAdmitted h' ha]
    · rw [decodeWord_of_admitted h ha, decodeWord_of_admitted h' ha, instrOf_congr (hform op h)]

/-! The sentinel (30_encoding.md R126, R129). -/

theorem State.operand_rxSrc (s : State) (r : RegIdx) (imm : Half) :
    s.operand (rxSrc r imm) =
      if r = 15#4 then (if s.params.immAluExt = .sext then imm.signExtend 32 else imm.setWidth 32)
      else s.readReg r := by
  by_cases hr : r = 15#4
  · subst hr
    rw [if_pos rfl, rxSrc_sentinel, State.operand]
    cases s.params.immAluExt <;> rfl
  · rw [if_neg hr, rxSrc_of_ne hr, State.operand]

theorem formOf_eq_rx_iff (op : Opcode) :
    formOf op = .rx ↔ op ∈ [.add, .sub, .adc, .sbc, .mul, .div, .mod, .cmp, .and, .or, .xor, .shl, .shr, .rol,
      .ror] := by
  cases op <;> decide

theorem formOf_eq_rr_iff (op : Opcode) : formOf op = .rr ↔ op = .mov := by
  cases op <;> decide

theorem formOf_eq_rb_iff (op : Opcode) : formOf op = .rb ↔ op ∈ [.ldr, .str, .ldrb, .strb] := by
  cases op <;> decide

/-- Settles O5: the operand at and off the sentinel, then the operations of each form in turn. -/
theorem sentinelSelectsTheImmediate : Obligations.SentinelSelectsTheImmediate := by
  refine ⟨State.operand_rxSrc, fun op d r imm => ⟨formOf_eq_rx_iff op, fun h => ?_, fun h => ?_, fun h => ?_⟩⟩
  · exact List.mem_map_of_mem (f := fun op => instrOf op d 15#4 imm) ((formOf_eq_rx_iff op).1 h)
  · rw [(formOf_eq_rr_iff op).1 h, instrOf]
  · exact List.mem_map_of_mem (f := fun op => instrOf op d r imm) ((formOf_eq_rb_iff op).1 h)

end Sys2Proof.Machine
end

section
/-!
PROOFS. The instruction cycle where the fetch reads plain memory (30_encoding.md R140): the word decodes, and the
instruction runs, or the engine halts with nothing of it performed (R133, 60_exceptions.md R405).
-/

namespace Sys2Proof.Machine

open Sys2Proof

section

variable {s s1 : State} {p : Nat}

theorem State.engineStep_of_decodes {i : Instr} (h : s.Reaches s.pc .word .fetch p s1)
    (hd : decodeWord s.params.opcodeMap s.params.admitDecided (memRead s1.mem p .word) = .ok i) :
    s.engineStep = settleOutcome s (exec i (s1.cacheRead s.pc (memRead s1.mem p .word))) := by
  simp only [State.engineStep, State.fetch, State.load_of_reaches h, hd]

theorem State.engineStep_of_illegal {e : DecodeError} (h : s.Reaches s.pc .word .fetch p s1)
    (hd : decodeWord s.params.opcodeMap s.params.admitDecided (memRead s1.mem p .word) = .error e) :
    s.engineStep = .next (settle s ((s1.cacheRead s.pc (memRead s1.mem p .word)).haltWith s
      (.unimplementedOpcode s.pc (memRead s1.mem p .word)))) := by
  simp only [State.engineStep, State.fetch, State.load_of_reaches h, hd]

end

/-! The step of each loop that is one of the engine (30_encoding.md R141, 60_exceptions.md R447). -/

theorem step_of_run {s : State} (hd : s.driver = .run) (hh : s.halted = false) (hs : s.suspend = .none) :
    step s = s.engineStep := by
  simp [step, State.driverStep, State.runStep, hd, hh, hs]

theorem step_of_sched {s : State} {id : Nat} (hd : s.driver = .sched) (hr : s.running = some id)
    (hh : s.halted = false) (hs : s.suspend = .none) (hp : s.preemptsNow = false) : step s = s.engineStep := by
  simp [step, State.driverStep, State.schedStep, State.threadStep, hd, hr, hh, hs, hp]

/-- Settles O9: under either loop the step is the engine's, which runs what the fetched word decodes to. -/
theorem stepRunsTheDecodedInstruction : Obligations.StepRunsTheDecodedInstruction := by
  constructor
  · intro s s1 p i hd hh hs h hi
    exact (step_of_run hd hh hs).trans (State.engineStep_of_decodes h hi)
  · intro s s1 id p i hd hr hh hs hp h hi
    exact (step_of_sched hd hr hh hs hp).trans (State.engineStep_of_decodes h hi)

/-! The hard stop. -/

theorem settle_outsideMemory (pre post : State) : (settle pre post).outsideMemory = post.outsideMemory := by
  rcases settle_cases pre post with h | h
  · rw [h]
  · rw [h]
    rfl

/-- Settling has nothing to undo where memory and pages are those of before. -/
theorem settle_eq_of_memory_eq {pre post : State} (hm : post.mem = pre.mem)
    (ht : post.pageTable = pre.pageTable) (hn : post.nextFreePPage = pre.nextFreePPage) :
    (settle pre post).mem = pre.mem ∧ (settle pre post).pageTable = pre.pageTable
    ∧ (settle pre post).nextFreePPage = pre.nextFreePPage := by
  rcases settle_cases pre post with h | h
  · rw [h]
    exact ⟨hm, ht, hn⟩
  · rw [h]
    simp [settleFaulted, keepsWrites, hm, ht, hn]

/-- A halt after the fetch leaves the state of before outside memory, halted. -/
theorem State.Reaches.haltWith_outsideMemory {s s1 : State} {a : Word} {w : Width} {k : AccessKind} {p : Nat}
    (h : s.Reaches a w k p s1) (v : Word) (f : FaultRec) :
    ((s1.cacheRead a v).haltWith s f).outsideMemory = (s.haltedBy f).outsideMemory := by
  rw [h.eq]
  rfl

/-- With paging off an access reaches its bytes in the state of before. -/
theorem State.Reaches.eq_of_off {s s1 : State} {a : Word} {w : Width} {k : AccessKind} {p : Nat}
    (h : s.Reaches a w k p s1) (hp : s.pagingEnabled = false) : s1 = s := by
  obtain ⟨_, ht, _⟩ := h
  rw [State.translate_of_off hp] at ht
  exact (Prod.mk.inj (Option.some.inj ht)).2.symm

/-- Settles O6: the bytes without a row, the decoder's two rejections, and the halt that the cycle makes of one. -/
theorem illegalOpcodeIsAHardStop : Obligations.IllegalOpcodeIsAHardStop := by
  refine ⟨OpcodeMap.default_opcodeOf_eq_none_iff, fun m adm w => decodeWord_eq_error_iff,
    fun s s1 p e h hd => ?_⟩
  rw [← memRead_eq_valueAt] at hd ⊢
  refine ⟨_, State.engineStep_of_illegal h hd, ?_, fun hp => ?_⟩
  · rw [settle_outsideMemory, h.haltWith_outsideMemory]
  · obtain rfl := h.eq_of_off hp
    exact settle_eq_of_memory_eq rfl rfl rfl

end Sys2Proof.Machine
end

section
/-!
PROOFS. `run` (30_encoding.md R141, 10_state.md R64): it repeats the engine's step until that may not be taken or
the budget is spent, and two runs one after the other are one run of both budgets.
-/

namespace Sys2Proof.Machine

open Sys2Proof

theorem State.canStep_iff (s : State) : s.canStep = true ↔ s.halted = false ∧ s.suspend = .none := by
  simp [State.canStep]

theorem State.canStep_eq_false_iff (s : State) :
    s.canStep = false ↔ s.halted = true ∨ s.suspend ≠ .none := by
  simp [State.canStep, Classical.or_iff_not_imp_left]

theorem State.stopReason_eq_budget_iff (s : State) : s.stopReason = .budget ↔ s.canStep = true := by
  rw [State.canStep_iff]
  cases hh : s.halted <;> cases hs : s.suspend <;> simp [State.stopReason, hh, hs]

/-! The cases of `run`. -/

theorem State.run_zero (s : State) : State.run 0 s = .next (s.stopReason, s) :=
  rfl

theorem State.run_of_stopped (n : Nat) {s : State} (h : s.canStep = false) :
    State.run n s = .next (s.stopReason, s) := by
  cases n with
  | zero => rfl
  | succ n => simp [State.run, h]

theorem State.run_succ (n : Nat) {s t : State} (h : s.canStep = true) (ht : s.engineStep = .next t) :
    State.run (n + 1) s = State.run n t := by
  simp [State.run, h, ht]

/-- The engine's step always answers a next state. -/
theorem State.engineStep_next (s : State) : ∃ t, s.engineStep = .next t := by
  obtain ⟨_, _, _, h, _⟩ := s.engineStep_performs
  exact ⟨_, h⟩

/-- So does `run`, with the reason of the state it stopped in. -/
theorem State.run_next (n : Nat) (s : State) : ∃ t, State.run n s = .next (t.stopReason, t) := by
  induction n generalizing s with
  | zero => exact ⟨s, rfl⟩
  | succ n ih =>
    cases hc : s.canStep with
    | false => exact ⟨s, State.run_of_stopped _ hc⟩
    | true =>
      obtain ⟨t, ht⟩ := s.engineStep_next
      rw [State.run_succ n hc ht]
      exact ih t

/-- A run entered again where one stopped goes on as the longer run does. -/
theorem State.run_add {n k : Nat} {s t : State} {r : StopReason} (h : State.run n s = .next (r, t)) :
    State.run (n + k) s = State.run k t := by
  induction n generalizing s with
  | zero =>
    obtain ⟨_, rfl⟩ := Prod.mk.inj (Host.Outcome.next.inj h)
    rw [Nat.zero_add]
  | succ n ih =>
    cases hc : s.canStep with
    | false =>
      rw [State.run_of_stopped _ hc] at h
      obtain ⟨_, rfl⟩ := Prod.mk.inj (Host.Outcome.next.inj h)
      rw [State.run_of_stopped _ hc, State.run_of_stopped _ hc]
    | true =>
      obtain ⟨u, hu⟩ := s.engineStep_next
      rw [State.run_succ n hc hu] at h
      rw [Nat.add_right_comm, State.run_succ _ hc hu, ih h]

/-- Settles O11: the cases of `run`, its answer by induction on the budget, and the run entered again. -/
theorem runRepeatsStep : Obligations.RunRepeatsStep := by
  refine ⟨State.run_zero, fun n s h => State.run_of_stopped n (s.canStep_eq_false_iff.2 h),
    fun n s t hh hs ht => State.run_succ n (s.canStep_iff.2 ⟨hh, hs⟩) ht, fun n s => ?_,
    fun n k s t r h => State.run_add h⟩
  obtain ⟨t, ht⟩ := State.run_next n s
  exact ⟨_, t, ht, rfl, t.stopReason_eq_budget_iff.trans t.canStep_iff⟩

end Sys2Proof.Machine
end

section
/-!
PROOFS. Register data movement (40_data_movement.md): the state after LOADI and after MOV.
-/

namespace Sys2Proof.Machine

open Sys2Proof

/-- `sext_32` on numbers (00_scope.md R11): a half word with bit 15 set gets the upper half all ones. -/
theorem sext32_eq_ofNat (v : Half) :
    sext32 v = BitVec.ofNat 32 (if v.toNat < 0x8000 then v.toNat else v.toNat + 0xFFFF0000) := by
  have hv : v.toNat < 2 ^ 16 := v.isLt
  apply BitVec.eq_of_toNat_eq
  simp only [sext32, BitVec.toNat_signExtend, BitVec.toNat_setWidth, BitVec.msb_eq_decide,
    decide_eq_true_eq, BitVec.toNat_ofNat]
  by_cases h : v.toNat < 0x8000
  · rw [if_pos h, if_neg (by omega)]
    omega
  · rw [if_neg h, if_pos (by omega)]
    omega

/-- An instruction that completes having written one register, and no flag, changes that register alone. -/
theorem State.writeReg_complete (s : State) (d : RegIdx) (v pc : Word) :
    (s.writeReg d v).complete pc = s.after (s.regsWith d v) s.flags s.fst pc :=
  (s.writeReg d v).complete_eq_after pc

theorem exec_loadi (s : State) (d : RegIdx) (imm : Half) :
    exec (.loadi d imm) s = .next ((s.writeReg d (sext32 imm)).complete s.nextPc) :=
  rfl

theorem exec_mov (s : State) (d r : RegIdx) :
    exec (.mov d r) s = .next ((s.writeReg d (s.readReg r)).complete s.nextPc) :=
  rfl

/-- Settles O15: each writes one register and completes; LOADI's value is the sign extension as a number. -/
theorem loadiAndMovResults : Obligations.LoadiAndMovResults := by
  refine ⟨fun s d imm => ?_, fun s d r => ?_⟩
  · rw [exec_loadi, State.writeReg_complete, sext32_eq_ofNat, State.nextPc]
  · rw [exec_mov, State.writeReg_complete, State.nextPc]

end Sys2Proof.Machine
end

section
/-!
PROOFS. Loads and stores (41_load_store.md R170 to R177): the fault, memory and MMIO cases of an instruction's
first access, and the whole state each leaves.
-/

namespace Sys2Proof.Machine

open Sys2Proof

section

variable {s s1 t u : State} {i : Instr} {d : RegIdx} {a : Word} {w : Width} {k : AccessKind} {p : Nat}
  {f : FaultRec} {dev : MmioRange}

/-! An instruction whose first access faults. -/

/-- What `accessFault` says is raised, by a load and by a store of any value. -/
theorem State.faultsWith_of_accessFault (h : s.accessFault a w k = some f) : ∃ u, s.FaultsWith a w k f u := by
  obtain ⟨u, hu⟩ := ((accessFaultsInOrder.1 s a w k).1 f).1 h
  exact ⟨u, State.load_trap_iff.1 hu⟩

/-- An instruction that pops halts where the pop's load faults. -/
theorem State.pop32_orHalt_of_load_trap (h : s.load (s.readReg spIndex) .word .load = .trap f t) (pre : State)
    (k : Word → State → Host.Outcome State Fault Refusal) : s.pop32.orHalt pre k = .next (t.haltWith pre f) := by
  simp only [State.pop32, h, Res.orHalt]

/-- A load instruction halts where its load faults. -/
theorem State.loadInto_of_load_trap (h : s.load a w .load = .trap f t) :
    s.loadInto d a w = .next (t.haltWith s f) := by
  simp only [State.loadInto, h, Res.orHalt]

/-- An instruction whose first access is a load halts where that load faults. -/
theorem exec_of_load_trap (hi : firstAccess s i = some (.load, a, w)) (h : s.load a w .load = .trap f t) :
    exec i s = .next (t.haltWith s f) := by
  cases i with
  | load | loadb | ldr | ldrb =>
    cases hi
    exact State.loadInto_of_load_trap h
  | pop | ret | iret =>
    cases hi
    exact State.pop32_orHalt_of_load_trap h s _
  | _ => exact nomatch hi

theorem firstAccess_ne_fetch : firstAccess s i ≠ some (.fetch, a, w) := by
  intro hi
  cases i with
  | _ => exact nomatch hi

/-- An instruction halts where its first access faults. -/
theorem exec_of_faultsWith (hi : firstAccess s i = some (k, a, w)) (h : s.FaultsWith a w k f t) :
    exec i s = .next (t.haltWith s f) := by
  cases k with
  | fetch => exact absurd hi firstAccess_ne_fetch
  | load => exact exec_of_load_trap hi (State.load_trap_iff.2 h)
  | store => exact exec_of_store_trap hi fun _ => State.store_trap_iff.2 h

/-- It halts with the fault `accessFault` says, and nothing but memory and pages is changed, by the
translation of the address (60_exceptions.md R402). -/
theorem exec_of_accessFault (hi : firstAccess s i = some (k, a, w)) (h : s.accessFault a w k = some f) :
    ∃ u, s.Touched a u ∧ exec i s = .next (u.haltedBy f) := by
  obtain ⟨u, hu⟩ := State.faultsWith_of_accessFault h
  exact ⟨u, hu.touched, hu.touched.haltWith f ▸ exec_of_faultsWith hi hu⟩

/-! What is left of the state after an access that succeeds. -/

/-- A load that reached memory and whose value went to `d` changed that register alone. -/
theorem State.Reaches.loaded_eq_after (h : s.Reaches a w k p s1) (d : RegIdx) (v pc : Word) :
    ((s1.cacheRead a v).writeReg d v).complete pc =
      (s1.cacheRead a v).after (s.regsWith d v) s.flags s.fst pc := by
  rw [h.eq]
  rfl

/-- The bytes after a store in place (20_memory.md R72, R76). -/
theorem State.byteAt_writePlain (s : State) (a : Word) (p : Nat) (w : Width) (v : Word) (q : Nat) :
    (s.writePlain a p w v).byteAt q =
      if p ≤ q ∧ q < p + w.bytes then v.extractLsb' (8 * (q - p)) 8 else s.byteAt q :=
  memByte_memWrite s.mem p q w v

/-- The bytes of every state an instruction ends in are those of the one it is known to end in. -/
theorem byteAt_of_exec (h : exec i s = .next u) (hu : ∀ q, u.byteAt q = s1.byteAt q) :
    ∀ t, exec i s = .next t → ∀ q, t.byteAt q = s1.byteAt q := by
  intro t ht
  rwa [← Host.Outcome.next.inj (h.symm.trans ht)]

/-! Load instructions. -/

theorem exec_of_loadForm (hi : loadForm s i = some (d, a, w)) :
    exec i s = s.loadInto d a w ∧ firstAccess s i = some (.load, a, w) := by
  cases i with
  | load | loadb | ldr | ldrb =>
    cases hi
    exact ⟨rfl, rfl⟩
  | _ => exact nomatch hi

/-- A load instruction in an MMIO range writes the handler's answer. -/
theorem State.loadInto_of_reachesDevice (d : RegIdx) (hr : s.ReachesDevice a w .load dev) :
    s.loadInto d a w = .next ((s.sendDevice (dev.request a w none)).after
      (s.regsWith d (cutTo (Config.mmioAnswer s.draws (dev.request a w none)) w)) s.flags s.fst s.nextPc) := by
  simp only [State.loadInto, State.load_of_reachesDevice hr, Res.orHalt]
  rfl

/-! Store instructions. -/

theorem exec_of_storeForm (hi : storeForm s i = some (d, a, w)) :
    exec i s = s.storeFrom d a w ∧ firstAccess s i = some (.store, a, w) := by
  cases i with
  | store | storeb | str | strb =>
    cases hi
    exact ⟨rfl, rfl⟩
  | _ => exact nomatch hi

/-- A store instruction in an MMIO range sends the low bytes of its register. -/
theorem State.storeFrom_of_reachesDevice (d : RegIdx) (hr : s.ReachesDevice a w .store dev) :
    s.storeFrom d a w = .next ((s.sendDevice (dev.request a w (some (cutTo (s.readReg d) w)))).after
      s.regs s.flags s.fst s.nextPc) := by
  simp only [State.storeFrom, State.store_of_reachesDevice hr, Res.orHalt]
  rfl

end

/-- Settles O23: every load form is `loadInto`, whose load faults, reaches memory or reaches a handler. -/
theorem loadsFollowTheirRules : Obligations.LoadsFollowTheirRules := by
  intro s i d a w hi
  obtain ⟨hexec, hfirst⟩ := exec_of_loadForm hi
  refine ⟨fun f => exec_of_accessFault hfirst, fun p s1 hr => ?_, fun h hr => ?_⟩
  · have hx := hexec.trans (State.loadInto_of_reaches d hr)
    rw [hr.loaded_eq_after, memRead_eq_valueAt] at hx
    exact ⟨hx, byteAt_of_exec hx fun _ => rfl⟩
  · exact ⟨_, cutTo_lt _ w, hexec.trans (State.loadInto_of_reachesDevice d hr)⟩

/-- Settles O24: every store form is `storeFrom`, whose store faults, reaches memory or reaches a handler. -/
theorem storesFollowTheirRules : Obligations.StoresFollowTheirRules := by
  intro s i d a w hi
  obtain ⟨hexec, hfirst⟩ := exec_of_storeForm hi
  refine ⟨fun f => exec_of_accessFault hfirst, fun p s1 hr => ?_, fun h hr => ?_⟩
  · obtain ⟨hcache, hhits, hmisses, hlog⟩ : s1.cache = s.cache ∧ s1.cacheHits = s.cacheHits
        ∧ s1.cacheMisses = s.cacheMisses ∧ s1.deviceLog = s.deviceLog := by
      rw [hr.eq]
      exact ⟨rfl, rfl, rfl, rfl⟩
    refine ⟨_, hexec.trans (State.storeFrom_of_reaches d hr), ?_, s1.byteAt_writePlain a p w _, rfl, rfl,
      congrArg (Assoc.erase · a.toNat) hcache, hhits, hmisses, hlog⟩
    rw [hr.eq]
    rfl
  · rw [hexec, ← cutTo_eq_ofNat_mod]
    exact State.storeFrom_of_reachesDevice d hr

end Sys2Proof.Machine
end

section
/-!
PROOFS. The integer stack (41_load_store.md R178, R179, 00_scope.md R14): PUSH and POP in the fault, memory and
MMIO cases of their access.
-/

namespace Sys2Proof.Machine

open Sys2Proof

section

variable {s s1 : State} {d : RegIdx} {p : Nat} {dev : MmioRange}

/-! Push32 and Pop32 where their access succeeds. -/

theorem State.push32_of_reaches (v : Word) (hr : s.Reaches (s.readReg spIndex - 4#32) .word .store p s1) :
    s.push32 v = .ok () ((s1.writePlain (s.readReg spIndex - 4#32) p .word v).writeReg spIndex
      (s.readReg spIndex - 4#32)) := by
  simp only [State.push32, State.store_of_reaches v hr]

theorem State.push32_of_reachesDevice (v : Word)
    (hr : s.ReachesDevice (s.readReg spIndex - 4#32) .word .store dev) :
    s.push32 v = .ok () ((s.sendDevice (dev.request (s.readReg spIndex - 4#32) .word (some v))).writeReg spIndex
      (s.readReg spIndex - 4#32)) := by
  simp only [State.push32, State.store_of_reachesDevice hr, cutTo]

theorem State.pop32_of_reaches (hr : s.Reaches (s.readReg spIndex) .word .load p s1) :
    s.pop32 = .ok (s1.valueAt p .word) ((s1.cacheRead (s.readReg spIndex) (s1.valueAt p .word)).writeReg spIndex
      (s.readReg spIndex + 4#32)) := by
  simp only [State.pop32, State.load_of_reaches hr, memRead_eq_valueAt]

theorem State.pop32_of_reachesDevice (hr : s.ReachesDevice (s.readReg spIndex) .word .load dev) :
    s.pop32 = .ok (Config.mmioAnswer s.draws (dev.request (s.readReg spIndex) .word none))
      ((s.sendDevice (dev.request (s.readReg spIndex) .word none)).writeReg spIndex
        (s.readReg spIndex + 4#32)) := by
  simp only [State.pop32, State.load_of_reachesDevice hr, cutTo]

/-! PUSH and POP after it. -/

theorem exec_push_of_ok {t : State} (h : s.push32 (s.readReg d) = .ok () t) :
    exec (.push d) s = .next (t.complete s.nextPc) := by
  show execPush d s = _
  rw [execPush, h, Res.orHalt]

theorem exec_pop_of_ok {t : State} {v : Word} (h : s.pop32 = .ok v t) :
    exec (.pop d) s = .next ((t.writeReg d v).complete s.nextPc) := by
  show execPop d s = _
  rw [execPop, h, Res.orHalt]

end

/-- Settles O33: each is its stack access, which faults, reaches memory or reaches a handler. -/
theorem pushAndPopFollowTheirRules : Obligations.PushAndPopFollowTheirRules := by
  refine ⟨fun s d => ⟨fun f => exec_of_accessFault rfl, fun p s1 hr => ?_, fun h hr => ?_⟩,
    fun s d => ⟨fun f => exec_of_accessFault rfl, fun p s1 hr => ?_, fun h hr => ?_⟩⟩
  · refine ⟨_, exec_push_of_ok (State.push32_of_reaches _ hr), ?_,
      s1.byteAt_writePlain (s.readReg spIndex - 4#32) p .word _, rfl, rfl⟩
    rw [hr.eq]
    rfl
  · exact exec_push_of_ok (State.push32_of_reachesDevice _ hr)
  · have hx := exec_pop_of_ok (d := d) (State.pop32_of_reaches hr)
    refine ⟨hx.trans ?_, byteAt_of_exec hx fun _ => rfl⟩
    rw [hr.eq]
    rfl
  · exact ⟨_, exec_pop_of_ok (State.pop32_of_reachesDevice hr)⟩

end Sys2Proof.Machine
end

section
/-!
PROOFS. N pushes and then N pops in plain memory (41_load_store.md R180): each pop reads the word that its push
wrote, for the pushes and pops between the two keep to the words below it.
-/

namespace Sys2Proof.Machine

open Sys2Proof

/-! Lists of instructions. -/

theorem execList_cons_of_next {i : Instr} {is : List Instr} {s t : State} (h : exec i s = .next t) :
    execList (i :: is) s = execList is t := by
  rw [execList, h]

theorem execList_append_of_next {is js : List Instr} {s t : State} (h : execList is s = .next t) :
    execList (is ++ js) s = execList js t := by
  induction is generalizing s with
  | nil => rw [List.nil_append, Host.Outcome.next.inj h]
  | cons i is ih =>
    obtain ⟨u, hu, _⟩ := exec_performs i s
    rw [execList_cons_of_next hu] at h
    rw [List.cons_append, execList_cons_of_next hu, ih h]

/-! The words below R14. -/

/-- The address of word `k` below R14, which push number `k` from here on writes. -/
def State.stackWord (s : State) (k : Nat) : Word :=
  s.readReg 14#4 - BitVec.ofNat 32 (4 * (k + 1))

/-- The `n` words below R14 are plain memory, for pushes and for pops. -/
def State.PlainStack (s : State) (n : Nat) : Prop :=
  ∀ k, k < n → s.PlainWord (s.stackWord k) .store ∧ s.PlainWord (s.stackWord k) .load

/-- The byte address `q` is in none of the `n` words below R14. -/
def State.OffStack (s : State) (n q : Nat) : Prop :=
  ∀ k, k < n → ¬((s.stackWord k).toNat ≤ q ∧ q < (s.stackWord k).toNat + 4)

theorem State.stackWord_zero (s : State) : s.stackWord 0 = s.readReg 14#4 - 4#32 :=
  rfl

/-- Once R14 has moved down by a word, word `k` below it is what word `k + 1` was. -/
theorem State.stackWord_of_moved {s t : State} (h : t.readReg 14#4 = s.stackWord 0) (k : Nat) :
    t.stackWord k = s.stackWord (k + 1) := by
  unfold State.stackWord at h ⊢
  rw [h]
  bv_omega

theorem State.PlainWord.of_control {s t : State} {a : Word} {k : AccessKind} (h : s.PlainWord a k)
    (hc : t.control = s.control) : t.PlainWord a k := by
  simp only [State.control, Prod.mk.injEq] at hc
  obtain ⟨hsize, hpaging, hregions, hmmio, _, hparams⟩ := hc
  exact h.congr hregions hmmio hpaging hsize hparams

theorem State.PlainWord.aligned {s : State} {a : Word} {k : AccessKind} (h : s.PlainWord a k) :
    a.toNat % 4 = 0 := by
  obtain ⟨⟨hm, _, _⟩, _, _⟩ := h
  exact Classical.not_not.1 fun h => misaligned_eq_false_iff.1 hm ⟨rfl, h⟩

/-- The words of a plain stack do not overlap. -/
theorem State.PlainStack.offStack_of_word_zero {s t : State} {n q : Nat} (h : s.PlainStack (n + 1))
    (hn : n + 1 ≤ 2 ^ 30) (ht : t.readReg 14#4 = s.stackWord 0) (hlo : (s.stackWord 0).toNat ≤ q)
    (hhi : q < (s.stackWord 0).toNat + 4) : t.OffStack n q := by
  rintro k hk ⟨hlo', hhi'⟩
  rw [State.stackWord_of_moved ht] at hlo' hhi'
  have hzero := (h 0 (Nat.succ_pos n)).1.aligned
  have hk' := (h (k + 1) (Nat.succ_lt_succ hk)).1.aligned
  have heq : (s.stackWord 0).toNat = (s.stackWord (k + 1)).toNat := by omega
  unfold State.stackWord at heq
  bv_omega

theorem State.PlainStack.tail {s t : State} {n : Nat} (h : s.PlainStack (n + 1))
    (ht : t.readReg 14#4 = s.stackWord 0) (hc : t.control = s.control) : t.PlainStack n := by
  intro k hk
  rw [State.stackWord_of_moved ht]
  obtain ⟨hstore, hload⟩ := h (k + 1) (Nat.succ_lt_succ hk)
  exact ⟨hstore.of_control hc, hload.of_control hc⟩

theorem State.OffStack.tail {s t : State} {n q : Nat} (h : s.OffStack (n + 1) q)
    (ht : t.readReg 14#4 = s.stackWord 0) : t.OffStack n q := by
  intro k hk
  rw [State.stackWord_of_moved ht]
  exact h (k + 1) (Nat.succ_lt_succ hk)

/-! One push and one pop. -/

/-- `t` is `s` after a push of x[d] into plain memory. -/
structure State.Pushed (s : State) (d : RegIdx) (t : State) : Prop where
  regs : ∀ r, t.readReg r = if r = 14#4 then s.stackWord 0 else s.readReg r
  mem : t.mem = memWrite s.mem (s.stackWord 0).toNat .word (s.readReg d)
  control : t.control = s.control

/-- `t` is `s` after a pop to x[e] from plain memory. -/
structure State.Popped (s : State) (e : RegIdx) (t : State) : Prop where
  regs : ∀ r, t.readReg r = if r = e then memRead s.mem (s.readReg 14#4).toNat .word
    else if r = 14#4 then s.readReg 14#4 + 4#32 else s.readReg r
  mem : t.mem = s.mem
  control : t.control = s.control

theorem exec_push_of_plainWord {s : State} (d : RegIdx) (h : s.PlainWord (s.stackWord 0) .store) :
    ∃ t, exec (.push d) s = .next t ∧ s.Pushed d t :=
  ⟨_, exec_push_of_ok (State.push32_of_plainWord _ h),
    { regs := fun r => State.readReg_writeReg _ 14#4 r _, mem := rfl, control := rfl }⟩

theorem exec_pop_of_plainWord {s : State} (e : RegIdx) (h : s.PlainWord (s.readReg 14#4) .load) :
    ∃ t, exec (.pop e) s = .next t ∧ s.Popped e t :=
  ⟨_, exec_pop_of_ok (State.pop32_of_plainWord h),
    { regs := fun r => (State.readReg_writeReg _ e r _).trans
        (congrArg (ite (r = e) _) (State.readReg_writeReg _ 14#4 r _))
      mem := rfl, control := rfl }⟩

theorem State.Pushed.sp {s u : State} {d : RegIdx} (h : s.Pushed d u) : u.readReg 14#4 = s.stackWord 0 := by
  rw [h.regs, if_pos rfl]

/-- A push writes no byte off the stack. -/
theorem State.Pushed.bytes {s u : State} {d : RegIdx} {n q : Nat} (h : s.Pushed d u)
    (hq : s.OffStack (n + 1) q) : u.byteAt q = s.byteAt q := by
  rw [State.byteAt, h.mem, memByte_memWrite]
  exact if_neg (hq 0 (Nat.succ_pos n))

/-- The pushed word reads back where it was written. -/
theorem State.Pushed.read_word {s u : State} {d : RegIdx} (h : s.Pushed d u) :
    memRead u.mem (s.stackWord 0).toNat .word = s.readReg d := by
  rw [h.mem, memRead_memWrite_self, cutTo]

/-! Many pushes and as many pops. -/

/-- `t` is `s` after pushes of `ds` and pops to `es`: the popped registers hold the pushed values in reverse,
and the other registers, and the bytes off the stack, are as they were. -/
structure State.Reversed (s t : State) (ds es : List RegIdx) : Prop where
  popped : ∀ (k : Nat) (d e : RegIdx), k < ds.length → ds[k]? = some d → es[ds.length - 1 - k]? = some e →
    t.readReg e = if d = 14#4 then s.readReg 14#4 - BitVec.ofNat 32 (4 * k) else s.readReg d
  others : ∀ r, r ∉ es → t.readReg r = s.readReg r
  bytes : ∀ q, s.OffStack ds.length q → t.byteAt q = s.byteAt q
  control : t.control = s.control

theorem State.Reversed.nil (s : State) : s.Reversed s [] [] :=
  { popped := fun _ _ _ hk => absurd hk (Nat.not_lt_zero _)
    others := fun _ _ => rfl, bytes := fun _ _ => rfl, control := rfl }

section

variable {s u v t : State} {d e : RegIdx} {ds es : List RegIdx}

/-- The pushes and pops after a push leave R14 at its word. -/
theorem State.Reversed.sp (hu : s.Pushed d u) (hv : u.Reversed v ds es) (hes : 14#4 ∉ es) :
    v.readReg 14#4 = s.stackWord 0 :=
  (hv.others _ hes).trans hu.sp

/-- And they leave the word itself. -/
theorem State.Reversed.read_word (hu : s.Pushed d u) (hv : u.Reversed v ds es)
    (hp : s.PlainStack (ds.length + 1)) (hn : ds.length + 1 ≤ 2 ^ 30) :
    memRead v.mem (s.stackWord 0).toNat .word = s.readReg d := by
  rw [← hu.read_word]
  exact memRead_congr fun q hlo hhi => hv.bytes q (hp.offStack_of_word_zero hn hu.sp hlo hhi)

/-- The pop that matches the first push gets its value; the pops before it got theirs from the run between,
in which R14 stands one word lower. -/
theorem State.Reversed.popped_wrap (hu : s.Pushed d u) (hv : u.Reversed v ds es)
    (hlen : ds.length = es.length) (he : e ∉ es) (hes : 14#4 ∉ es) (hte : t.readReg e = s.readReg d)
    (ht : ∀ r, r ≠ e → r ≠ 14#4 → t.readReg r = v.readReg r) (k : Nat) (d' e' : RegIdx)
    (hk : k < (d :: ds).length) (hd : (d :: ds)[k]? = some d')
    (he' : (es ++ [e])[(d :: ds).length - 1 - k]? = some e') :
    t.readReg e' = if d' = 14#4 then s.readReg 14#4 - BitVec.ofNat 32 (4 * k) else s.readReg d' := by
  rw [List.length_cons] at hk he'
  cases k with
  | zero =>
    obtain rfl : d = d' := Option.some.inj hd
    obtain rfl : e = e' := by
      rw [Nat.sub_zero, Nat.add_sub_cancel, hlen, List.getElem?_concat_length] at he'
      exact Option.some.inj he'
    rw [hte]
    split
    · next h14 => rw [h14, Nat.mul_zero, BitVec.sub_zero]
    · rfl
  | succ k =>
    rw [Nat.add_sub_cancel, Nat.add_comm k, Nat.sub_add_eq, List.getElem?_append_left (by omega)] at he'
    have hmem : e' ∈ es := List.mem_of_getElem? he'
    have hkv := hv.popped k d' e' (Nat.lt_of_succ_lt_succ hk) hd he'
    rw [ht e' (fun h => he (h ▸ hmem)) (fun h => hes (h ▸ hmem)), hkv]
    split
    · rw [hu.sp, State.stackWord_zero]
      bv_omega
    · next h14 => rw [hu.regs, if_neg h14]

/-- A push before and a pop after a run that reverses make one that reverses. -/
theorem State.Reversed.wrap (hu : s.Pushed d u) (hv : u.Reversed v ds es) (ht : v.Popped e t)
    (hlen : ds.length = es.length) (he : e ∉ es) (hes : 14#4 ∉ es) (hp : s.PlainStack (ds.length + 1))
    (hn : ds.length + 1 ≤ 2 ^ 30) : s.Reversed t (d :: ds) (es ++ [e]) where
  popped := by
    refine hv.popped_wrap hu hlen he hes ?_ fun r hre hr14 => ?_
    · rw [ht.regs, if_pos rfl, hv.sp hu hes, hv.read_word hu hp hn]
    · rw [ht.regs, if_neg hre, if_neg hr14]
  others r hr := by
    rw [List.mem_append, List.mem_singleton, not_or] at hr
    obtain ⟨hres, hre⟩ := hr
    rw [ht.regs, if_neg hre]
    split
    · next h14 => rw [hv.sp hu hes, h14, State.stackWord_zero, BitVec.sub_add_cancel]
    · next h14 => rw [hv.others r hres, hu.regs, if_neg h14]
  bytes q hq := by
    rw [State.byteAt, ht.mem]
    exact (hv.bytes q (hq.tail hu.sp)).trans (hu.bytes hq)
  control := ht.control.trans (hv.control.trans hu.control)

end

/-- Pushes of `ds` and as many pops reverse, by induction on `ds`: the first push and the last pop go around the
rest. -/
theorem execList_push_pop_reversed {s : State} {ds es : List RegIdx} (hlen : ds.length = es.length)
    (hnd : es.Nodup) (hes : 14#4 ∉ es) (hn : ds.length ≤ 2 ^ 30) (hp : s.PlainStack ds.length) :
    ∃ t, execList (ds.map .push ++ es.map .pop) s = .next t ∧ s.Reversed t ds es := by
  induction ds generalizing s es with
  | nil =>
    obtain rfl := List.length_eq_zero_iff.1 hlen.symm
    exact ⟨s, rfl, .nil s⟩
  | cons d ds ih =>
    have hne : es ≠ [] := List.ne_nil_of_length_eq_add_one hlen.symm
    obtain ⟨es, e, rfl⟩ : ∃ es' e, es = es' ++ [e] := ⟨_, _, (List.dropLast_concat_getLast hne).symm⟩
    rw [List.length_append, List.length_singleton, List.length_cons] at hlen
    rw [List.length_cons] at hn hp
    have hlen : ds.length = es.length := Nat.succ.inj hlen
    obtain ⟨he, hnd⟩ := List.nodup_cons.1 ((List.perm_append_singleton e es).nodup hnd)
    have hes : 14#4 ∉ es := fun h => hes (List.mem_append_left _ h)
    obtain ⟨u, hpush, hu⟩ := exec_push_of_plainWord d (hp 0 (Nat.succ_pos _)).1
    obtain ⟨v, hrun, hv⟩ := ih hlen hnd hes (Nat.le_of_succ_le hn) (hp.tail hu.sp hu.control)
    have hload := (hp 0 (Nat.succ_pos _)).2.of_control (hv.control.trans hu.control)
    rw [← hv.sp hu hes] at hload
    obtain ⟨t, hpop, ht⟩ := exec_pop_of_plainWord e hload
    refine ⟨t, ?_, hv.wrap hu ht hlen he hes hp hn⟩
    rw [List.map_append, List.map_cons, List.cons_append, execList_cons_of_next hpush, ← List.append_assoc,
      execList_append_of_next hrun]
    exact execList_cons_of_next hpop

/-- Settles O34: R14 is one of the registers that the pops do not name. -/
theorem pushesThenPopsReverse : Obligations.PushesThenPopsReverse := by
  intro s ds es hlen hnd hes hn hp
  obtain ⟨t, ht, h⟩ := execList_push_pop_reversed hlen hnd hes hn hp
  exact ⟨t, ht, h.others _ hes, h.popped, h.others⟩

end Sys2Proof.Machine
end

section
/-!
PROOFS. The integer ALU (42_integer_alu.md): the common end of its instructions, the results of AddC and SubB
(00_scope.md R15) under either carry, and the state each instruction leaves.
-/

namespace Sys2Proof.Machine

open Sys2Proof

/-! The flag word. -/

/-- The four named bits that `FlagsBecome` gives. -/
theorem FlagsBecome.named {old new : Word} {z n c v : Bool} (h : FlagsBecome old new z n c v) :
    new.getLsbD 0 = z ∧ new.getLsbD 1 = n ∧ new.getLsbD 2 = c ∧ new.getLsbD 3 = v :=
  ⟨h 0 (by decide), h 1 (by decide), h 2 (by decide), h 3 (by decide)⟩

theorem flagsAddSub_become (f : Word) (setsCV : Bool) (x : ArithResult) :
    FlagsBecome f (flagsAddSub f setsCV x) (x.r == 0) x.r.msb
      (if setsCV then x.c else getFlag f .c) (if setsCV then x.v else getFlag f .v) := by
  cases setsCV with
  | false => exact flagsZN_become f x.r
  | true => exact flagsZNCV_become f x

/-! The common end (42_integer_alu.md R196, R197). -/

/-- `i` completes having written `r` to x[d], and the flags: Z and N of `r`, C and V as given. -/
def State.AluLeaves (s : State) (i : Instr) (d : RegIdx) (r : Word) (c v : Bool) : Prop :=
  ∃ fl, exec i s = .next (s.after (s.regsWith d r) fl s.fst (s.pc + 4#32))
    ∧ FlagsBecome s.flags fl (decide (r = 0#32)) r.msb c v

section

variable {s : State} {i : Instr} {d : RegIdx}

theorem State.aluLeaves_of_flagsZN {r : Word} (h : exec i s = s.aluDone d r (flagsZN s.flags r)) :
    s.AluLeaves i d r (s.flags.getLsbD 2) (s.flags.getLsbD 3) :=
  ⟨_, h, flagsZN_become _ _⟩

theorem State.aluLeaves_of_flagsDiv {r : Word} {byZero : Bool}
    (h : exec i s = s.aluDone d r (flagsDiv s.flags r byZero)) :
    s.AluLeaves i d r (s.flags.getLsbD 2) byZero :=
  ⟨_, h, flagsDiv_become _ _ _⟩

theorem State.aluLeaves_of_flagsZNCV {x : ArithResult}
    (h : exec i s = s.aluDone d x.r (flagsZNCV s.flags x)) : s.AluLeaves i d x.r x.c x.v :=
  ⟨_, h, flagsZNCV_become _ _⟩

theorem State.aluLeaves_of_flagsAddSub {x : ArithResult}
    (h : exec i s = s.aluDone d x.r (flagsAddSub s.flags s.params.addSubSetCV x)) :
    s.AluLeaves i d x.r (if s.params.addSubSetCV then x.c else s.flags.getLsbD 2)
      (if s.params.addSubSetCV then x.v else s.flags.getLsbD 3) :=
  ⟨_, h, flagsAddSub_become _ _ _⟩

end

/-! AddC and SubB (00_scope.md R15). -/

theorem addC_eq (a b : Word) (cin : Bool) :
    addC a b cin =
      { r := a + b + BitVec.ofNat 32 cin.toNat
        c := decide (2 ^ 32 ≤ a.toNat + b.toNat + cin.toNat)
        v := (~~~(a ^^^ b) &&& (a ^^^ (a + b + BitVec.ofNat 32 cin.toNat))).msb } := by
  have hr : BitVec.ofNat 32 (a.toNat + b.toNat + cin.toNat) = a + b + BitVec.ofNat 32 cin.toNat := by
    simp [BitVec.ofNat_add]
  simp only [addC, hr]

theorem subB_eq (a b : Word) (bin : Bool) :
    subB a b bin =
      { r := a - b - BitVec.ofNat 32 bin.toNat
        c := decide (a.toNat < b.toNat + bin.toNat)
        v := ((a ^^^ b) &&& (a ^^^ (a - b - BitVec.ofNat 32 bin.toNat))).msb } := by
  have hr : BitVec.ofInt 32 ((a.toNat : Int) - b.toNat - bin.toNat)
      = a - b - BitVec.ofNat 32 bin.toNat := by
    have hbin : bin.toNat < 2 := bin.toNat_lt
    apply BitVec.eq_of_toNat_eq
    simp only [BitVec.toNat_ofInt, BitVec.toNat_sub, BitVec.toNat_ofNat, Int.natCast_pow]
    omega
  simp only [subB, hr]

theorem addC_false_eq (a b : Word) :
    addC a b false =
      { r := a + b, c := decide (2 ^ 32 ≤ a.toNat + b.toNat), v := (~~~(a ^^^ b) &&& (a ^^^ (a + b))).msb } := by
  simp [addC_eq]

theorem subB_false_eq (a b : Word) :
    subB a b false =
      { r := a - b, c := decide (a.toNat < b.toNat), v := ((a ^^^ b) &&& (a ^^^ (a - b))).msb } := by
  simp [subB_eq]

/-! Addition and subtraction. -/

/-- Settles O16: AddC and SubB without a carry coming in, under the flag rule of ADD_SUB_SET_CV. -/
theorem addAndSubResults : Obligations.AddAndSubResults := by
  refine ⟨fun s d b => ?_, fun s d b => ?_⟩
  · have h := State.aluLeaves_of_flagsAddSub (rfl : exec (.add d b) s = s.aluDone d _ _)
    rwa [addC_false_eq] at h
  · have h := State.aluLeaves_of_flagsAddSub (rfl : exec (.sub d b) s = s.aluDone d _ _)
    rwa [subB_false_eq] at h

/-- Settles O17: AddC and SubB with C coming in, all four flags written. -/
theorem adcAndSbcResults : Obligations.AdcAndSbcResults := by
  refine ⟨fun s d b => ?_, fun s d b => ?_⟩
  · have h := State.aluLeaves_of_flagsZNCV (rfl : exec (.adc d b) s = s.aluDone d _ _)
    rwa [addC_eq] at h
  · have h := State.aluLeaves_of_flagsZNCV (rfl : exec (.sbc d b) s = s.aluDone d _ _)
    rwa [subB_eq] at h

/-! ADD then SUB. -/

theorem State.operand_writeReg_of_ne (s : State) {d : RegIdx} {b : Src} (v : Word) (hb : b ≠ .reg d) :
    (s.writeReg d v).operand b = s.operand b := by
  cases b with
  | reg r => exact s.readReg_writeReg_ne d r v fun e => hb (congrArg Src.reg e)
  | imm _ => rfl

/-- Settles O22: SUB finds the operand ADD found, and the sum in x[d]. -/
theorem addThenSubRestores : Obligations.AddThenSubRestores := by
  intro s d b hb
  refine ⟨_, _, rfl, rfl, ?_⟩
  show (s.regs.set d.toNat _ d.isLt).set d.toNat
    (subB ((s.writeReg d _).readReg d) ((s.writeReg d _).operand b) false).r d.isLt = s.regs
  rw [State.readReg_writeReg_self, s.operand_writeReg_of_ne _ hb, addC_r, subB_r, BitVec.add_sub_cancel,
    Vector.set_set]
  exact Vector.set_getElem_self d.isLt

/-! Multiplication and division. -/

theorem mul_eq_ofInt (x y : Word) : x * y = BitVec.ofInt 32 (x.toInt * y.toInt) := by
  rw [BitVec.ofInt_mul, BitVec.ofInt_toInt, BitVec.ofInt_toInt]

theorem ofNat_toNat_mul_toNat (x y : Word) : BitVec.ofNat 32 (x.toNat * y.toNat) = x * y := by
  rw [BitVec.ofNat_mul, BitVec.ofNat_toNat, BitVec.ofNat_toNat, BitVec.setWidth_eq, BitVec.setWidth_eq]

theorem divResult_eq (m : DivMode) (x y : Word) :
    divResult m x y =
      if y = 0#32 then 0#32
      else if m = .unsigned then x / y
      else if m = .signedTrunc then BitVec.ofInt 32 (x.toInt.tdiv y.toInt)
      else BitVec.ofInt 32 (x.toInt.fdiv y.toInt) := by
  cases m with
  | unsigned => rw [BitVec.udiv_def]; rfl
  | signedTrunc | signedFloor => rfl

theorem modResult_eq (m : DivMode) (x y : Word) :
    modResult m x y =
      if y = 0#32 then 0#32
      else if m = .unsigned then x % y
      else if m = .signedTrunc then BitVec.ofInt 32 (x.toInt.tmod y.toInt)
      else BitVec.ofInt 32 (x.toInt.fmod y.toInt) := by
  cases m with
  | unsigned => rw [BitVec.umod_def]; rfl
  | signedTrunc => rw [Int.tmod_def]; rfl
  | signedFloor => rw [Int.fmod_def]; rfl

/-- Settles O18: the product modulo 2^32 is the same signed or unsigned, and quotient and remainder go by
DIV_MODE. -/
theorem mulDivModResults : Obligations.MulDivModResults := by
  refine ⟨fun s d b => ?_, fun s d b => ?_, fun s d b => ?_⟩
  · obtain ⟨fl, hx, hf⟩ := State.aluLeaves_of_flagsZN (rfl : exec (.mul d b) s = s.aluDone d _ _)
    rw [ofNat_toNat_mul_toNat] at hx hf
    exact ⟨fl, hx, mul_eq_ofInt _ _, hf⟩
  · have h := State.aluLeaves_of_flagsDiv (rfl : exec (.div d b) s = s.aluDone d _ _)
    rwa [divResult_eq] at h
  · have h := State.aluLeaves_of_flagsDiv (rfl : exec (.mod d b) s = s.aluDone d _ _)
    rwa [modResult_eq] at h

/-! Comparison. -/

/-- Operands of one sign: their difference does not overflow, and its sign is their order. -/
theorem msb_sub_iff_of_msb_eq {x y : Word} (h : x.msb = y.msb) : (x - y).msb = true ↔ x.toInt < y.toInt := by
  have hx := x.isLt
  have hy := y.isLt
  simp only [BitVec.msb_eq_decide, decide_eq_decide] at h
  simp only [BitVec.msb_eq_decide, decide_eq_true_eq, BitVec.toInt_eq_toNat_cond, BitVec.toNat_sub]
  split <;> split <;> omega

/-- Operands of two signs: the negative one is the smaller. -/
theorem msb_iff_toInt_lt_of_msb_ne {x y : Word} (h : x.msb ≠ y.msb) : x.msb = true ↔ x.toInt < y.toInt := by
  have hx := x.isLt
  have hy := y.isLt
  simp only [BitVec.msb_eq_decide, ne_eq, decide_eq_decide] at h
  simp only [BitVec.msb_eq_decide, decide_eq_true_eq, BitVec.toInt_eq_toNat_cond]
  split <;> split <;> omega

/-- The sign of a difference, corrected by SubB's overflow, is the signed order (42_integer_alu.md R207). -/
theorem msb_sub_ne_overflow_iff (x y : Word) :
    (x - y).msb ≠ ((x ^^^ y) &&& (x ^^^ (x - y))).msb ↔ x.toInt < y.toInt := by
  rw [BitVec.msb_and, BitVec.msb_xor, BitVec.msb_xor]
  by_cases h : x.msb = y.msb
  · rw [← msb_sub_iff_of_msb_eq h, h]
    simp
  · rw [← msb_iff_toInt_lt_of_msb_ne h, show (x.msb ^^ y.msb) = true from bne_iff_ne.2 h, Bool.true_and]
    cases (x - y).msb <;> simp

theorem sub_eq_zero_iff_eq (x y : Word) : x - y = 0#32 ↔ x = y := by
  rw [BitVec.sub_eq_iff_eq_add, BitVec.zero_add]

theorem exec_cmp (s : State) (d : RegIdx) (b : Src) :
    exec (.cmp d b) s =
      .next (s.after s.regs (flagsZNCV s.flags (subB (s.readReg d) (s.operand b) false)) s.fst (s.pc + 4#32)) :=
  rfl

/-- The flags of CMP (42_integer_alu.md R207). -/
theorem flagsZNCV_subB_become (f x y : Word) :
    FlagsBecome f (flagsZNCV f (subB x y false)) (decide (x - y = 0#32)) (x - y).msb (decide (x.toNat < y.toNat))
      ((x ^^^ y) &&& (x ^^^ (x - y))).msb := by
  rw [subB_false_eq]
  exact flagsZNCV_become f _

/-- Settles O19: SubB's flags without its result, and the order that each of them, or two together, are. -/
theorem cmpOrdersItsOperands : Obligations.CmpOrdersItsOperands := by
  intro s d b x y
  have hf := flagsZNCV_subB_become s.flags x y
  obtain ⟨hz, hn, hc, hv⟩ := hf.named
  refine ⟨_, exec_cmp s d b, hf, ?_, ?_, ?_⟩
  · rw [hz, decide_eq_true_eq]
    exact sub_eq_zero_iff_eq x y
  · rw [hc, decide_eq_true_eq]
  · rw [hn, hv]
    exact msb_sub_ne_overflow_iff x y

/-! Bitwise logic. -/

/-- Settles O20: each writes its bitwise result, and Z and N of it. -/
theorem logicResults : Obligations.LogicResults := by
  intro s d b
  exact ⟨State.aluLeaves_of_flagsZN rfl, State.aluLeaves_of_flagsZN rfl, State.aluLeaves_of_flagsZN rfl,
    State.aluLeaves_of_flagsZN rfl⟩

/-! Shifts and rotates. -/

theorem shiftLeft_eq_ofNat (x : Word) (k : Nat) : x <<< k = BitVec.ofNat 32 (x.toNat * 2 ^ k) := by
  apply BitVec.eq_of_toNat_eq
  rw [BitVec.toNat_shiftLeft, Nat.shiftLeft_eq, BitVec.toNat_ofNat]

theorem ushiftRight_eq_ofNat (x : Word) (k : Nat) : x >>> k = BitVec.ofNat 32 (x.toNat / 2 ^ k) := by
  apply BitVec.eq_of_toNat_eq
  rw [BitVec.toNat_ushiftRight, Nat.shiftRight_eq_div_pow, BitVec.toNat_ofNat,
    Nat.mod_eq_of_lt (Nat.lt_of_le_of_lt (Nat.div_le_self _ _) x.isLt)]

/-- Below 32 the model's rotates are the library's. -/
theorem rotl_eq_rotateLeft (x : Word) {k : Nat} (h : k < 32) : rotl x k = x.rotateLeft k := by
  rw [BitVec.rotateLeft_def, Nat.mod_eq_of_lt h, rotl]
  split
  · next h0 => simp [h0, BitVec.ushiftRight_eq_zero]
  · rfl

theorem rotr_eq_rotateRight (x : Word) {k : Nat} (h : k < 32) : rotr x k = x.rotateRight k := by
  rw [BitVec.rotateRight_def, Nat.mod_eq_of_lt h, rotr]
  split
  · next h0 => simp [h0]
  · rfl

/-- ROL moves bit j to bit j + k (42_integer_alu.md R214). -/
theorem getLsbD_rotl (x : Word) {k j : Nat} (hk : k < 32) (hj : j < 32) :
    (rotl x k).getLsbD ((j + k) % 32) = x.getLsbD j := by
  rw [rotl_eq_rotateLeft x hk, BitVec.getLsbD_rotateLeft_of_le hk]
  by_cases h : j + k < 32
  · have hge : ¬ j + k < k := Nat.not_lt.2 (Nat.le_add_left k j)
    rw [Nat.mod_eq_of_lt h, decide_eq_false hge, decide_eq_true h, Nat.add_sub_cancel, cond_false, Bool.true_and]
  · have hlt : (j + k) % 32 < k := by omega
    rw [decide_eq_true hlt, cond_true, show 32 - k + (j + k) % 32 = j by omega]

/-- ROR moves bit j + k to bit j (42_integer_alu.md R215). -/
theorem getLsbD_rotr (x : Word) {k j : Nat} (hk : k < 32) (hj : j < 32) :
    (rotr x k).getLsbD j = x.getLsbD ((j + k) % 32) := by
  rw [rotr_eq_rotateRight x hk, BitVec.getLsbD_rotateRight, Nat.mod_eq_of_lt hk]
  by_cases h : j + k < 32
  · have hlt : j < 32 - k := by omega
    rw [decide_eq_true hlt, cond_true, Nat.mod_eq_of_lt h, Nat.add_comm k j]
  · have hge : ¬ j < 32 - k := by omega
    rw [decide_eq_false hge, decide_eq_true hj, cond_false, Bool.true_and,
      show (j + k) % 32 = j - (32 - k) by omega]

theorem rotr_eq_rotl (x : Word) {k : Nat} (h0 : 0 < k) (hk : k < 32) : rotr x k = rotl x (32 - k) := by
  rw [rotr, rotl, if_neg (by omega), if_neg (by omega), Nat.sub_sub_self (Nat.le_of_lt hk), BitVec.or_comm]

/-- Settles O21: the shifts as arithmetic, the rotates bit by bit, all by the operand modulo 32. -/
theorem shiftAndRotateResults : Obligations.ShiftAndRotateResults := by
  refine ⟨fun s d b => ?_, fun x k h0 hk => rotr_eq_rotl x h0 hk⟩
  have hk : (s.operand b).toNat % 32 < 32 := Nat.mod_lt _ (by decide)
  refine ⟨?_, ?_, ⟨_, State.aluLeaves_of_flagsZN rfl, fun j hj => getLsbD_rotl _ hk hj⟩,
    ⟨_, State.aluLeaves_of_flagsZN rfl, fun j hj => getLsbD_rotr _ hk hj⟩⟩
  · rw [← shiftLeft_eq_ofNat]
    exact State.aluLeaves_of_flagsZN rfl
  · rw [← ushiftRight_eq_ofNat]
    exact State.aluLeaves_of_flagsZN rfl

end Sys2Proof.Machine
end

section
/-!
PROOFS. Which bits of the flag word an instruction may write (42_integer_alu.md R218, 10_state.md R27 to R30).
-/

namespace Sys2Proof.Machine

open Sys2Proof

/-! The table of R218. -/

/-- The operation may write bit `k` of the flag word, `setsCV` being ADD_SUB_SET_CV. -/
def MayWriteFlag (setsCV : Bool) (k : Nat) : Opcode → Prop
  | .adc | .sbc | .cmp => k < 4
  | .add | .sub => k < 2 ∨ (setsCV = true ∧ k < 4)
  | .div | .mod => k < 2 ∨ k = 3
  | .mul | .and | .or | .xor | .not | .shl | .shr | .rol | .ror => k < 2
  | .int => k = 4
  | .iret => True
  | .halt | .nop | .loadi | .mov | .load | .store | .loadb | .storeb | .ldr | .str | .ldrb | .strb | .jmp | .jz
  | .jnz | .jn | .jnn | .jc | .jnc | .jo | .jno | .call | .ret | .push | .pop | .syscall | .yield | .fpush
  | .fpop | .fadd | .fsub | .fmul | .fdiv => False

section

variable {f r : Word} {k : Nat}

/-! What each flag computation keeps. -/

theorem flagsZN_keeps (hk : k < 32) (h : ¬ k < 2) : (flagsZN f r).getLsbD k = f.getLsbD k := by
  rw [flagsZN, getLsbD_setZN _ _ _ hk, if_neg (by omega), if_neg (by omega)]

theorem flagsZNCV_keeps {x : ArithResult} (hk : k < 32) (h : ¬ k < 4) :
    (flagsZNCV f x).getLsbD k = f.getLsbD k := by
  rw [flagsZNCV_become f x k hk, if_neg (by omega), if_neg (by omega), if_neg (by omega), if_neg (by omega)]

theorem flagsDiv_keeps {byZero : Bool} (hk : k < 32) (h : ¬ (k < 2 ∨ k = 3)) :
    (flagsDiv f r byZero).getLsbD k = f.getLsbD k := by
  rw [flagsDiv_become f r byZero k hk, if_neg (by omega), if_neg (by omega), if_neg (fun e => h (.inr e))]
  exact ite_eq_right_iff.2 fun e => congrArg f.getLsbD e.symm

theorem flagsAddSub_keeps {setsCV : Bool} {x : ArithResult} (hk : k < 32)
    (h : ¬ (k < 2 ∨ (setsCV = true ∧ k < 4))) : (flagsAddSub f setsCV x).getLsbD k = f.getLsbD k := by
  cases setsCV with
  | false => exact flagsZN_keeps hk fun e => h (.inl e)
  | true => exact flagsZNCV_keeps hk fun e => h (.inr ⟨rfl, e⟩)

/-! What each instruction keeps. -/

/-- The outcome, if it is a next state, has bit `k` of its flag word as in `f`. -/
def KeepsFlag (f : Word) (k : Nat) (o : Host.Outcome State Fault Refusal) : Prop :=
  ∀ t, o = .next t → t.flags.getLsbD k = f.getLsbD k

theorem keepsFlag_next {t : State} : KeepsFlag f k (.next t) ↔ t.flags.getLsbD k = f.getLsbD k :=
  ⟨fun h => h t rfl, fun h _ e => Host.Outcome.next.inj e ▸ h⟩

theorem Accesses.flags {s t : State} (h : Accesses s t) : t.flags = s.flags := by
  induction h with
  | refl => rfl
  | tail _ hs ih => cases hs <;> exact ih

/-- A fault restores the flag word, so a rule around an access keeps the bit when what follows the access does. -/
theorem Res.orHalt_keepsFlag {α : Type} {r : Res α} {s : State}
    {c : α → State → Host.Outcome State Fault Refusal}
    (hc : ∀ v u, r = .ok v u → KeepsFlag s.flags k (c v u)) : KeepsFlag s.flags k (r.orHalt s c) := by
  cases r with
  | ok v u => exact hc v u rfl
  | trap f u => exact keepsFlag_next.2 rfl

variable (s : State)

/-- A next state with the flag word of a state that accesses led to. -/
theorem Accesses.keepsFlag {s u t : State} (h : Accesses s u) (ht : t.flags = u.flags) :
    KeepsFlag s.flags k (.next t) :=
  keepsFlag_next.2 (congrArg (·.getLsbD k) (ht.trans h.flags))

theorem State.loadInto_keepsFlag (d : RegIdx) (a : Word) (w : Width) :
    KeepsFlag s.flags k (s.loadInto d a w) :=
  Res.orHalt_keepsFlag fun _ _ h => (State.load_accesses h).keepsFlag rfl

theorem State.storeFrom_keepsFlag (d : RegIdx) (a : Word) (w : Width) :
    KeepsFlag s.flags k (s.storeFrom d a w) :=
  Res.orHalt_keepsFlag fun _ _ h => (State.store_accesses h).keepsFlag rfl

theorem State.fpBinary_keepsFlag (op : Fp → Fp → Option Fp) : KeepsFlag s.flags k (s.fpBinary op) := by
  unfold State.fpBinary
  split
  · split <;> exact keepsFlag_next.2 rfl
  · exact keepsFlag_next.2 rfl

theorem execFpush_keepsFlag (d : RegIdx) : KeepsFlag s.flags k (execFpush d s) := by
  unfold execFpush
  split <;> exact keepsFlag_next.2 rfl

theorem execFpop_keepsFlag (d : RegIdx) : KeepsFlag s.flags k (execFpop d s) := by
  unfold execFpop
  split
  · exact keepsFlag_next.2 rfl
  · split <;> exact keepsFlag_next.2 rfl

/-- INT clears IE and writes no other bit (44_system.md R282). -/
theorem State.trapEnter_keepsFlag (n : Half) (hk : k < 32) (h : k ≠ 4) :
    KeepsFlag s.flags k (s.trapEnter n) :=
  Res.orHalt_keepsFlag fun _ _ _ => Res.orHalt_keepsFlag fun _ _ _ =>
    keepsFlag_next.2 ((getLsbD_setFlag _ _ _ _ hk).trans (if_neg h))

/-- An instruction keeps every bit of the flag word that the table does not let it write. -/
theorem exec_keepsFlag (i : Instr) (hk : k < 32) (h : ¬ MayWriteFlag s.params.addSubSetCV k i.opcode) :
    KeepsFlag s.flags k (exec i s) := by
  cases i with
  | halt | nop | loadi | mov | jmp | jz | jnz | jn | jnn | jc | jnc | jo | jno | syscall | yield =>
    exact keepsFlag_next.2 rfl
  | load | loadb | ldr | ldrb => exact s.loadInto_keepsFlag _ _ _
  | store | storeb | str | strb => exact s.storeFrom_keepsFlag _ _ _
  | add | sub => exact keepsFlag_next.2 (flagsAddSub_keeps hk h)
  | adc | sbc | cmp => exact keepsFlag_next.2 (flagsZNCV_keeps hk h)
  | div | mod => exact keepsFlag_next.2 (flagsDiv_keeps hk h)
  | mul | and | or | xor | not | shl | shr | rol | ror => exact keepsFlag_next.2 (flagsZN_keeps hk h)
  | push | call => exact Res.orHalt_keepsFlag fun _ _ ho => (State.push32_accesses ho).keepsFlag rfl
  | pop | ret => exact Res.orHalt_keepsFlag fun _ _ ho => (State.pop32_accesses ho).keepsFlag rfl
  | int n => exact s.trapEnter_keepsFlag n hk h
  | iret => exact absurd trivial h
  | fpush d => exact execFpush_keepsFlag s d
  | fpop d => exact execFpop_keepsFlag s d
  | fadd => exact s.fpBinary_keepsFlag fun a b => some (fpAdd s.params.fpCfg a b)
  | fsub => exact s.fpBinary_keepsFlag fun a b => some (fpSub s.params.fpCfg a b)
  | fmul => exact s.fpBinary_keepsFlag fun a b => some (fpMul s.params.fpCfg a b)
  | fdiv => exact s.fpBinary_keepsFlag fun a b => fpDiv s.params.fpCfg a b

end

/-! What the table says of the operations other than IRET. -/

section

variable {setsCV : Bool} {k : Nat} {op : Opcode}

theorem mayWriteFlag_lt_five (hi : op ≠ .iret) (h : MayWriteFlag setsCV k op) : k < 5 := by
  cases op with
  | iret => exact absurd rfl hi
  | add | sub | adc | sbc | mul | div | mod | cmp | and | or | xor | not | shl | shr | rol | ror | int =>
    simp only [MayWriteFlag] at h
    omega
  | _ => exact h.elim

theorem not_mayWriteFlag_ie (hi : op ≠ .iret) (hn : op ≠ .int) : ¬ MayWriteFlag setsCV 4 op := by
  cases op with
  | iret => exact absurd rfl hi
  | int => exact absurd rfl hn
  | _ => simp [MayWriteFlag]

/-- Outside the ALU and INT no operation writes any bit. -/
theorem not_mayWriteFlag_of_not_alu (hi : op ≠ .iret) (hx : formOf op ≠ .rx) (hn : op ≠ .not)
    (hint : op ≠ .int) : ¬ MayWriteFlag setsCV k op := by
  cases op with
  | iret => exact absurd rfl hi
  | not => exact absurd rfl hn
  | int => exact absurd rfl hint
  | add | sub | adc | sbc | mul | div | mod | cmp | and | or | xor | shl | shr | rol | ror => exact absurd rfl hx
  | _ => exact id

/-- C and V are left alone outside ADC, SBC, CMP, and ADD and SUB where they set them, V also outside DIV and
MOD. -/
theorem not_mayWriteFlag_cv (hi : op ≠ .iret) (hc : op ∉ [.adc, .sbc, .cmp])
    (ha : op ∉ [.add, .sub] ∨ setsCV = false) (hk : k = 2 ∨ (k = 3 ∧ op ∉ [.div, .mod])) :
    ¬ MayWriteFlag setsCV k op := by
  have h23 : k = 2 ∨ k = 3 := hk.imp_right And.left
  cases op with
  | iret => exact absurd rfl hi
  | adc | sbc | cmp => exact absurd (by decide) hc
  | add | sub =>
    have hcv : setsCV = false := ha.resolve_left (absurd (by decide))
    simp only [MayWriteFlag, hcv, Bool.false_eq_true, false_and, or_false]
    omega
  | div | mod =>
    have h2 : k = 2 := hk.resolve_right fun h => absurd (by decide) h.2
    simp [MayWriteFlag, h2]
  | mul | and | or | xor | not | shl | shr | rol | ror | int =>
    simp only [MayWriteFlag]
    omega
  | _ => exact id

end

theorem opcode_ne_iret {i : Instr} (h : i ≠ .iret) : i.opcode ≠ .iret := by
  cases i with
  | iret => exact absurd rfl h
  | _ => exact fun e => nomatch e

theorem opcode_ne_int {i : Instr} (h : ∀ n, i ≠ .int n) : i.opcode ≠ .int := by
  cases i with
  | int n => exact absurd rfl (h n)
  | _ => exact fun e => nomatch e

/-- Settles O48: every clause is about bits that the table does not let the instruction write. -/
theorem flagBitsWritten : Obligations.FlagBitsWritten := by
  intro s t i ht hi
  have hop := opcode_ne_iret hi
  have keeps : ∀ {k}, k < 32 → ¬ MayWriteFlag s.params.addSubSetCV k i.opcode →
      t.flags.getLsbD k = s.flags.getLsbD k := fun hk h => exec_keepsFlag s i hk h t ht
  refine ⟨fun k h5 hk => ?_, fun hn => ?_, fun n hn k hk h4 => ?_, fun ⟨hx, hnot, hint⟩ => ?_,
    fun hc ha => ⟨?_, fun hd => ?_⟩⟩
  · exact keeps hk fun h => Nat.not_lt.2 h5 (mayWriteFlag_lt_five hop h)
  · exact keeps (by decide) (not_mayWriteFlag_ie hop (opcode_ne_int hn))
  · subst hn
    exact keeps hk h4
  · exact BitVec.eq_of_getLsbD_eq fun k hk => keeps hk (not_mayWriteFlag_of_not_alu hop hx hnot hint)
  · exact keeps (by decide) (not_mayWriteFlag_cv hop hc ha (.inl rfl))
  · exact keeps (by decide) (not_mayWriteFlag_cv hop hc ha (.inr ⟨rfl, hd⟩))

end Sys2Proof.Machine
end

section
/-!
PROOFS. Control transfer (43_control_transfer.md R250 to R261): the jumps, taken or not, and CALL and RET in the
fault, memory and MMIO cases of their stack access.
-/

namespace Sys2Proof.Machine

open Sys2Proof

section

variable {s s1 t : State} {imm : Half} {a : Word} {k : AccessKind} {w : Width} {p : Nat}

/-! Jumps. -/

/-- A conditional jump changes the pc alone; its target is the zero-extended immediate (43_control_transfer.md
R251). -/
theorem State.jumpIf_eq_after (s : State) (taken : Bool) (imm : Half) :
    s.jumpIf taken imm =
      .next (s.after s.regs s.flags s.fst (if taken then imm.setWidth 32 else s.pc + 4#32)) :=
  rfl

/-- JMP is a jump that is always taken. -/
theorem exec_jmp (s : State) (imm : Half) : exec (.jmp imm) s = s.jumpIf true imm :=
  rfl

/-! CALL and RET after their stack access. -/

theorem exec_call_of_ok (h : s.push32 (s.pc + 4#32) = .ok () t) :
    exec (.call imm) s = .next (t.complete (imm.setWidth 32)) := by
  show execCall imm s = _
  rw [execCall, State.nextPc, h, Res.orHalt, absAddr, zext32]

theorem exec_ret_of_ok {v : Word} (h : s.pop32 = .ok v t) : exec .ret s = .next (t.complete v) := by
  show execRet s = _
  rw [execRet, h, Res.orHalt]

/-- A push that reached memory, completed with any next pc, changed outside memory R14 alone. -/
theorem State.Reaches.pushed_outsideMemory (h : s.Reaches a .word k p s1) (v pc : Word) :
    (((s1.writePlain a p .word v).writeReg spIndex a).complete pc).outsideMemory =
      (s.after (s.regsWith spIndex a) s.flags s.fst pc).outsideMemory := by
  rw [h.eq]
  rfl

/-- A load that reached memory and is followed by one register write, completed with any next pc, changed that
register alone beside what the load itself did. -/
theorem State.Reaches.read_writeReg_complete (h : s.Reaches a w k p s1) (v : Word) (d : RegIdx) (x pc : Word) :
    ((s1.cacheRead a v).writeReg d x).complete pc =
      (s1.cacheRead a v).after (s.regsWith d x) s.flags s.fst pc := by
  rw [h.eq]
  rfl

end

/-- Settles O36: CALL is a push and RET a pop, which faults, reaches memory or reaches a handler. -/
theorem callAndRetFollowTheirRules : Obligations.CallAndRetFollowTheirRules := by
  refine ⟨fun s imm => ⟨fun f => exec_of_accessFault rfl, fun p s1 hr => ?_, fun h hr => ?_⟩,
    fun s => ⟨fun f => exec_of_accessFault rfl, fun p s1 hr => ?_, fun h hr => ?_⟩⟩
  · exact ⟨_, exec_call_of_ok (State.push32_of_reaches _ hr), hr.pushed_outsideMemory _ _,
      s1.byteAt_writePlain (s.readReg spIndex - 4#32) p .word _, rfl, rfl⟩
  · exact exec_call_of_ok (State.push32_of_reachesDevice _ hr)
  · have hx := exec_ret_of_ok (State.pop32_of_reaches hr)
    exact ⟨hx.trans (congrArg _ (hr.read_writeReg_complete _ _ _ _)), byteAt_of_exec hx fun _ => rfl⟩
  · exact ⟨_, exec_ret_of_ok (State.pop32_of_reachesDevice hr)⟩

/-- Settles O35: every jump is `jumpIf`, taken always, on a flag or on its negation. -/
theorem jumpResults : Obligations.JumpResults := by
  intro s imm
  exact ⟨(exec_jmp s imm).trans (s.jumpIf_eq_after true imm),
    s.jumpIf_eq_after (getFlag s.flags .z) imm, s.jumpIf_eq_after (!getFlag s.flags .z) imm,
    s.jumpIf_eq_after (getFlag s.flags .n) imm, s.jumpIf_eq_after (!getFlag s.flags .n) imm,
    s.jumpIf_eq_after (getFlag s.flags .c) imm, s.jumpIf_eq_after (!getFlag s.flags .c) imm,
    s.jumpIf_eq_after (getFlag s.flags .v) imm, s.jumpIf_eq_after (!getFlag s.flags .v) imm⟩

end Sys2Proof.Machine
end

section
/-!
PROOFS. Trap entry and return (44_system.md R282, R283, 60_exceptions.md R411, R412): INT is two pushes and IRET
two pops; either may fault, the second leaving what the first did to memory, and both together move R14 by 8.
-/

namespace Sys2Proof.Machine

open Sys2Proof

/-! The flag word with IE written (10_state.md R27). -/

theorem setFlag_ie_false (f : Word) : setFlag f .ie false = f &&& 0xFFFFFFEF#32 :=
  BitVec.or_zero

theorem setFlag_ie_true (f : Word) : setFlag f .ie true = f ||| 0x10#32 := by
  apply BitVec.eq_of_getLsbD_eq
  intro k hk
  have hbit : ∀ j < 32, (0x10#32).getLsbD j = decide (j = 4) := by decide
  rw [getLsbD_setFlag _ _ _ _ hk, BitVec.getLsbD_or, hbit k hk, flagPos]
  by_cases h : k = 4
  · rw [if_pos h, decide_eq_true h, Bool.or_true]
  · rw [if_neg h, decide_eq_false h, Bool.or_false]

section

variable {s s1 s2 u : State} {x y v w a : Word} {f : FaultRec}

/-! A state whose stack pointer was moved. -/

theorem State.writeReg_writeReg_self (s : State) (i : RegIdx) (v w : Word) :
    (s.writeReg i v).writeReg i w = s.writeReg i w := by
  simp [State.writeReg]

theorem State.writeReg_outsideMemory (s : State) (i : RegIdx) (v : Word) :
    (s.writeReg i v).outsideMemory = s.outsideMemory.writeReg i v :=
  rfl

theorem State.after_outsideMemory (s : State) (regs : Vector Word 16) (flags : Word) (fst : List Fp) (pc : Word) :
    (s.after regs flags fst pc).outsideMemory = s.outsideMemory.after regs flags fst pc :=
  rfl

/-- Outside memory, `t` is `s` with R14 set to `x`. -/
def State.MovesSp (s : State) (x : Word) (t : State) : Prop :=
  t.outsideMemory = (s.writeReg spIndex x).outsideMemory

/-- A field outside memory is what it was, or the moved R14's register file. -/
theorem State.MovesSp.field {α : Type} (h : s.MovesSp x s1) (g : State → α) :
    g s1.outsideMemory = g (s.writeReg spIndex x).outsideMemory :=
  congrArg g h

theorem State.MovesSp.regs (h : s.MovesSp x s1) : s1.regs = s.regsWith spIndex x :=
  h.field State.regs

theorem State.MovesSp.flags (h : s.MovesSp x s1) : s1.flags = s.flags :=
  h.field State.flags

theorem State.MovesSp.fst (h : s.MovesSp x s1) : s1.fst = s.fst :=
  h.field State.fst

theorem State.MovesSp.pc (h : s.MovesSp x s1) : s1.pc = s.pc :=
  h.field State.pc

theorem State.MovesSp.sp (h : s.MovesSp x s1) : s1.readReg spIndex = x :=
  (State.readReg_congr (t := s.writeReg spIndex x) h.regs spIndex).trans (s.readReg_writeReg_self spIndex x)

theorem State.MovesSp.trans (h1 : s.MovesSp x s1) (h2 : s1.MovesSp y s2) : s.MovesSp y s2 := by
  unfold State.MovesSp at h1 h2 ⊢
  rw [h2, State.writeReg_outsideMemory, h1, ← State.writeReg_outsideMemory, State.writeReg_writeReg_self]

theorem State.push32_movesSp (h : s.push32 v = .ok () s1) : s.MovesSp (s.readReg spIndex - 4#32) s1 :=
  State.push32_outside h

theorem State.pop32_movesSp (h : s.pop32 = .ok v s1) : s.MovesSp (s.readReg spIndex + 4#32) s1 :=
  State.pop32_outside h

/-- Two pushes move R14 down by 8. -/
theorem State.push32_push32_movesSp (h1 : s.push32 v = .ok () s1) (h2 : s1.push32 w = .ok () s2) :
    s.MovesSp (s.readReg spIndex - 8#32) s2 := by
  have hsp := (State.push32_movesSp h1).trans (State.push32_movesSp h2)
  rwa [(State.push32_movesSp h1).sp, BitVec.sub_sub] at hsp

/-- Two pops move R14 up by 8. -/
theorem State.pop32_pop32_movesSp (h1 : s.pop32 = .ok v s1) (h2 : s1.pop32 = .ok w s2) :
    s.MovesSp (s.readReg spIndex + 8#32) s2 := by
  have hsp := (State.pop32_movesSp h1).trans (State.pop32_movesSp h2)
  rwa [(State.pop32_movesSp h1).sp, BitVec.add_assoc] at hsp

/-- A completed instruction that moved R14 and wrote the flags changed no other register and no FP slot. -/
theorem State.MovesSp.setFlags_complete (h : s.MovesSp x s1) (fl pc : Word) :
    (s1.setFlags fl).complete pc = s1.after (s.regsWith spIndex x) fl s.fst pc := by
  rw [← h.regs, ← h.fst]
  rfl

/-- What such an instruction leaves outside memory. -/
theorem State.MovesSp.after_outsideMemory (h : s.MovesSp x s1) (regs : Vector Word 16) (fl : Word)
    (fst : List Fp) (pc : Word) :
    (s1.after regs fl fst pc).outsideMemory = (s.after regs fl fst pc).outsideMemory := by
  rw [State.after_outsideMemory, h]
  rfl

/-- A fault of an access after R14 was moved puts the registers back (60_exceptions.md R402). -/
theorem State.MovesSp.haltWith_touched (h : s.MovesSp x s1) (hu : s1.Touched a u) (f : FaultRec) :
    u.haltWith s f = { u with regs := s.regs }.haltedBy f := by
  rw [State.haltWith, ← h.flags, ← h.fst, ← h.pc, hu.eq]
  rfl

/-! INT. -/

/-- The two pushes of INT both succeed. -/
theorem exec_int_of_ok (n : Half) (h1 : s.push32 (s.pc + 4#32) = .ok () s1) (h2 : s1.push32 s.flags = .ok () s2) :
    exec (.int n) s = .next (s2.after (s.regsWith 14#4 (s.readReg 14#4 - 8#32)) (s.flags &&& 0xFFFFFFEF#32) s.fst
      (s.trapTarget n)) := by
  show s.trapEnter n = _
  rw [State.trapEnter, State.nextPc, h1, Res.orHalt, h2, Res.orHalt, setFlag_ie_false,
    (State.push32_push32_movesSp h1 h2).setFlags_complete]
  rfl

/-- The second push of INT faults. -/
theorem exec_int_of_second_fault (n : Half) (h1 : s.push32 (s.pc + 4#32) = .ok () s1)
    (h2 : s1.accessFault (s.readReg 14#4 - 8#32) .word .store = some f) :
    ∃ u, s1.Touched (s.readReg 14#4 - 8#32) u
      ∧ exec (.int n) s = .next ({ u with regs := s.regs }.haltedBy f) := by
  obtain ⟨u, hu⟩ := State.faultsWith_of_accessFault h2
  have hsp := State.push32_movesSp h1
  have hst : s1.store (s1.readReg spIndex - 4#32) .word s.flags = .trap f u := by
    rw [hsp.sp, BitVec.sub_sub]
    exact State.store_trap_iff.2 hu
  refine ⟨u, hu.touched, ?_⟩
  show s.trapEnter n = _
  rw [State.trapEnter, State.nextPc, h1, Res.orHalt, State.push32_orHalt_of_store_trap hst,
    hsp.haltWith_touched hu.touched]

/-- The pc goes to the installed handler, else to the return address. -/
theorem State.trapTarget_eq (s : State) (n : Half) :
    s.trapTarget n = match Assoc.get s.ivt n.toNat with
      | some h => h
      | none => s.pc + 4#32 := by
  unfold State.trapTarget
  cases Assoc.get s.ivt n.toNat <;> rfl

/-! IRET. -/

/-- The two pops of IRET both succeed. -/
theorem exec_iret_of_ok (h1 : s.pop32 = .ok v s1) (h2 : s1.pop32 = .ok w s2) :
    exec .iret s = .next (s2.after (s.regsWith 14#4 (s.readReg 14#4 + 8#32)) (v ||| 0x10#32) s.fst w) := by
  show s.trapReturn = _
  rw [State.trapReturn, h1, Res.orHalt, h2, Res.orHalt, setFlag_ie_true,
    (State.pop32_pop32_movesSp h1 h2).setFlags_complete]
  rfl

/-- The second pop of IRET faults. -/
theorem exec_iret_of_second_fault (h1 : s.pop32 = .ok v s1)
    (h2 : s1.accessFault (s.readReg 14#4 + 4#32) .word .load = some f) :
    ∃ u, s1.Touched (s.readReg 14#4 + 4#32) u
      ∧ exec .iret s = .next ({ u with regs := s.regs }.haltedBy f) := by
  obtain ⟨u, hu⟩ := State.faultsWith_of_accessFault h2
  have hsp := State.pop32_movesSp h1
  have hld : s1.load (s1.readReg spIndex) .word .load = .trap f u := by
    rw [hsp.sp]
    exact State.load_trap_iff.2 hu
  refine ⟨u, hu.touched, ?_⟩
  show s.trapReturn = _
  rw [State.trapReturn, h1, Res.orHalt, State.pop32_orHalt_of_load_trap hld, hsp.haltWith_touched hu.touched]

/-! The frame in plain memory. -/

theorem State.exists_push32_of_plainWord (v : Word) (h : s.PlainWord (s.readReg spIndex - 4#32) .store) :
    ∃ s1, s.push32 v = .ok () s1 ∧ s1.pageTable = s.pageTable ∧ s1.nextFreePPage = s.nextFreePPage
      ∧ s1.mem = memWrite s.mem (s.readReg spIndex - 4#32).toNat .word v :=
  ⟨_, State.push32_of_plainWord v h, rfl, rfl, rfl⟩

theorem State.exists_pop32_of_plainWord (h : s.PlainWord (s.readReg spIndex) .load) :
    ∃ s1, s.pop32 = .ok (s.valueAt (s.readReg spIndex).toNat .word) s1 ∧ s1.pageTable = s.pageTable
      ∧ s1.mem = s.mem :=
  ⟨_, State.pop32_of_reaches (State.reaches_of_plainWord h), rfl, rfl⟩

/-- Two pushes into plain memory write one word below the other and change no page. -/
theorem State.exists_push32_push32_of_plainWord (v w : Word) (h1 : s.PlainWord (s.readReg spIndex - 4#32) .store)
    (h2 : s.PlainWord (s.readReg spIndex - 8#32) .store) :
    ∃ s1 s2, s.push32 v = .ok () s1 ∧ s1.push32 w = .ok () s2
      ∧ s2.pageTable = s.pageTable ∧ s2.nextFreePPage = s.nextFreePPage
      ∧ s2.mem = memWrite (memWrite s.mem (s.readReg spIndex - 4#32).toNat .word v)
          (s.readReg spIndex - 8#32).toNat .word w := by
  obtain ⟨s1, hp1, ht1, hn1, hm1⟩ := State.exists_push32_of_plainWord v h1
  have hsp : s1.readReg spIndex - 4#32 = s.readReg spIndex - 8#32 := by
    rw [(State.push32_movesSp hp1).sp, BitVec.sub_sub]
    rfl
  have hplain : s1.PlainWord (s1.readReg spIndex - 4#32) .store :=
    hsp ▸ h2.of_control (State.push32_accesses hp1).control
  obtain ⟨s2, hp2, ht2, hn2, hm2⟩ := State.exists_push32_of_plainWord w hplain
  exact ⟨s1, s2, hp1, hp2, ht2.trans ht1, hn2.trans hn1, by rw [hm2, hm1, hsp]⟩

/-- Two pops from plain memory read one word above the other and change neither memory nor a page. -/
theorem State.exists_pop32_pop32_of_plainWord (h1 : s.PlainWord (s.readReg spIndex) .load)
    (h2 : s.PlainWord (s.readReg spIndex + 4#32) .load) :
    ∃ s1 s2, s.pop32 = .ok (s.valueAt (s.readReg spIndex).toNat .word) s1
      ∧ s1.pop32 = .ok (s.valueAt (s.readReg spIndex + 4#32).toNat .word) s2
      ∧ s2.pageTable = s.pageTable ∧ s2.mem = s.mem := by
  obtain ⟨s1, hp1, ht1, hm1⟩ := State.exists_pop32_of_plainWord h1
  have hsp := (State.pop32_movesSp hp1).sp
  have hplain : s1.PlainWord (s1.readReg spIndex) .load :=
    hsp ▸ h2.of_control (State.pop32_accesses hp1).control
  obtain ⟨s2, hp2, ht2, hm2⟩ := State.exists_pop32_of_plainWord hplain
  rw [hsp, ← memRead_eq_valueAt, hm1, memRead_eq_valueAt] at hp2
  exact ⟨s1, s2, hp1, hp2, ht2.trans ht1, hm2.trans hm1⟩

theorem memByte_memWrite_word (m : List Host.Cell) (p q : Nat) (v : Word) :
    memByte (memWrite m p .word v) q =
      if p ≤ q ∧ q < p + 4 then v.extractLsb' (8 * (q - p)) 8 else memByte m q :=
  memByte_memWrite m p q .word v

/-- Of two words that do not overlap the one written first stays. -/
theorem memByte_memWrite_words {p p' : Nat} (hp : p + 4 ≤ p' ∨ p' + 4 ≤ p) (m : List Host.Cell) (q : Nat)
    (v w : Word) :
    memByte (memWrite (memWrite m p .word v) p' .word w) q =
      if p ≤ q ∧ q < p + 4 then v.extractLsb' (8 * (q - p)) 8
      else if p' ≤ q ∧ q < p' + 4 then w.extractLsb' (8 * (q - p')) 8
      else memByte m q := by
  rw [memByte_memWrite_word, memByte_memWrite_word]
  by_cases hq : p ≤ q ∧ q < p + 4
  · rw [if_neg (by omega), if_pos hq, if_pos hq]
  · rw [if_neg hq, if_neg hq]

/-- The two words of a trap frame do not overlap, wherever R14 points: both are aligned. -/
theorem frameWords_disjoint {sp : Word} (h1 : (sp - 4#32).toNat % 4 = 0) (h2 : (sp - 8#32).toNat % 4 = 0) :
    (sp - 4#32).toNat + 4 ≤ (sp - 8#32).toNat ∨ (sp - 8#32).toNat + 4 ≤ (sp - 4#32).toNat := by
  have hne : (sp - 4#32).toNat ≠ (sp - 8#32).toNat := by bv_omega
  omega

end

/-- Settles O38: each push faults or succeeds; where the frame is plain memory both succeed. -/
theorem intFollowsItsRule : Obligations.IntFollowsItsRule := by
  intro s n sp target
  have htarget : s.trapTarget n = target := s.trapTarget_eq n
  refine ⟨fun f => exec_of_accessFault rfl, fun s1 f => exec_int_of_second_fault n, fun s1 s2 h1 h2 => ?_,
    fun hp1 hp2 => ?_⟩
  · exact htarget ▸ exec_int_of_ok n h1 h2
  · obtain ⟨s1, s2, h1, h2, htable, hnext, hmem⟩ :=
      State.exists_push32_push32_of_plainWord (s.pc + 4#32) s.flags hp1 hp2
    refine ⟨_, htarget ▸ exec_int_of_ok n h1 h2,
      (State.push32_push32_movesSp h1 h2).after_outsideMemory _ _ _ _, htable, hnext, fun q => ?_⟩
    show memByte s2.mem q = _
    rw [hmem]
    exact memByte_memWrite_words (frameWords_disjoint hp1.aligned hp2.aligned) s.mem q _ _

/-- Settles O39: each pop faults or succeeds; where the frame is plain memory both succeed. -/
theorem iretFollowsItsRule : Obligations.IretFollowsItsRule := by
  intro s sp
  refine ⟨fun f => exec_of_accessFault rfl, fun fl s1 f => exec_iret_of_second_fault,
    fun fl s1 pc s2 => exec_iret_of_ok, fun hp1 hp2 => ?_⟩
  obtain ⟨s1, s2, h1, h2, htable, hmem⟩ := State.exists_pop32_pop32_of_plainWord hp1 hp2
  refine ⟨_, exec_iret_of_ok h1 h2, (State.pop32_pop32_movesSp h1 h2).after_outsideMemory _ _ _ _, htable,
    fun q => ?_⟩
  show memByte s2.mem q = memByte s.mem q
  rw [hmem]

end Sys2Proof.Machine
end

section
/-!
PROOFS. The kernel's response to a SYSCALL (44_system.md R291): none of its host actions reaches the engine's
registers, flags, pc, FP stack, or its stop and wait fields, so those are as its other parts set them.
-/

namespace Sys2Proof.Machine

open Sys2Proof

/-- The fields of the engine: those a response sets by its other parts, and the flags and FP stack, which it
may not. -/
def State.engineFields (s : State) : Vector Word 16 × Word × Word × List Fp × Bool × Suspend :=
  (s.regs, s.pc, s.flags, s.fst, s.halted, s.suspend)

theorem State.setPixel_engineFields (s : State) (x y : Int) (c : Nat) :
    (s.setPixel x y c).engineFields = s.engineFields := by
  unfold State.setPixel
  split <;> rfl

/-- A host action of the kernel leaves the engine alone, also where it takes the thread out of it. -/
theorem State.host_engineFields (s : State) {op : HostOp} (h : op.kernelMay = true) :
    (s.host op).engineFields = s.engineFields := by
  cases op with
  | writeBytes addr bytes =>
    simp only [State.host, State.hostWrite]
    split <;> rfl
  | setPixel x y c => exact s.setPixel_engineFields x y c
  | drawShape c =>
    exact State.drawShape_keeps (P := fun t => t.engineFields = s.engineFields)
      (fun t x y c ht => (t.setPixel_engineFields x y c).trans ht) c rfl
  | yieldCurrent =>
    simp only [State.host, State.yieldCurrent]
    split <;> rfl
  | block duration =>
    simp only [State.host, State.block]
    split <;> rfl
  | expand | registerRegion | unregisterRegion | registerMmio | unregisterMmio | setPaging
  | installVector | removeVector | createThread | terminate => rfl
  | setPc | scheduleNext | preempt | unblockDue | startRun | startSched => cases h

theorem State.kernelActs_engineFields (s : State) (r : KernelResponse) :
    (s.kernelActs r).engineFields = s.engineFields :=
  State.kernelActs_keeps (P := fun t => t.engineFields = s.engineFields)
    (fun t _ hop ht => (t.host_engineFields hop).trans ht) r rfl

/-- Settles O41: the acts leave what the response's value for R0, its pc and the state before it set. -/
theorem kernelResponseCompletesTheSyscall : Obligations.KernelResponseCompletesTheSyscall := by
  intro s r t
  have hacts := ({ s with draws := s.draws + 1 }.kernelResult r).kernelActs_engineFields r
  simp only [State.engineFields, Prod.mk.injEq] at hacts
  obtain ⟨hregs, hpc, hflags, hfst, hhalted, hsuspend⟩ := hacts
  have hregs : t.regs = s.regsWith 0#4 (r.r0.getD (s.readReg 0#4)) := hregs
  have hpc : t.pc = r.pc.getD s.pc := hpc
  have hread : ∀ i, t.readReg i = (s.writeReg 0#4 (r.r0.getD (s.readReg 0#4))).readReg i :=
    State.readReg_congr hregs
  refine ⟨(hread 0#4).trans (s.readReg_writeReg_self _ _),
    fun i hi => (hread i).trans (s.readReg_writeReg_ne _ _ _ hi), hpc, hflags, hfst,
    congrArg (· || r.halt) hhalted, congrArg (ite _ _) hsuspend, rfl, _, rfl, ?_⟩
  rw [hregs, hpc]
  rfl

end Sys2Proof.Machine
end

section
/-!
PROOFS. The system instructions without a memory access (44_system.md R280, R281, R290, R293).
-/

namespace Sys2Proof.Machine

open Sys2Proof

/-- Settles O37: each is `complete` of the state with its own stop or wait field written. -/
theorem systemInstructionResults : Obligations.SystemInstructionResults := by
  intro s
  refine ⟨?_, ?_, ?_, ?_⟩
  · exact congrArg Host.Outcome.next (State.complete_eq_after { s with halted := true, fault := none } s.pc)
  · exact congrArg Host.Outcome.next (s.complete_eq_after s.nextPc)
  · exact congrArg Host.Outcome.next
      (State.complete_eq_after { s with suspend := .syscall s.syscallRequest, answered := false } s.nextPc)
  · exact congrArg Host.Outcome.next (State.complete_eq_after { s with suspend := .yield } s.nextPc)

end Sys2Proof.Machine
end

section
/-!
PROOFS. The instructions of the FP stack (45_fp_stack.md R320 to R325): the state each leaves, or its fault.
-/

namespace Sys2Proof.Machine

open Sys2Proof

section

variable {s : State} {d : RegIdx} {op : Fp → Fp → Option Fp} {a b v q : Fp} {rest : List Fp} {r : Word}

/-! FPUSH: a slot is free, or none is. -/

theorem exec_fpush_of_free (h : s.fst.length < 8) :
    exec (.fpush d) s =
      .next (s.after s.regs s.flags (fpFromInt s.params.fpCfg (s.readReg d).toInt :: s.fst) (s.pc + 4#32)) :=
  if_neg (Nat.not_le.2 h)

theorem exec_fpush_of_full (h : 8 ≤ s.fst.length) :
    exec (.fpush d) s = .next (s.haltedBy (.stackOverflow s.pc)) :=
  if_pos h

/-! FPOP: no entry, or a top entry without an integer, or with one. -/

theorem exec_fpop_of_nil (h : s.fst = []) :
    exec (.fpop d) s = .next (s.haltedBy (.stackUnderflow s.pc)) := by
  show execFpop d s = _
  rw [execFpop, h]
  rfl

theorem exec_fpop_of_none (h : s.fst = v :: rest) (hv : fpToInt s.params.fpCfg v = none) :
    exec (.fpop d) s = .next (s.haltedBy (.fpError s.pc)) := by
  show execFpop d s = _
  simp only [execFpop, h, hv]
  rfl

theorem exec_fpop_of_some (h : s.fst = v :: rest) (hv : fpToInt s.params.fpCfg v = some r) :
    exec (.fpop d) s = .next (s.after (s.regsWith d r) s.flags rest (s.pc + 4#32)) := by
  show execFpop d s = _
  simp only [execFpop, h, hv]
  rfl

/-! The operations on two entries: one is missing, or the operation has no answer, or it has one. -/

theorem State.fpBinary_of_short (h : s.fst.length < 2) :
    s.fpBinary op = .next (s.haltedBy (.stackUnderflow s.pc)) := by
  unfold State.fpBinary
  split
  · next b a rest heq =>
    rw [heq, List.length_cons, List.length_cons] at h
    omega
  · rfl

theorem State.fpBinary_of_none (h : s.fst = b :: a :: rest) (hq : op a b = none) :
    s.fpBinary op = .next (s.haltedBy (.fpError s.pc)) := by
  simp only [State.fpBinary, h, hq]
  rfl

theorem State.fpBinary_of_some (h : s.fst = b :: a :: rest) (hq : op a b = some q) :
    s.fpBinary op = .next (s.after s.regs s.flags (q :: rest) (s.pc + 4#32)) := by
  simp only [State.fpBinary, h, hq]
  rfl

theorem exec_fadd (s : State) : exec .fadd s = s.fpBinary fun a b => some (fpAdd s.params.fpCfg a b) :=
  rfl

theorem exec_fsub (s : State) : exec .fsub s = s.fpBinary fun a b => some (fpSub s.params.fpCfg a b) :=
  rfl

theorem exec_fmul (s : State) : exec .fmul s = s.fpBinary fun a b => some (fpMul s.params.fpCfg a b) :=
  rfl

theorem exec_fdiv (s : State) : exec .fdiv s = s.fpBinary fun a b => fpDiv s.params.fpCfg a b :=
  rfl

end

/-- Settles O42: FPUSH by a free slot or none, FPOP by the top entry and its integer. -/
theorem fpushAndFpopResults : Obligations.FpushAndFpopResults := by
  refine ⟨fun s d => ?_, fun s d => ⟨exec_fpop_of_nil, fun v rest h =>
    ⟨exec_fpop_of_none h, fun r => exec_fpop_of_some h⟩⟩⟩
  split
  · next hfree => exact exec_fpush_of_free hfree
  · next hfull => exact exec_fpush_of_full (Nat.le_of_not_lt hfull)

/-- Settles O43: each of the four is `fpBinary` of its operation, and the first three always have an answer. -/
theorem fpArithmeticResults : Obligations.FpArithmeticResults := by
  intro s cfg
  refine ⟨fun hshort i hi => ?_, fun b a rest h => ?_⟩
  · simp only [List.mem_cons, List.not_mem_nil, or_false] at hi
    obtain rfl | rfl | rfl | rfl := hi
    · exact (exec_fadd s).trans (State.fpBinary_of_short hshort)
    · exact (exec_fsub s).trans (State.fpBinary_of_short hshort)
    · exact (exec_fmul s).trans (State.fpBinary_of_short hshort)
    · exact (exec_fdiv s).trans (State.fpBinary_of_short hshort)
  · exact ⟨(exec_fadd s).trans (State.fpBinary_of_some h rfl),
      (exec_fsub s).trans (State.fpBinary_of_some h rfl),
      (exec_fmul s).trans (State.fpBinary_of_some h rfl),
      fun q hq => (exec_fdiv s).trans (State.fpBinary_of_some h hq),
      fun hq => (exec_fdiv s).trans (State.fpBinary_of_none h hq)⟩

end Sys2Proof.Machine
end

section
/-!
PROOFS. binary64's rounding (45_fp_stack.md R311): the significand is the nearest integer in the unit of the last
place, a carry moves it to the next unit, and infinity stands for what rounds past the greatest exponent.
-/

namespace Sys2Proof.Machine

open Sys2Proof

/-! num / den * 2^e counted in two units: what bounds the count in one bounds it in the other. -/

section

variable {num den : Nat} {e q r : Int} {a b : Nat}

/-- A lower bound in units twice as great is one of twice the value. -/
theorem fpDen_succ_le_iff (hd : den ≠ 0) :
    a * fpDen den e (q + 1) ≤ 2 * b * fpNum num e (q + 1) ↔ a * fpDen den e q ≤ b * fpNum num e q := by
  have hp := fpDen_pos (Nat.pos_of_ne_zero hd) e q
  have hp' := fpDen_pos (Nat.pos_of_ne_zero hd) e (q + 1)
  have hs := fpNum_mul_fpDen_succ num den e q
  have hl : a * fpDen den e (q + 1) * fpDen den e q = a * fpDen den e q * fpDen den e (q + 1) := by ac_rfl
  have hr : 2 * b * fpNum num e (q + 1) * fpDen den e q = b * fpNum num e q * fpDen den e (q + 1) := by
    calc 2 * b * fpNum num e (q + 1) * fpDen den e q
        = b * (2 * (fpNum num e (q + 1) * fpDen den e q)) := by ac_rfl
      _ = b * fpNum num e q * fpDen den e (q + 1) := by rw [hs, Nat.mul_assoc]
  rw [← Nat.mul_le_mul_right_iff hp, hl, hr, Nat.mul_le_mul_right_iff hp']

/-- A lower bound in a greater unit is one in a smaller. -/
theorem fpDen_le_of_unit_le (hd : den ≠ 0) (hqr : q ≤ r) (h : a * fpDen den e r ≤ b * fpNum num e r) :
    a * fpDen den e q ≤ b * fpNum num e q := by
  have hp := fpDen_pos (Nat.pos_of_ne_zero hd) e r
  refine Nat.le_of_mul_le_mul_right ?_ hp
  calc a * fpDen den e q * fpDen den e r
      = a * fpDen den e r * fpDen den e q := by ac_rfl
    _ ≤ b * fpNum num e r * fpDen den e q := Nat.mul_le_mul_right _ h
    _ = b * (fpNum num e r * fpDen den e q) := Nat.mul_assoc _ _ _
    _ ≤ b * (fpNum num e q * fpDen den e r) := Nat.mul_le_mul_left _ (fpNum_mul_fpDen_le num den e q r hqr)
    _ = b * fpNum num e q * fpDen den e r := (Nat.mul_assoc _ _ _).symm

end

/-- The nearest integer to n / d is within one half of it, and even where it is one half away. -/
theorem roundHalfEven_spec (n : Nat) {d : Nat} (hd : 0 < d) :
    2 * n ≤ (2 * roundHalfEven n d + 1) * d ∧ 2 * roundHalfEven n d * d ≤ 2 * n + d
    ∧ (2 * n = (2 * roundHalfEven n d + 1) * d ∨ 2 * roundHalfEven n d * d = 2 * n + d →
      roundHalfEven n d % 2 = 0) := by
  have hdiv := Nat.div_add_mod n d
  have hmod := Nat.mod_lt n hd
  simp only [roundHalfEven]
  generalize n / d = k at hdiv ⊢
  generalize n % d = x at hdiv hmod ⊢
  rw [Nat.mul_comm d k] at hdiv
  split
  · next hup =>
    have h1 : (2 * (k + 1) + 1) * d = 2 * (k * d) + 3 * d := by
      show (2 * k + 3) * d = _
      rw [Nat.add_mul, Nat.mul_assoc]
    have h2 : 2 * (k + 1) * d = 2 * (k * d) + 2 * d := by
      show (2 * k + 2) * d = _
      rw [Nat.add_mul, Nat.mul_assoc]
    rw [h1, h2]
    omega
  · next hdown =>
    have h1 : (2 * k + 1) * d = 2 * (k * d) + d := by rw [Nat.succ_mul, Nat.mul_assoc]
    have h2 : 2 * k * d = 2 * (k * d) := Nat.mul_assoc 2 k d
    rw [h1, h2]
    omega

/-- `m` units of 2^q are the nearest number of the format to num / den * 2^e: within half a unit, a quarter below
a power of two, and the even one on a tie. -/
structure FpNearest (num den : Nat) (e : Int) (m : Nat) (q : Int) : Prop where
  upper : 2 * fpNum num e q ≤ (2 * m + 1) * fpDen den e q
  lower : 2 * m * fpDen den e q ≤ 2 * fpNum num e q + fpDen den e q
  quarter : m = 2 ^ 52 → -1074 < q → 4 * m * fpDen den e q ≤ 4 * fpNum num e q + fpDen den e q
  even : 2 * fpNum num e q = (2 * m + 1) * fpDen den e q
    ∨ 2 * m * fpDen den e q = 2 * fpNum num e q + fpDen den e q → m % 2 = 0

theorem fpFinish_carry (neg : Bool) (q : Int) :
    fpFinish neg (2 ^ 53) q = if 971 < q + 1 then .inf neg else .fin neg (2 ^ 52) (q + 1) :=
  rfl

theorem fpFinish_of_ne {m : Nat} (h : m ≠ 2 ^ 53) (neg : Bool) (q : Int) :
    fpFinish neg m q = if 971 < q then .inf neg else .fin neg m q := by
  rw [fpFinish, if_neg h, if_neg h, fpMaxExp]

/-- The ends of `fpFinish`: past the greatest exponent, carried to the next unit, or as it was. -/
theorem fpFinish_cases (neg : Bool) (m : Nat) (q : Int) :
    (fpFinish neg m q = .inf neg ∧ (m = 2 ^ 53 ∧ 971 ≤ q ∨ 972 ≤ q))
    ∨ (fpFinish neg m q = .fin neg (2 ^ 52) (q + 1) ∧ m = 2 ^ 53)
    ∨ fpFinish neg m q = .fin neg m q := by
  by_cases hm : m = 2 ^ 53
  · rw [hm, fpFinish_carry]
    split
    · exact .inl ⟨rfl, .inl ⟨rfl, by omega⟩⟩
    · exact .inr (.inl ⟨rfl, rfl⟩)
  · rw [fpFinish_of_ne hm]
    split
    · exact .inl ⟨rfl, .inr (by omega)⟩
    · exact .inr (.inr rfl)

section

variable {num den m : Nat} {e q : Int}

/-- What rounds up to 2^53 is at most half a unit below it. -/
theorem carry_lower (hd : den ≠ 0) (h : roundHalfEven (fpNum num e q) (fpDen den e q) = 2 ^ 53) :
    (2 ^ 54 - 1) * fpDen den e q ≤ 2 * fpNum num e q := by
  have hp := fpDen_pos (Nat.pos_of_ne_zero hd) e q
  obtain ⟨-, hlower, -⟩ := roundHalfEven_spec (fpNum num e q) hp
  rw [h] at hlower
  omega

/-- After a carry the nearest significand is 2^52 of the next unit. -/
theorem fpNearest_of_carry (hd : den ≠ 0) (hlt : fpNum num e q < 2 ^ 53 * fpDen den e q)
    (h : roundHalfEven (fpNum num e q) (fpDen den e q) = 2 ^ 53) : FpNearest num den e (2 ^ 52) (q + 1) := by
  have hp := fpDen_pos (Nat.pos_of_ne_zero hd) e (q + 1)
  have hlower := (fpDen_succ_le_iff hd).2 (carry_lower hd h)
  have hupper : 2 * 1 * fpNum num e (q + 1) < 2 ^ 53 * fpDen den e (q + 1) := by
    refine Nat.lt_of_not_le fun hge => Nat.not_le.2 hlt ?_
    have := (fpDen_succ_le_iff hd).1 hge
    rwa [Nat.one_mul] at this
  exact ⟨by omega, by omega, fun _ _ => by omega, fun _ => rfl⟩

/-- Without a carry it is the rounded one; no value is rounded up to the power of two 2^52 there. -/
theorem fpNearest_of_roundHalfEven (hd : den ≠ 0)
    (hge : q = fpMinExp ∨ 2 ^ 52 * fpDen den e q ≤ fpNum num e q) :
    FpNearest num den e (roundHalfEven (fpNum num e q) (fpDen den e q)) q := by
  obtain ⟨hupper, hlower, heven⟩ :=
    roundHalfEven_spec (fpNum num e q) (fpDen_pos (Nat.pos_of_ne_zero hd) e q)
  refine ⟨hupper, hlower, fun hm hq => ?_, heven⟩
  obtain hmin | hge := hge
  · exact absurd hq (by rw [hmin]; decide)
  · rw [hm]
    omega

/-- Past the greatest exponent the value is at least the midpoint above the greatest finite number: 2^54 - 1
units of 2^970. -/
theorem midpoint_le_of_overflow (hd : den ≠ 0)
    (hge : q = fpMinExp ∨ 2 ^ 52 * fpDen den e q ≤ fpNum num e q)
    (hover : roundHalfEven (fpNum num e q) (fpDen den e q) = 2 ^ 53 ∧ 971 ≤ q ∨ 972 ≤ q) :
    (2 ^ 54 - 1) * fpDen den e 970 ≤ 1 * fpNum num e 970 := by
  apply (fpDen_succ_le_iff hd).1
  obtain ⟨hm, hq⟩ | hq := hover
  · exact fpDen_le_of_unit_le hd hq (carry_lower hd hm)
  · have hunit : 2 ^ 52 * fpDen den e q ≤ 1 * fpNum num e q := by
      obtain hmin | hge := hge
      · rw [hmin, fpMinExp] at hq
        omega
      · rwa [Nat.one_mul]
    have h972 : 2 ^ 52 * fpDen den e 972 ≤ 1 * fpNum num e 972 := fpDen_le_of_unit_le hd hq hunit
    have h971 : 2 ^ 54 * fpDen den e 971 ≤ 2 * fpNum num e 971 :=
      (fpDen_succ_le_iff hd).1 (show 2 ^ 54 * fpDen den e 972 ≤ 2 * 2 * fpNum num e 972 by omega)
    show (2 ^ 54 - 1) * fpDen den e 971 ≤ 2 * fpNum num e 971
    omega

/-- What rounding can answer: the nearest number of the format, or infinity for what is too great for it. -/
theorem fpRound_cases (neg : Bool) (hn : num ≠ 0) (hd : den ≠ 0) (e : Int) :
    (∃ m q, fpRound neg num den e = .fin neg m q ∧ FpNearest num den e m q)
    ∨ (fpRound neg num den e = .inf neg ∧ (2 ^ 54 - 1) * fpDen den e 970 ≤ fpNum num e 970) := by
  obtain ⟨-, hlt, hge⟩ := fpUlpExp_spec hn hd e
  rw [fpRound_eq _ _ _ _ hn]
  generalize fpUlpExp num den e = q at hlt hge ⊢
  obtain ⟨hr, hover⟩ | ⟨hr, hm⟩ | hr :=
    fpFinish_cases neg (roundHalfEven (fpNum num e q) (fpDen den e q)) q
  · exact .inr ⟨hr, Nat.one_mul (fpNum num e 970) ▸ midpoint_le_of_overflow hd hge hover⟩
  · exact .inl ⟨_, _, hr, fpNearest_of_carry hd hlt hm⟩
  · exact .inl ⟨_, _, hr, fpNearest_of_roundHalfEven hd hge⟩

end

end Sys2Proof.Machine
end

section
/-!
PROOFS. Integers on the FP stack under binary64 (45_fp_stack.md R311, R320, R321): an integer of 32 bits needs no
rounding, so truncation gives it back.
-/

namespace Sys2Proof.Machine

open Sys2Proof

theorem pow2Up_of_nonpos {e : Int} (h : e ≤ 0) : pow2Up e = 1 := by
  rw [pow2Up, Int.toNat_of_nonpos h, Nat.pow_zero]

/-- The unit that an integer of at most 52 bits is counted in is 1 or a fraction of it. -/
theorem fpUlpExp_nonpos {k : Nat} (hk : k ≠ 0) (h : k < 2 ^ 52) : fpUlpExp k 1 0 ≤ 0 := by
  obtain ⟨-, -, hmin | hge⟩ := fpUlpExp_spec hk Nat.one_ne_zero 0
  · rw [hmin]
    decide
  · refine Int.not_lt.1 fun hpos => ?_
    have hnum : fpNum k 0 (fpUlpExp k 1 0) = k := by
      rw [fpNum, pow2Up_of_nonpos (by omega), Nat.mul_one]
    have hden : 0 < fpDen 1 0 (fpUlpExp k 1 0) := fpDen_pos Nat.one_pos _ _
    omega

/-- An integer of at most 52 bits is a whole number of those units, so it is not rounded. -/
theorem fpRound_natural (neg : Bool) {k : Nat} (h : k < 2 ^ 52) :
    ∃ m q, fpRound neg k 1 0 = .fin neg m q ∧ m * 2 ^ q.toNat = k * 2 ^ (-q).toNat := by
  by_cases hk : k = 0
  · subst hk
    exact ⟨0, fpMinExp, rfl, by rw [Nat.zero_mul, Nat.zero_mul]⟩
  · have hq := fpUlpExp_nonpos hk h
    obtain ⟨-, hlt, -⟩ := fpUlpExp_spec hk Nat.one_ne_zero 0
    rw [fpRound_eq _ _ _ _ hk]
    generalize fpUlpExp k 1 0 = q at hq hlt ⊢
    have hden : fpDen 1 0 q = 1 := by rw [fpDen, pow2Up_of_nonpos (by omega)]
    have hround : roundHalfEven (fpNum k 0 q) 1 = fpNum k 0 q := by
      simpa only [Nat.mul_one] using roundHalfEven_exact Nat.one_pos (fpNum k 0 q)
    rw [hden, Nat.mul_one] at hlt
    refine ⟨fpNum k 0 q, q, ?_, ?_⟩
    · rw [hden, hround, fpFinish_of_ne (Nat.ne_of_lt hlt), if_neg (by omega)]
    · rw [Int.toNat_of_nonpos hq, Nat.pow_zero, Nat.mul_one, fpNum, pow2Up, Int.zero_sub]

/-- `fromInt` of a signed 32-bit integer is exact. -/
theorem fp64FromInt_exact (r : Word) :
    ∃ m q, fp64FromInt r.toInt = .fin r.msb m q ∧ m * 2 ^ q.toNat = r.toInt.natAbs * 2 ^ (-q).toNat := by
  have hlow := @BitVec.le_toInt 32 r
  have hhigh := @BitVec.toInt_lt 32 r
  rw [fp64FromInt, ← BitVec.msb_eq_toInt]
  exact fpRound_natural r.msb (by omega)

theorem ofInt_fpSigned_msb (r : Word) : BitVec.ofInt 32 (fpSigned r.msb r.toInt.natAbs) = r := by
  have hsigned : fpSigned r.msb r.toInt.natAbs = r.toInt := by
    rw [fpSigned, BitVec.msb_eq_toInt]
    split
    · next hneg => have := of_decide_eq_true hneg; omega
    · next hpos => have := mt decide_eq_true hpos; omega
  rw [hsigned, BitVec.ofInt_toInt]

/-- `toInt` takes back what `fromInt` gave. -/
theorem fp64ToInt_fp64FromInt (r : Word) : fp64ToInt (fp64FromInt r.toInt) = some r := by
  obtain ⟨m, q, hr, hm⟩ := fp64FromInt_exact r
  rw [hr, fp64ToInt, pow2Up, pow2Up, hm, Nat.mul_div_cancel _ (Nat.two_pow_pos _), ofInt_fpSigned_msb]

theorem fp64ToInt_eq_none_iff {v : Fp} : fp64ToInt v = none ↔ v = .nan ∨ ∃ n, v = .inf n := by
  cases v <;> simp [fp64ToInt]

/-- Settles O44: FPOP finds on top the value that FPUSH put there, and `toInt` takes back what `fromInt` gave. -/
theorem integerCrossesTheFpStack : Obligations.IntegerCrossesTheFpStack := by
  refine ⟨fun s d e hcfg hfree => ?_, fp64FromInt_exact, fun v => fp64ToInt_eq_none_iff, fun n m e => ?_⟩
  · have hback : fpToInt s.params.fpCfg (fpFromInt s.params.fpCfg (s.readReg d).toInt) = some (s.readReg d) := by
      rw [hcfg]
      exact fp64ToInt_fp64FromInt (s.readReg d)
    exact ⟨_, _, exec_fpush_of_free hfree, exec_fpop_of_some rfl hback, rfl, rfl, rfl,
      BitVec.add_assoc s.pc 4#32 4#32⟩
  · exact ⟨m * 2 ^ e.toNat / 2 ^ (-e).toNat, Nat.div_mul_le_self _ _,
      Nat.lt_mul_of_div_lt (Nat.lt_succ_self _) (Nat.two_pow_pos _), rfl⟩

end Sys2Proof.Machine
end

section
/-!
PROOFS. binary64's operations (45_fp_stack.md R311): each is the rounding of its exact result, but for NaN, the
infinities and a zero divisor.
-/

namespace Sys2Proof.Machine

open Sys2Proof

/-- Aligned to the lesser exponent, a significand is the signed integer that `fpSigned` says. -/
theorem fpSigned_mul_pow2Up (n : Bool) (m : Nat) (e : Int) :
    fpSigned n m * pow2Up e = (if n then -1 else 1) * (m * 2 ^ e.toNat : Int) := by
  have hpow : (pow2Up e : Int) = 2 ^ e.toNat := Int.natCast_pow 2 e.toNat
  rw [hpow]
  cases n with
  | false => exact (Int.one_mul _).symm
  | true => exact (Int.neg_mul _ _).trans (Int.neg_one_mul _).symm

theorem fpSigned_not (n : Bool) (m : Nat) : fpSigned (!n) m = -fpSigned n m := by
  cases n with
  | false => rfl
  | true => exact (Int.neg_neg _).symm

/-- The exact sum of two finite values is that of their aligned significands. -/
theorem fpAddFin_eq {n1 n2 : Bool} {m1 m2 : Nat} {e1 e2 x y : Int}
    (hx : fpSigned n1 m1 * pow2Up (e1 - min e1 e2) = x) (hy : fpSigned n2 m2 * pow2Up (e2 - min e1 e2) = y) :
    fpAddFin n1 m1 e1 n2 m2 e2 =
      if x + y = 0 then .fin (n1 && n2) 0 (-1074)
      else fpRound (decide (x + y < 0)) (x + y).natAbs 1 (min e1 e2) := by
  subst hx hy
  rfl

theorem fp64Div_eq_none_iff {a b : Fp} : fp64Div a b = none ↔ ∃ n e, b = .fin n 0 e := by
  cases b with
  | nan => cases a <;> simp [fp64Div]
  | inf n => cases a <;> simp [fp64Div]
  | fin n m e => cases a <;> simp [fp64Div]

/-- IEEE's NaN: an operation on it answers it, unless the operation has no answer. -/
theorem fp64_nan (v : Fp) :
    fp64Add .nan v = .nan ∧ fp64Add v .nan = .nan ∧ fp64Sub .nan v = .nan ∧ fp64Sub v .nan = .nan
    ∧ fp64Mul .nan v = .nan ∧ fp64Mul v .nan = .nan
    ∧ fp64Div v .nan = some .nan ∧ ∀ q, fp64Div .nan v = some q → q = .nan := by
  cases v with
  | nan => exact ⟨rfl, rfl, rfl, rfl, rfl, rfl, rfl, fun q h => (Option.some.inj h).symm⟩
  | inf n => exact ⟨rfl, rfl, rfl, rfl, rfl, rfl, rfl, fun q h => (Option.some.inj h).symm⟩
  | fin n m e =>
    refine ⟨rfl, rfl, rfl, rfl, rfl, rfl, rfl, fun q h => ?_⟩
    rw [fp64Div] at h
    split at h
    · cases h
    · exact (Option.some.inj h).symm

/-- Settles O45: the sums by their aligned significands, the product and the quotient as the model has them, and
the rounding by what it can answer. -/
theorem fpRoundsToNearestEven : Obligations.FpRoundsToNearestEven := by
  refine ⟨fun n1 m1 e1 n2 m2 e2 => ⟨?_, ?_, rfl, fun hm => if_neg hm⟩, fp64_nan, fun n1 n2 m e => ?_,
    fun a b => fp64Div_eq_none_iff, fun neg den e => rfl, fun neg num den e hn hd => ?_⟩
  · exact fpAddFin_eq (fpSigned_mul_pow2Up n1 m1 _) (fpSigned_mul_pow2Up n2 m2 _)
  · refine fpAddFin_eq (fpSigned_mul_pow2Up n1 m1 _) (y := -_) ?_
    rw [fpSigned_not, Int.neg_mul, fpSigned_mul_pow2Up]
  · refine ⟨rfl, ?_, rfl, rfl, rfl, rfl, rfl, rfl, rfl, rfl, fun hm => if_neg hm, rfl⟩
    cases n1 <;> cases n2 <;> rfl
  · have hcanon := fpRound_canonical neg num hd e
    obtain ⟨m, q, hr, hnear⟩ | ⟨hr, hmid⟩ := fpRound_cases neg hn hd e
    · rw [hr] at hcanon ⊢
      refine ⟨fun n m' q' h => ?_, nofun, nofun⟩
      cases h
      exact ⟨rfl, hcanon, hnear.upper, hnear.lower, hnear.quarter, hnear.even⟩
    · rw [hr]
      refine ⟨nofun, fun n h => ?_, nofun⟩
      cases h
      exact ⟨rfl, hmid⟩

end Sys2Proof.Machine
end

section
/-!
PROOFS. The scheduler's invariant over every step (60_exceptions.md R449).
-/

namespace Sys2Proof.Machine

open Sys2Proof

/-- Settles O59: the instruction cycle, the host's actions and the driver's own writes keep the invariant. -/
theorem stepKeepsSchedulerInv : Obligations.StepKeepsSchedulerInv :=
  fun _ _ hs ht => schedulerInv_stepKeeps.step ht hs

end Sys2Proof.Machine
end

section
/-!
PROOFS. The two ends of an instruction (60_exceptions.md R402, R403, R446): it completes and is counted, or it halts
the engine in the state of before it, memory aside. A fetch that faults is the second (R404).
-/

namespace Sys2Proof.Machine

open Sys2Proof

section

variable {s t u : State}

/-- Memory aside, `t` is `s` halted by a fault. -/
def State.FaultedFrom (s t : State) : Prop :=
  ∃ f, t.outsideMemory = (s.haltedBy f).outsideMemory

/-- `t` is after an instruction from `s` that completed: it is counted and recorded no fault of its own. -/
structure State.CountedFrom (s t : State) : Prop where
  fault : t.fault = s.fault ∨ t.fault = none
  threads : t.threads = s.countedThreads
  total : t.totalInstret = s.totalInstret + s.runningThread.isSome.toNat

/-- States that agree outside memory have the same fields there. -/
theorem State.field_of_outsideMemory {α : Type} (h : u.outsideMemory = s.outsideMemory) (g : State → α) :
    g u.outsideMemory = g s.outsideMemory :=
  congrArg g h

/-- A field outside memory is that of the state halted by the fault recorded. -/
theorem State.FaultedFrom.field {α : Type} {f : FaultRec} (h : s.FaultedFrom t) (hf : t.fault = some f)
    (g : State → α) : g t.outsideMemory = g (s.haltedBy f).outsideMemory := by
  obtain ⟨f', h⟩ := h
  have hf' : t.fault = some f' := congrArg State.fault h
  cases hf.symm.trans hf'
  exact congrArg g h

theorem State.FaultedFrom.fault_ne_none (h : s.FaultedFrom t) : t.fault ≠ none := by
  obtain ⟨f, h⟩ := h
  have hf : t.fault = some f := congrArg State.fault h
  simp [hf]

/-- A fault puts the registers back, and accesses change nothing else outside memory. -/
theorem Accesses.haltWith_outsideMemory (h : Accesses s u) (f : FaultRec) :
    (u.haltWith s f).outsideMemory = (s.haltedBy f).outsideMemory := by
  have hf := congrArg (fun v : State => (v.haltWith s f).outsideMemory) h.outsideMemory
  exact hf

/-- Every instruction ends in one of the two ways. -/
theorem Performs.counted_or_faulted (h : Performs s t) : s.CountedFrom t ∨ s.FaultedFrom t := by
  rcases h with ⟨u, _, ha, ⟨_, _, _, _, _, _, hstop, rfl⟩, _⟩ | ⟨u, f, ha, rfl⟩
  · obtain ⟨hthreads, _, _, hrunning, htotal, _⟩ := ha.threads
    refine .inl ⟨?_, State.countedThreads_congr hrunning hthreads, ?_⟩
    · exact hstop.imp (fun h => h.2.trans ha.fault) And.right
    · show u.totalInstret + u.runningThread.isSome.toNat = _
      rw [htotal, State.runningThread_congr hrunning hthreads]
  · exact .inr ⟨f, ha.haltWith_outsideMemory f⟩

/-- Which end it is depends on the state before as far as it lies outside memory. -/
theorem State.CountedFrom.of_outsideMemory (h : u.CountedFrom t) (hu : u.outsideMemory = s.outsideMemory) :
    s.CountedFrom t := by
  have hthreads : u.threads = s.threads := State.field_of_outsideMemory hu State.threads
  have hrunning : u.running = s.running := State.field_of_outsideMemory hu State.running
  have htotal : u.totalInstret = s.totalInstret := State.field_of_outsideMemory hu State.totalInstret
  have hfault : u.fault = s.fault := State.field_of_outsideMemory hu State.fault
  exact ⟨hfault ▸ h.fault, h.threads.trans (State.countedThreads_congr hrunning hthreads),
    by rw [h.total, htotal, State.runningThread_congr hrunning hthreads]⟩

theorem State.FaultedFrom.of_outsideMemory (h : u.FaultedFrom t) (hu : u.outsideMemory = s.outsideMemory) :
    s.FaultedFrom t :=
  h.imp fun f hf => hf.trans (State.field_of_outsideMemory hu fun v => (v.haltedBy f).outsideMemory)

theorem State.CountedFrom.settle (h : s.CountedFrom t) (pre : State) : s.CountedFrom (settle pre t) := by
  rcases settle_cases pre t with e | e <;> rw [e]
  · exact h
  · exact ⟨h.fault, h.threads, h.total⟩

theorem State.FaultedFrom.settle (h : s.FaultedFrom t) (pre : State) : s.FaultedFrom (settle pre t) :=
  h.imp fun _ hf => (settle_outsideMemory pre t).trans hf

/-- Every step of the engine ends in one of the two ways: a fetch or a decoding that fails is a fault. -/
theorem State.engineStep_counted_or_faulted (h : s.engineStep = .next t) :
    s.CountedFrom t ∨ s.FaultedFrom t := by
  unfold State.engineStep at h
  cases hf : s.fetch with
  | trap f u =>
    simp only [hf, Host.Outcome.next.injEq] at h
    have hu : s.FaultedFrom (u.haltWith s f) := ⟨f, (State.load_trap_accesses hf).haltWith_outsideMemory f⟩
    exact .inr (h ▸ hu.settle s)
  | ok w u =>
    simp only [hf] at h
    split at h
    · have hu : s.FaultedFrom (u.haltWith s (.unimplementedOpcode s.pc w)) :=
        ⟨_, (State.load_accesses hf).haltWith_outsideMemory _⟩
      exact .inr (Host.Outcome.next.inj h ▸ hu.settle s)
    · next i _ =>
      have hu : u.outsideMemory = s.outsideMemory := State.load_outsideMemory hf
      obtain ⟨v, hv, hp⟩ := exec_performs i u
      rw [hv] at h
      obtain rfl := Host.Outcome.next.inj h
      exact hp.counted_or_faulted.imp (fun hc => (hc.of_outsideMemory hu).settle s)
        fun hf => (hf.of_outsideMemory hu).settle s

/-- Where no fault stood recorded before, one recorded after is the instruction's own. -/
theorem State.faultedFrom_of_fault (h : s.CountedFrom t ∨ s.FaultedFrom t) (hs : s.fault = none)
    (ht : t.fault ≠ none) : s.FaultedFrom t :=
  h.resolve_left fun hc => hc.fault.elim (fun e => ht (e.trans hs)) ht

end

/-- Settles O46: what ends with a fault recorded did not complete, so it left all but memory. -/
theorem faultCommitsNothing : Obligations.FaultCommitsNothing := by
  refine ⟨fun s t f hs ht hf => ?_, fun s i hs => ?_⟩
  · have h := State.faultedFrom_of_fault (State.engineStep_counted_or_faulted ht) hs (by simp [hf])
    exact ⟨h.field hf State.halted, h.field hf State.regs, h.field hf State.flags, h.field hf State.fst,
      h.field hf State.pc, h.field hf State.suspend, h.field hf State.threads, h.field hf State.totalInstret,
      h.field hf State.running, h.field hf State.readyQueue⟩
  · obtain ⟨t, ht, hp⟩ := exec_performs i s
    refine ⟨t, ht, fun f hf => ?_⟩
    have h := State.faultedFrom_of_fault hp.counted_or_faulted hs (by simp [hf])
    exact ⟨h.field hf State.halted, h.field hf State.regs, h.field hf State.flags, h.field hf State.fst,
      h.field hf State.pc, h.field hf State.suspend, h.field hf State.threads, h.field hf State.totalInstret⟩

theorem State.runningThread_of_get {s : State} {id : Nat} {th : Thread} (hr : s.running = some id)
    (hg : Assoc.get s.threads id = some th) : s.runningThread = some th := by
  rw [State.runningThread, hr, Option.bind_some, hg]

/-- Counting under a running thread adds one to its record and leaves the others. -/
theorem State.countedThreads_of_running {s : State} {id : Nat} {th : Thread} (hr : s.running = some id)
    (hg : Assoc.get s.threads id = some th) :
    s.countedThreads =
      Assoc.put s.threads id { th with slice := th.slice + 1, instret := th.instret + 1 } := by
  simp [State.countedThreads, hr, State.runningThread_of_get hr hg]

/-- Settles O49: the completed instruction is counted under the running thread, the faulting one is not. -/
theorem completedInstructionsAreCounted : Obligations.CompletedInstructionsAreCounted := by
  intro s t id th hs hr hg ht
  have hends := State.engineStep_counted_or_faulted ht
  refine ⟨fun hf => ?_, fun hf => ?_⟩
  · have hc := hends.resolve_right fun h => h.fault_ne_none hf
    refine ⟨?_, fun j => ?_⟩
    · rw [hc.total, State.runningThread, hr, Option.bind_some, hg]
      rfl
    · rw [hc.threads, State.countedThreads_of_running hr hg, Assoc.get_put]
  · obtain ⟨f, hf'⟩ := Option.ne_none_iff_exists'.1 hf
    have h := State.faultedFrom_of_fault hends hs hf
    exact ⟨h.field hf' State.totalInstret, h.field hf' State.threads⟩

/-! A fetch that faults. -/

/-- The cache with its counters, and what the MMIO handlers were sent. -/
def State.accessTrace (s : State) : List (Nat × Word) × Nat × Nat × List DeviceRequest :=
  (s.cache, s.cacheHits, s.cacheMisses, s.deviceLog)

theorem settle_accessTrace (pre post : State) : (settle pre post).accessTrace = post.accessTrace := by
  rcases settle_cases pre post with e | e
  · rw [e]
  · rw [e]
    rfl

/-- An access that faults takes a page only where the address translated is out of range. -/
theorem State.FaultsWith.eq_of_no_page {s u : State} {a : Word} {w : Width} {k : AccessKind} {f : FaultRec}
    (h : s.FaultsWith a w k f u)
    (hn : (∀ b k, f ≠ .outOfRangeAccess s.pc b k) ∨ ∀ p v, s.translate a = some (p, v) → v = s) : u = s := by
  rcases h with ⟨_, _, rfl⟩ | ⟨_, _, _, rfl⟩ | ⟨_, _, _, rfl⟩ | ⟨_, p, ht, _, hf⟩
  · rfl
  · rfl
  · rfl
  · exact hn.elim (fun h => absurd hf (h _ _)) fun h => h p u ht

theorem State.engineStep_of_fetch_fault {s u : State} {f : FaultRec}
    (h : s.FaultsWith s.pc .word .fetch f u) : s.engineStep = .next (settle s (u.haltedBy f)) := by
  rw [State.engineStep, State.fetch, State.load_trap_iff.2 h, ← h.touched.haltWith f]

/-- Settles O10: the engine halts in the state of the fetch's translation, which the settling leaves alone but in
memory and pages. -/
theorem fetchFaultForcesACleanHalt : Obligations.FetchFaultForcesACleanHalt := by
  intro s f h
  obtain ⟨u, hu⟩ := State.faultsWith_of_accessFault h
  have heq := hu.touched.eq
  have hdevices : (settle s (u.haltedBy f)).accessTrace = s.accessTrace := by
    rw [settle_accessTrace, heq]
    rfl
  simp only [State.accessTrace, Prod.mk.injEq] at hdevices
  obtain ⟨hcache, hhits, hmisses, hlog⟩ := hdevices
  refine ⟨_, State.engineStep_of_fetch_fault hu, ?_, hcache, hhits, hmisses, hlog, fun hn => ?_⟩
  · rw [settle_outsideMemory, heq]
    rfl
  · obtain rfl := hu.eq_of_no_page hn
    exact settle_eq_of_memory_eq rfl rfl rfl

end Sys2Proof.Machine
end

section
/-!
PROOFS. INT, a handler and IRET (60_exceptions.md R411 to R413): the two words of the frame are read back where they
were pushed.
-/

namespace Sys2Proof.Machine

open Sys2Proof

/-- A word is unchanged by a write to another that does not overlap it. -/
theorem memRead_memWrite_of_disjoint {p p' : Nat} (hp : p + 4 ≤ p' ∨ p' + 4 ≤ p) (m : List Host.Cell) (v : Word) :
    memRead (memWrite m p' .word v) p .word = memRead m p .word := by
  refine memRead_congr fun q hlo hhi => ?_
  have hhi : q < p + 4 := hhi
  rw [memByte_memWrite_word, if_neg (by omega)]

section

variable {s t : State} {x y : Word}

/-- A state holds a trap frame at R14: the flag word, and the return address above it. -/
structure State.HoldsFrame (s : State) (flags ret : Word) : Prop where
  plainFlags : s.PlainWord (s.readReg spIndex) .load
  plainRet : s.PlainWord (s.readReg spIndex + 4#32) .load
  flags : s.valueAt (s.readReg spIndex).toNat .word = flags
  ret : s.valueAt (s.readReg spIndex + 4#32).toNat .word = ret

/-- Where a frame stands depends on R14, memory and its regions alone. -/
theorem State.HoldsFrame.congr (h : s.HoldsFrame x y) (hmem : t.mem = s.mem) (hsize : t.memSize = s.memSize)
    (hpaging : t.pagingEnabled = s.pagingEnabled) (hregions : t.regions = s.regions) (hmmio : t.mmio = s.mmio)
    (hparams : t.params = s.params) (hsp : t.readReg spIndex = s.readReg spIndex) : t.HoldsFrame x y := by
  obtain ⟨hp1, hp2, hv1, hv2⟩ := h
  rw [← memRead_eq_valueAt, ← hmem, memRead_eq_valueAt, ← hsp] at hv1 hv2
  rw [← hsp] at hp1 hp2
  exact ⟨hp1.congr hregions hmmio hpaging hsize hparams, hp2.congr hregions hmmio hpaging hsize hparams, hv1, hv2⟩

/-- INT into plain memory leaves a frame with its return address and the flag word as it was. -/
theorem exec_int_holdsFrame (n : Half) (hs1 : s.PlainWord (s.readReg 14#4 - 4#32) .store)
    (hs2 : s.PlainWord (s.readReg 14#4 - 8#32) .store) (hl1 : s.PlainWord (s.readReg 14#4 - 4#32) .load)
    (hl2 : s.PlainWord (s.readReg 14#4 - 8#32) .load) :
    ∃ t, exec (.int n) s = .next t ∧ t.readReg 14#4 = s.readReg 14#4 - 8#32
      ∧ t.HoldsFrame s.flags (s.pc + 4#32) := by
  obtain ⟨s1, s2, h1, h2, _, _, hmem⟩ :=
    State.exists_push32_push32_of_plainWord (s.pc + 4#32) s.flags hs1 hs2
  have hc : s2.control = s.control := ((State.push32_accesses h1).trans (State.push32_accesses h2)).control
  have hdisjoint := frameWords_disjoint hs1.aligned hs2.aligned
  refine ⟨_, exec_int_of_ok n h1 h2, s.readReg_writeReg_self 14#4 _, ?_⟩
  generalize ht : s2.after _ _ _ _ = t
  have htmem : t.mem = s2.mem := ht ▸ rfl
  have htc : t.control = s.control := ht ▸ hc
  have hsp : t.readReg spIndex = s.readReg 14#4 - 8#32 := ht ▸ s.readReg_writeReg_self 14#4 _
  have hret : t.readReg spIndex + 4#32 = s.readReg 14#4 - 4#32 := by
    rw [hsp]
    bv_omega
  refine ⟨hsp ▸ hl2.of_control htc, hret ▸ hl1.of_control htc, ?_, ?_⟩
  · rw [← memRead_eq_valueAt, hsp, htmem, hmem]
    exact memRead_memWrite_self _ _ _ _
  · rw [← memRead_eq_valueAt, hret, htmem, hmem]
    exact (memRead_memWrite_of_disjoint hdisjoint _ _).trans (memRead_memWrite_self _ _ _ _)

/-- IRET where a frame stands goes to its return address with its flag word, IE set, and frees it. -/
theorem exec_iret_of_holdsFrame (h : s.HoldsFrame x y) :
    ∃ u, exec .iret s = .next u ∧ u.pc = y ∧ u.regs = s.regsWith 14#4 (s.readReg 14#4 + 8#32)
      ∧ u.flags = setFlag x .ie true := by
  obtain ⟨_, _, h1, h2, _, _⟩ := State.exists_pop32_pop32_of_plainWord h.plainFlags h.plainRet
  rw [h.flags] at h1
  rw [h.ret] at h2
  exact ⟨_, exec_iret_of_ok h1 h2, rfl, rfl, (setFlag_ie_true x).symm⟩

end

/-- Settles O40: the handler keeps the frame that INT leaves, and IRET takes it down. -/
theorem iretReturnsFromInt : Obligations.IretReturnsFromInt := by
  intro s n hs1 hs2 hl1 hl2
  obtain ⟨t, ht, htsp, hframe⟩ := exec_int_holdsFrame n hs1 hs2 hl1 hl2
  refine ⟨t, ht, fun handled hmem hsize hpaging hregions hmmio hparams hsp => ?_⟩
  obtain ⟨u, hu, hpc, hregs, hflags⟩ :=
    exec_iret_of_holdsFrame (hframe.congr hmem hsize hpaging hregions hmmio hparams hsp)
  have hread := State.readReg_congr (t := handled.writeReg 14#4 (handled.readReg 14#4 + 8#32)) hregs
  refine ⟨u, hu, hpc, ?_, fun r hr => ?_, fun k hk => ?_⟩
  · rw [hread, State.readReg_writeReg_self, hsp, htsp, BitVec.sub_add_cancel]
  · rw [hread, State.readReg_writeReg_ne _ _ _ _ hr]
  · rw [hflags]
    exact getLsbD_setFlag _ _ _ _ hk

end Sys2Proof.Machine
end

section
/-!
PROOFS. The framebuffer (60_exceptions.md R431): pixels of the buffer have keys of their own.
-/

namespace Sys2Proof.Machine

open Sys2Proof

section

variable {s : State} {x y x' y' : Int}

theorem State.inBuffer_iff :
    s.inBuffer x y = true ↔ 0 ≤ x ∧ x < s.params.fbWidth ∧ 0 ≤ y ∧ y < s.params.fbHeight := by
  simp only [State.inBuffer, Bool.and_eq_true, decide_eq_true_eq, and_assoc]

theorem State.inBuffer_eq_false_iff :
    s.inBuffer x y = false ↔ ¬(0 ≤ x ∧ x < s.params.fbWidth ∧ 0 ≤ y ∧ y < s.params.fbHeight) := by
  rw [← State.inBuffer_iff, Bool.not_eq_true]

/-- A pixel of the buffer is found again from its key: by its quotient and remainder. -/
theorem State.pixelKey_injective (h : s.inBuffer x y = true) (h' : s.inBuffer x' y' = true)
    (hk : s.pixelKey x' y' = s.pixelKey x y) : x' = x ∧ y' = y := by
  obtain ⟨hx0, hx, hy0, _⟩ := State.inBuffer_iff.1 h
  obtain ⟨hx0', hx', hy0', _⟩ := State.inBuffer_iff.1 h'
  have hlt : x.toNat < s.params.fbWidth := by omega
  have hlt' : x'.toNat < s.params.fbWidth := by omega
  have hmod := congrArg (· % s.params.fbWidth) hk
  have hdiv := congrArg (· / s.params.fbWidth) hk
  simp only [State.pixelKey, Nat.mul_add_mod', Nat.mod_eq_of_lt hlt,
    Nat.mod_eq_of_lt hlt'] at hmod
  simp only [State.pixelKey, Nat.add_comm (_ * _), Nat.add_mul_div_right _ _ (Nat.zero_lt_of_lt hlt),
    Nat.div_eq_of_lt hlt, Nat.div_eq_of_lt hlt', Nat.zero_add] at hdiv
  omega

theorem State.setPixel_of_outside (h : s.inBuffer x y = false) (c : Nat) : s.setPixel x y c = s := by
  simp [State.setPixel, h]

theorem State.getPixel_of_outside (h : s.inBuffer x y = false) : s.getPixel x y = 0 := by
  simp [State.getPixel, h]

/-- What every key holds after a pixel of the buffer is written. -/
theorem State.getD_setPixel (h : s.inBuffer x y = true) (c k : Nat) :
    (Assoc.get (s.setPixel x y c).framebuffer k).getD 0 =
      if k = s.pixelKey x y then c % 2 ^ s.params.fbColor else (Assoc.get s.framebuffer k).getD 0 := by
  rw [State.setPixel, if_pos h]
  by_cases hc : c % 2 ^ s.params.fbColor = 0
  · simp only [hc, if_true, Assoc.get_erase]
    split <;> rfl
  · simp only [hc, if_false, Assoc.get_put]
    split <;> rfl

/-- A pixel read after a pixel of the buffer was written is read by the key it had before. -/
theorem State.getPixel_setPixel (h : s.inBuffer x y = true) (c : Nat) (x' y' : Int) :
    (s.setPixel x y c).getPixel x' y' =
      if s.inBuffer x' y' = true ∧ s.pixelKey x' y' = s.pixelKey x y then c % 2 ^ s.params.fbColor
      else s.getPixel x' y' := by
  have hp := (s.setPixel_params x y c).1
  have hin : (s.setPixel x y c).inBuffer x' y' = s.inBuffer x' y' := by simp only [State.inBuffer, hp]
  have hkey : (s.setPixel x y c).pixelKey x' y' = s.pixelKey x' y' := by simp only [State.pixelKey, hp]
  cases h' : s.inBuffer x' y' with
  | false => simp [State.getPixel_of_outside, hin, h']
  | true =>
    simp only [State.getPixel, hin, hkey, h', if_true, true_and]
    exact State.getD_setPixel h c _

end

/-- Settles O55: a pixel written outside the buffer is none, and one inside is read back by its own key alone. -/
theorem framebufferPixels : Obligations.FramebufferPixels := by
  intro s x y c inside
  refine ⟨fun h => ?_, fun h => ?_, fun x' y' hne => ?_⟩
  · have hin := State.inBuffer_iff.2 h
    rw [State.getPixel_setPixel hin, if_pos ⟨hin, rfl⟩]
  · have hout := State.inBuffer_eq_false_iff.2 h
    exact ⟨State.setPixel_of_outside hout c, State.getPixel_of_outside hout⟩
  · cases hin : s.inBuffer x y with
    | false => rw [State.setPixel_of_outside hin]
    | true =>
      rw [State.getPixel_setPixel hin, if_neg]
      rintro ⟨hin', hk⟩
      obtain ⟨rfl, rfl⟩ := State.pixelKey_injective hin hin' hk
      exact hne.elim (· rfl) (· rfl)

end Sys2Proof.Machine
end

section
/-!
PROOFS. The driver loop (60_exceptions.md R447): its step for each reason the engine stopped.
-/

namespace Sys2Proof.Machine

open Sys2Proof

section

variable {s : State} {id : Nat}

/-! The step of the driver loop in each of its cases. -/

theorem step_of_no_thread (hd : s.driver = .sched) (hr : s.running = none) : step s = s.dispatchStep := by
  simp [step, State.driverStep, State.schedStep, hd, hr]

theorem step_of_thread (hd : s.driver = .sched) (hr : s.running = some id) : step s = s.threadStep id := by
  simp [step, State.driverStep, State.schedStep, hd, hr]

theorem step_of_thread_halted (hd : s.driver = .sched) (hr : s.running = some id) (hh : s.halted = true) :
    step s = .next (s.terminate id) := by
  simp [step_of_thread hd hr, State.threadStep, hh]

theorem step_of_thread_syscall {q : SyscallRequest} (hd : s.driver = .sched) (hr : s.running = some id)
    (hh : s.halted = false) (hs : s.suspend = .syscall q) : step s = .next s.kernelRespond := by
  simp [step_of_thread hd hr, State.threadStep, hh, hs]

theorem step_of_thread_yields (hd : s.driver = .sched) (hr : s.running = some id) (hh : s.halted = false)
    (hs : s.suspend = .yield ∨ s.suspend = .quota) : step s = .next s.yieldCurrent := by
  rcases hs with hs | hs <;> simp [step_of_thread hd hr, State.threadStep, hh, hs]

/-- With no thread running the loop dispatches, waits for a blocked thread, or stops. -/
theorem State.dispatchStep_eq (s : State) :
    s.dispatchStep =
      if (popReady s.unblockDue.threads s.unblockDue.readyQueue).isSome ∨ s.unblockDue.someBlocked = true
      then .next s.unblockDue.scheduleNext.2 else .fault .nothingToRun := by
  rcases s.unblockDue.scheduleNext_cases with ⟨id, rest, t, hp, _, _, he⟩ | ⟨hp, he⟩
  · simp [State.dispatchStep, hp, he]
  · simp only [State.dispatchStep, hp, he, Option.isSome_none, Bool.false_eq_true, false_or]
    rfl

end

/-- Settles O12: each clause is a step of the loop that the host has started. -/
theorem driverLoopAct : Obligations.DriverLoopAct := by
  refine ⟨fun s hd => ?_, fun s hd hh => ?_, fun s hd hh hs => ?_, fun s q hd hh hs => ?_,
    fun s q id => step_of_thread_syscall, fun s id => step_of_thread_halted, fun s id => step_of_thread_yields,
    fun s hd hr => (step_of_no_thread hd hr).trans s.dispatchStep_eq⟩
  · simp [step, State.driverStep, hd]
  · simp [step, State.driverStep, State.runStep, hd, hh]
  · rcases hs with hs | hs <;> simp [step, State.driverStep, State.runStep, hd, hh, hs]
  · simp [step, State.driverStep, State.runStep, hd, hh, hs]

end Sys2Proof.Machine
end

section
/-!
PROOFS. The scheduler's operations (60_exceptions.md R441 to R443, R445) as the rules' own pseudocode, and the
waking of the sleepers (R450).
-/

namespace Sys2Proof.Machine

open Sys2Proof

/-! schedule_next: the queue is strict first in, first out. -/

section

variable {threads : List (Nat × Thread)} {q rest skipped : List Nat} {id : Nat} {th : Thread}

theorem isReady_of_get (hg : Assoc.get threads id = some th) (hs : th.state = .ready) :
    isReady threads id = true :=
  isReady_iff.2 ⟨th, hg, hs⟩

theorem isReady_eq_false_of_get (h : ∀ u, Assoc.get threads id = some u → u.state ≠ .ready) :
    isReady threads id = false := by
  rw [← Bool.not_eq_true, isReady_iff]
  exact fun ⟨u, hu, hs⟩ => h u hu hs

/-- Threads that are not ready are dropped from the head of the queue. -/
theorem popReady_append (h : ∀ j ∈ skipped, isReady threads j = false) :
    popReady threads (skipped ++ q) = popReady threads q := by
  induction skipped with
  | nil => rfl
  | cons j tail ih =>
    obtain ⟨hj, htail⟩ := List.forall_mem_cons.1 h
    simp [popReady, hj, ih htail]

theorem popReady_cons (h : isReady threads id = true) : popReady threads (id :: rest) = some (id, rest) :=
  if_pos h

theorem popReady_eq_none (h : ∀ j ∈ q, isReady threads j = false) : popReady threads q = none := by
  rw [← List.append_nil q, popReady_append h]
  rfl

end

section

variable {s t : State} {id : Nat} {th : Thread}

theorem State.scheduleNext_of_popReady {rest : List Nat}
    (hp : popReady s.threads s.readyQueue = some (id, rest)) (hg : Assoc.get s.threads id = some th) :
    s.scheduleNext = (some id, s.dispatch id th rest) := by
  simp only [State.scheduleNext, hp, hg]

theorem State.scheduleNext_of_none (hp : popReady s.threads s.readyQueue = none) :
    s.scheduleNext = (none, { s with readyQueue := [] }) := by
  simp only [State.scheduleNext, hp]

theorem Assoc.update_of_get {α : Type} {m : List (Nat × α)} {k : Nat} {v : α} (f : α → α)
    (hg : Assoc.get m k = some v) : Assoc.update m k f = Assoc.put m k (f v) := by
  simp only [Assoc.update, hg]

theorem State.yieldCurrent_of_running (hr : s.running = some id) (hg : Assoc.get s.threads id = some th) :
    s.yieldCurrent = { s with
      threads := Assoc.put s.threads id { th with ctx := s.context, state := .ready }
      readyQueue := s.readyQueue ++ [id]
      running := none } := by
  simp only [State.yieldCurrent, hr, Assoc.update_of_get _ hg]

theorem State.block_of_running (hr : s.running = some id) (hg : Assoc.get s.threads id = some th) (d : Nat) :
    s.block d = { s.readClock with
      threads := Assoc.put s.threads id
        { th with ctx := s.context, state := .blocked, wake := some (s.readClock.now + d) }
      running := none } := by
  simp only [State.block, hr, Assoc.update_of_get _ hg]

/-- The wall clock does not go back (10_state.md R46). -/
theorem State.now_le_readClock (s : State) : s.now ≤ s.readClock.now :=
  Nat.le_add_right _ _

end

/-- Settles O50: each operation's own equation, and what its writes to the thread table are read back as. -/
theorem schedulerOperations : Obligations.SchedulerOperations := by
  refine ⟨fun s pc priority => ⟨rfl, rfl, fun j hj => Assoc.get_put_ne _ _ _ _ hj, _, Assoc.get_put_self _ _ _,
      rfl, rfl, rfl, rfl, rfl, rfl, rfl, rfl, rfl⟩,
    fun s skipped rest id th hq hskip hg hs => ?_, fun s h => ?_, fun s id th hr hg => ⟨?_, fun d => ?_⟩,
    fun s id => ⟨?_, fun j hj => ?_, rfl, rfl⟩⟩
  · have hp : popReady s.threads s.readyQueue = some (id, rest) := by
      rw [hq, popReady_append fun j hj => isReady_eq_false_of_get (hskip j hj),
        popReady_cons (isReady_of_get hg hs)]
    exact State.scheduleNext_of_popReady hp hg
  · exact State.scheduleNext_of_none (popReady_eq_none fun j hj => isReady_eq_false_of_get (h j hj))
  · exact State.yieldCurrent_of_running hr hg
  · exact ⟨_, s.now_le_readClock, State.block_of_running hr hg d⟩
  · exact (Assoc.get_erase _ _ _).trans (if_pos rfl)
  · exact (Assoc.get_erase _ _ _).trans (if_neg hj)

/-! Waking. -/

section

variable {s t : State} {id : Nat} {th : Thread}

theorem Thread.due_iff {now : Nat} :
    th.due now = true ↔ th.state = .blocked ∧ ∃ w, th.wake = some w ∧ w ≤ now := by
  simp [Thread.due, Option.any_eq_true]

theorem Thread.wakened_of_due {now : Nat} (h : th.due now = true) : th.wakened now = { th with state := .ready } :=
  if_pos h

theorem Thread.wakened_of_not_due {now : Nat} (h : ¬th.due now = true) : th.wakened now = th :=
  if_neg h

/-- Every record after waking is the one before, wakened if it was due. -/
theorem State.get_unblockDue_threads (s : State) (id : Nat) :
    Assoc.get s.unblockDue.threads id = (Assoc.get s.threads id).map (Thread.wakened s.unblockDue.now) := by
  rw [State.unblockDue_threads, Assoc.get_map]
  rfl

theorem State.get_unblockDue_of_get (hg : Assoc.get s.threads id = some th) :
    Assoc.get s.unblockDue.threads id = some (th.wakened s.unblockDue.now) := by
  rw [State.get_unblockDue_threads, hg, Option.map_some]

theorem State.mem_unblockDue_of_due (hg : Assoc.get s.threads id = some th) (hd : th.due s.unblockDue.now = true) :
    id ∈ s.unblockDue.readyQueue :=
  State.mem_unblockDue_queue.2 (.inr ⟨th, Assoc.mem_of_get hg, hd⟩)

theorem mem_dueIds_iff {threads : List (Nat × Thread)} (h : Assoc.Rising threads) {now : Nat} :
    id ∈ dueIds threads now ↔ ∃ th, Assoc.get threads id = some th ∧ th.due now = true := by
  simp only [dueIds, List.mem_map, List.mem_filter]
  constructor
  · rintro ⟨e, ⟨he, hd⟩, rfl⟩
    exact ⟨e.2, Assoc.get_of_mem h he, hd⟩
  · rintro ⟨th, hg, hd⟩
    exact ⟨(id, th), ⟨Assoc.mem_of_get hg, hd⟩, rfl⟩

/-- Keys that rise strictly are different. -/
theorem dueIds_nodup {threads : List (Nat × Thread)} (h : Assoc.Rising threads) (now : Nat) :
    (dueIds threads now).Nodup := by
  rw [dueIds, List.Nodup, List.pairwise_map]
  exact (h.filter _).imp Nat.ne_of_lt

/-- A thread that the loop's dispatch puts in the engine is ready once the due threads are woken. -/
theorem State.ready_of_dispatchStep (hd : s.dispatchStep = .next t) (hn : s.running = none)
    (hr : t.running = some id) :
    t.now = s.unblockDue.now ∧ ∃ th, Assoc.get s.unblockDue.threads id = some th ∧ th.state = .ready := by
  unfold State.dispatchStep at hd
  rcases s.unblockDue.scheduleNext_cases with ⟨j, rest, th, _, hg, hs, he⟩ | ⟨_, he⟩
  · simp only [he, Host.Outcome.next.injEq] at hd
    subst hd
    obtain rfl : j = id := Option.some.inj hr
    exact ⟨rfl, th, hg, hs⟩
  · simp only [he] at hd
    split at hd
    · cases hd
      exact nomatch hn.symm.trans hr
    · cases hd

/-- A blocked thread that is ready after waking was due. -/
theorem Thread.due_of_wakened_ready {now : Nat} (hb : th.state = .blocked) (hr : (th.wakened now).state = .ready) :
    th.due now = true := by
  cases h : th.due now with
  | true => rfl
  | false =>
    rw [Thread.wakened_of_not_due (Bool.eq_false_iff.1 h), hb] at hr
    cases hr

end

/-- Settles O51: waking maps every record by `wakened` and queues the ids of the due ones, and a dispatch takes
only what is ready after it. -/
theorem sleepersWaitForTheirDeadline : Obligations.SleepersWaitForTheirDeadline := by
  refine ⟨fun s id th w hg hb hw => ⟨s.now_le_readClock, fun hle => ?_, fun hlt => ?_⟩, fun s id th hg hb => ?_,
    fun s id hg => ?_, fun s hs => ⟨_, rfl, ?_, fun id => ?_⟩, fun s => rfl,
    fun s t id th w hd hn hg hb hw ht hr => ?_⟩
  · have hdue : th.due s.unblockDue.now = true := Thread.due_iff.2 ⟨hb, w, hw, hle⟩
    exact ⟨by rw [State.get_unblockDue_of_get hg, Thread.wakened_of_due hdue],
      State.mem_unblockDue_of_due hg hdue⟩
  · rw [State.get_unblockDue_of_get hg, Thread.wakened_of_not_due]
    rw [Thread.due_iff]
    rintro ⟨_, w', hw', hle⟩
    cases hw.symm.trans hw'
    exact absurd hlt (Nat.not_lt.2 hle)
  · rw [State.get_unblockDue_of_get hg, Thread.wakened_of_not_due]
    exact fun h => hb (Thread.due_iff.1 h).1
  · rw [State.get_unblockDue_threads, hg]
    rfl
  · exact (freeOrder_perm _ _).nodup_iff.2 (dueIds_nodup hs.1 _)
  · refine mem_freeOrder.trans ((mem_dueIds_iff hs.1).trans ?_)
    simp only [Thread.due_iff]
    exact ⟨fun ⟨th, hg, hb, w, h⟩ => ⟨th, w, hg, hb, h⟩, fun ⟨th, w, hg, hb, h⟩ => ⟨th, hg, hb, w, h⟩⟩
  · have hstep : s.dispatchStep = .next t := (step_of_no_thread hd hn).symm.trans ht
    obtain ⟨hnow, u, hu, hready⟩ := State.ready_of_dispatchStep hstep hn hr
    rw [State.get_unblockDue_of_get hg] at hu
    cases hu
    obtain ⟨_, w', hw', hle⟩ := Thread.due_iff.1 (Thread.due_of_wakened_ready hb hready)
    cases hw.symm.trans hw'
    exact hnow ▸ hle

end Sys2Proof.Machine
end

section
/-!
PROOFS. Preemption (60_exceptions.md R444): it comes past the slice's limit, and no slice is infinite.
-/

namespace Sys2Proof.Machine

open Sys2Proof

/-! The loop's choice at a boundary. -/

section

variable {s t : State} {id : Nat} {th : Thread}

theorem State.preemptsNow_iff (hr : s.running = some id) (hg : Assoc.get s.threads id = some th) :
    s.preemptsNow = true ↔ Config.sliceLimit id (th.instret - th.slice) < th.slice := by
  simp [State.preemptsNow, hr, State.runningThread_of_get hr hg]

/-- Past the slice's limit the thread is preempted: it has run an instruction, so `preempt` acts. -/
theorem step_of_preempted (hd : s.driver = .sched) (hr : s.running = some id) (hh : s.halted = false)
    (hs : s.suspend = .none) (hg : Assoc.get s.threads id = some th)
    (hlt : Config.sliceLimit id (th.instret - th.slice) < th.slice) :
    step s = .next { s with suspend := .quota } := by
  have hp : s.preemptsNow = true := (State.preemptsNow_iff hr hg).2 hlt
  have hbegun : s.sliceBegun = true := by
    simp only [State.sliceBegun, State.runningThread_of_get hr hg, Option.any_some, decide_eq_true_eq]
    omega
  simp [step_of_thread hd hr, State.threadStep, State.preempt, hh, hs, hp, hbegun]

/-- Within the limit the engine takes its step. -/
theorem step_of_not_preempted (hd : s.driver = .sched) (hr : s.running = some id) (hh : s.halted = false)
    (hs : s.suspend = .none) (hg : Assoc.get s.threads id = some th)
    (hle : th.slice ≤ Config.sliceLimit id (th.instret - th.slice)) : step s = s.engineStep :=
  step_of_sched hd hr hh hs <| Bool.eq_false_iff.2 fun hp =>
    Nat.not_lt.2 hle ((State.preemptsNow_iff hr hg).1 hp)

/-! What the running thread's slice depends on, over a step. -/

theorem Accesses.driver (h : Accesses s t) : t.driver = s.driver := by
  induction h with
  | refl => rfl
  | tail _ hs ih => cases hs <;> exact ih

theorem Performs.driver (h : Performs s t) : t.driver = s.driver := by
  rcases h with ⟨u, st, ha, ⟨_, _, _, _, _, _, _, rfl⟩, _⟩ | ⟨u, f, ha, rfl⟩
  · exact ha.driver
  · exact ha.driver

theorem driver_cycleKeeps (d : Driver) : CycleKeeps fun t => t.driver = d where
  accesses ha h := ha.driver.trans h
  performs hp h := hp.driver.trans h
  halts _ _ h := h
  settles {s u} _ hu := by
    rcases settle_cases s u with e | e <;> (rw [e]; exact hu)

theorem State.setPixel_driver (s : State) (x y : Int) (c : Nat) : (s.setPixel x y c).driver = s.driver := by
  unfold State.setPixel
  split <;> rfl

/-- The kernel starts no loop. -/
theorem State.host_driver (s : State) {op : HostOp} (h : op.kernelMay = true) : (s.host op).driver = s.driver := by
  cases op with
  | writeBytes addr bytes =>
    simp only [State.host, State.hostWrite]
    split <;> rfl
  | setPixel x y c => exact s.setPixel_driver x y c
  | drawShape c =>
    exact State.drawShape_keeps (P := fun t => t.driver = s.driver)
      (fun t x y c ht => (t.setPixel_driver x y c).trans ht) c rfl
  | yieldCurrent =>
    simp only [State.host, State.yieldCurrent]
    split <;> rfl
  | block duration =>
    simp only [State.host, State.block]
    split <;> rfl
  | expand | registerRegion | unregisterRegion | registerMmio | unregisterMmio | setPaging
  | installVector | removeVector | createThread | terminate => rfl
  | setPc | scheduleNext | preempt | unblockDue | startRun | startSched => cases h

theorem State.yieldCurrent_running (s : State) : s.yieldCurrent.running = none := by
  unfold State.yieldCurrent
  split
  · assumption
  · rfl

theorem State.block_running (s : State) (d : Nat) : (s.block d).running = none := by
  unfold State.block
  split
  · assumption
  · rfl

theorem State.terminate_running_eq_some {r : Nat} (h : (s.terminate r).running = some id) :
    s.running = some id ∧ id ≠ r := by
  simp only [State.terminate] at h
  split at h
  · cases h
  · next hne => exact ⟨h, fun e => hne (e ▸ h)⟩

theorem State.get_of_threadFields (h : t.threadFields = s.threadFields) (hr : t.running = some id) :
    s.running = some id ∧ Assoc.get t.threads id = Assoc.get s.threads id := by
  simp only [State.threadFields, Prod.mk.injEq] at h
  obtain ⟨_, hthreads, _, _, hrunning, _, _⟩ := h
  exact ⟨hrunning.symm.trans hr, congrArg (Assoc.get · id) hthreads⟩

/-- A thread that runs after an action of the kernel ran before it, and its record is untouched. -/
theorem State.get_host_of_running (hi : s.SchedulerInv) {op : HostOp} (hop : op.kernelMay = true)
    (hr : (s.host op).running = some id) :
    s.running = some id ∧ Assoc.get (s.host op).threads id = Assoc.get s.threads id := by
  cases op with
  | createThread pc priority =>
    obtain ⟨e, he, rfl⟩ := hi.2.2.2.2.1 id hr
    exact ⟨hr, Assoc.get_put_ne _ _ _ _ (Nat.ne_of_lt (hi.2.1 e he))⟩
  | yieldCurrent => exact nomatch s.yieldCurrent_running.symm.trans hr
  | block d => exact nomatch (s.block_running d).symm.trans hr
  | terminate r =>
    obtain ⟨hrun, hne⟩ := State.terminate_running_eq_some hr
    exact ⟨hrun, (Assoc.get_erase _ _ _).trans (if_neg hne)⟩
  | writeBytes | expand | registerRegion | unregisterRegion | registerMmio | unregisterMmio | setPaging
  | installVector | removeVector | setPixel | drawShape =>
    exact State.get_of_threadFields (s.host_threadFields rfl) hr
  | setPc | scheduleNext | preempt | unblockDue | startRun | startSched => cases hop

/-- Thread `id` runs under the driver loop, and within `n` more instructions its slice passes its limit. -/
structure State.InSlice (s : State) (id n : Nat) : Prop where
  inv : s.SchedulerInv
  driver : s.driver = .sched
  running : s.running = some id
  bound : ∃ th, Assoc.get s.threads id = some th
    ∧ Config.sliceLimit id (th.instret - th.slice) < th.slice + n

/-- A running thread is in its slice, for some number of instructions. -/
theorem State.exists_inSlice (hi : s.SchedulerInv) (hd : s.driver = .sched) (hr : s.running = some id) :
    ∃ n, s.InSlice id n := by
  obtain ⟨e, he, rfl⟩ := hi.2.2.2.2.1 id hr
  exact ⟨Config.sliceLimit e.1 (e.2.instret - e.2.slice) + 1, hi, hd, hr, e.2, Assoc.get_of_mem hi.1 he, by omega⟩

/-- `t` is under the driver loop as `s` is, and if it runs thread `id` that has the record it has in `s`. -/
structure State.KeepsThread (s : State) (id : Nat) (t : State) : Prop where
  inv : t.SchedulerInv
  driver : t.driver = .sched
  thread : t.running = some id → Assoc.get t.threads id = Assoc.get s.threads id

theorem State.KeepsThread.host (h : s.KeepsThread id t) {op : HostOp} (hop : op.kernelMay = true) :
    s.KeepsThread id (t.host op) where
  inv := schedulerInv_stepKeeps.host op (fun e => absurd e (kernelMay_ne_scheduleNext hop)) h.inv
  driver := (t.host_driver hop).trans h.driver
  thread hr :=
    have ⟨hrun, hget⟩ := State.get_host_of_running h.inv hop hr
    hget.trans (h.thread hrun)

theorem State.KeepsThread.kernelRespond (hi : s.SchedulerInv) (hd : s.driver = .sched) (id : Nat) :
    s.KeepsThread id s.kernelRespond := by
  have hresult : s.KeepsThread id ({ s with draws := s.draws + 1 }.kernelResult (Config.kernelResponse s)) :=
    ⟨hi, hd, fun _ => rfl⟩
  have hacts := State.kernelActs_keeps (fun _ _ hop ht => ht.host hop) (Config.kernelResponse s) hresult
  exact ⟨hacts.inv, hacts.driver, hacts.thread⟩

/-- The kernel's response takes the thread out of its slice or leaves it where it was. -/
theorem State.InSlice.kernelRespond {n : Nat} (h : s.InSlice id n) (hr : s.kernelRespond.running = some id) :
    s.kernelRespond.InSlice id n := by
  obtain ⟨hi, hd, hg⟩ := State.KeepsThread.kernelRespond h.inv h.driver id
  obtain ⟨th, hth, hlt⟩ := h.bound
  exact ⟨hi, hd, hr, th, (hg hr).trans hth, hlt⟩

/-- An instruction that completes uses one of the slice's. -/
theorem State.InSlice.engineStep {n : Nat} (h : s.InSlice id (n + 1)) (ht : s.engineStep = .next t)
    (hc : s.CountedFrom t) : t.InSlice id n := by
  have hf := State.engineStep_hostFields ht
  simp only [State.hostFields, Prod.mk.injEq] at hf
  obtain ⟨_, _, _, hrunning, _, _⟩ := hf
  obtain ⟨th, hth, hlt⟩ := h.bound
  refine ⟨schedulerInv_cycleKeeps.engineStep ht h.inv, (driver_cycleKeeps _).engineStep ht h.driver,
    hrunning.trans h.running, { th with slice := th.slice + 1, instret := th.instret + 1 }, ?_, ?_⟩
  · rw [hc.threads, State.countedThreads_of_running h.running hth, Assoc.get_put_self]
  · show Config.sliceLimit id (th.instret + 1 - (th.slice + 1)) < th.slice + 1 + n
    rw [Nat.add_sub_add_right]
    omega

/-! No slice is infinite. -/

/-- After some number of steps thread `id` is not running. -/
def State.Leaves (s : State) (id : Nat) : Prop :=
  ∃ n t, stepTimes n s = .next t ∧ t.running ≠ some id

theorem State.leaves_of_not_running (h : s.running ≠ some id) : s.Leaves id :=
  ⟨0, s, rfl, h⟩

theorem State.leaves_of_step (h : step s = .next t) (ht : t.Leaves id) : s.Leaves id := by
  obtain ⟨n, u, hn, hu⟩ := ht
  exact ⟨n + 1, u, by simp only [stepTimes, h, hn], hu⟩

theorem State.leaves_of_halted (hd : s.driver = .sched) (hr : s.running = some id) (hh : s.halted = true) :
    s.Leaves id :=
  State.leaves_of_step (step_of_thread_halted hd hr hh) <| State.leaves_of_not_running fun e =>
    (State.terminate_running_eq_some e).2 rfl

theorem State.leaves_of_yields (hd : s.driver = .sched) (hr : s.running = some id) (hh : s.halted = false)
    (hs : s.suspend = .yield ∨ s.suspend = .quota) : s.Leaves id :=
  State.leaves_of_step (step_of_thread_yields hd hr hh hs) <| State.leaves_of_not_running fun e =>
    nomatch s.yieldCurrent_running.symm.trans e

theorem State.leaves_of_preempted (hd : s.driver = .sched) (hr : s.running = some id) (hh : s.halted = false)
    (hs : s.suspend = .none) (hg : Assoc.get s.threads id = some th)
    (hlt : Config.sliceLimit id (th.instret - th.slice) < th.slice) : s.Leaves id :=
  State.leaves_of_step (step_of_preempted hd hr hh hs hg hlt) <| State.leaves_of_yields hd hr hh (.inr rfl)

/-- Whatever the engine stopped for, the thread leaves if it does where the engine goes on: a halt, a yield and a
quota stop end its running at once, and after a response to a SYSCALL the engine goes on. -/
theorem State.InSlice.leaves_of_going_on {n : Nat}
    (hgo : ∀ t : State, t.InSlice id n → t.halted = false → t.suspend = .none → t.Leaves id)
    (h : s.InSlice id n) : s.Leaves id := by
  cases hh : s.halted with
  | true => exact State.leaves_of_halted h.driver h.running hh
  | false =>
    cases hs : s.suspend with
    | none => exact hgo s h hh hs
    | yield => exact State.leaves_of_yields h.driver h.running hh (.inl hs)
    | quota => exact State.leaves_of_yields h.driver h.running hh (.inr hs)
    | syscall q =>
      refine State.leaves_of_step (step_of_thread_syscall h.driver h.running hh hs) ?_
      by_cases hr : s.kernelRespond.running = some id
      · have ht := h.kernelRespond hr
        have hsuspend : s.kernelRespond.suspend = .none := if_pos (hr.trans h.running.symm)
        cases hh' : s.kernelRespond.halted with
        | true => exact State.leaves_of_halted ht.driver ht.running hh'
        | false => exact hgo _ ht hh' hsuspend
      · exact State.leaves_of_not_running hr

/-- By induction on the instructions left to the slice: with none left the thread is preempted, else an instruction
faults, which halts it, or uses one. -/
theorem State.InSlice.leaves {n : Nat} (h : s.InSlice id n) : s.Leaves id := by
  induction n generalizing s with
  | zero =>
    refine h.leaves_of_going_on fun t ht hh hs => ?_
    obtain ⟨th, hg, hlt⟩ := ht.bound
    exact State.leaves_of_preempted ht.driver ht.running hh hs hg hlt
  | succ n ih =>
    refine h.leaves_of_going_on fun t ht hh hs => ?_
    obtain ⟨th, hg, _⟩ := ht.bound
    by_cases hlt : Config.sliceLimit id (th.instret - th.slice) < th.slice
    · exact State.leaves_of_preempted ht.driver ht.running hh hs hg hlt
    · obtain ⟨u, hu⟩ := t.engineStep_next
      have hstep := step_of_not_preempted ht.driver ht.running hh hs hg (Nat.le_of_not_lt hlt)
      refine State.leaves_of_step (hstep.trans hu) ?_
      rcases State.engineStep_counted_or_faulted hu with hc | ⟨f, hf⟩
      · exact ih (ht.engineStep hu hc)
      · have hhalted : u.halted = true := State.field_of_outsideMemory hf State.halted
        have hrunning : u.running = t.running := State.field_of_outsideMemory hf State.running
        exact State.leaves_of_halted ((driver_cycleKeeps _).engineStep hu ht.driver) (hrunning.trans ht.running)
          hhalted

end

/-- Settles O52: the loop's choice by the limit, and the end of the slice by induction on what is left of it. -/
theorem preemptionNeedsABegunSlice : Obligations.PreemptionNeedsABegunSlice := by
  refine ⟨fun s id th hd hr hh hs hg => ⟨fun h0 => ?_, step_of_not_preempted hd hr hh hs hg,
    step_of_preempted hd hr hh hs hg⟩, fun s id hi hd hr => ?_⟩
  · exact step_of_not_preempted hd hr hh hs hg (h0 ▸ Nat.zero_le _)
  · obtain ⟨n, hn⟩ := State.exists_inSlice hi hd hr
    exact hn.leaves

end Sys2Proof.Machine
end
